-- ==== Sys2Proof/Word.lean ====
section
/-! DEFINITION. Bytes of a program image, the four word sizes of spec/00_scope.md R7 and the word count `nw`
of R12. -/

namespace Sys2Proof

/-- One byte of a program image. The block itself has no byte addresses (20_memory.md R80). -/
abbrev Byte := BitVec 8

/-- The legal values of the parameter `WB`, bits per storage word (00_scope.md R7). -/
inductive WordSize where
  | w8
  | w16
  | w32
  | w64
  deriving DecidableEq, Repr

/-- `WB` in bits. -/
def WordSize.bits : WordSize → Nat
  | .w8 => 8
  | .w16 => 16
  | .w32 => 32
  | .w64 => 64

/-- How many bytes of a program image one `WB`-bit data word takes (30_encoding.md R109). -/
def WordSize.bytes : WordSize → Nat
  | .w8 => 1
  | .w16 => 2
  | .w32 => 4
  | .w64 => 8

/-- `nw(n) = ceil(n / WB)`, the number of words of an `n`-bit register (00_scope.md R12). -/
def nw (wb n : Nat) : Nat := (n + wb - 1) / wb

end Sys2Proof
end

