-- ==== Sys2Proof/Config.lean ====
section
/-! DEFINITION. The static parameters of an instance of the block (00_scope.md R7) and the free values: what the
spec leaves open is an opaque constant, so that no proof can see a value of it. -/

namespace Sys2Proof

/-- One choice of the parameters `W`, `V`, `WB` and `SW`, legal by construction (00_scope.md R7, 30_encoding.md R104). Nothing a machine does
changes its instance. -/
structure Instance where
  /-- width of A, of R1 and of the truncating results -/
  W : Nat
  /-- width of B -/
  V : Nat
  /-- bits per storage word, `WB` -/
  wordSize : WordSize
  /-- width of the shift/rotate amount register S -/
  SW : Nat
  W_pos : 1 ≤ W
  V_pos : 1 ≤ V
  SW_pos : 1 ≤ SW
  SW_le : SW ≤ 64
  index_fits : nw wordSize.bits (W + V) ≤ 2 ^ 24
  deriving DecidableEq, Repr

/-- `WB` as a number of bits. -/
def Instance.WB (c : Instance) : Nat := c.wordSize.bits

/-- `M = max(W, V)` (00_scope.md R14). -/
def Instance.M (c : Instance) : Nat := max c.W c.V

/-- The instance of `State.reset`: the parameters of program P1 in 95_test_vectors.md. DESIGN CHOICE
(notes/assumptions/1.md): the spec fixes no parameter, and every statement about the machine is over all instances. -/
def Instance.reference : Instance :=
  { W := 16, V := 16, wordSize := .w8, SW := 8
    W_pos := by decide, V_pos := by decide, SW_pos := by decide, SW_le := by decide
    index_fits := by decide }

/-- Free value: the word a host read of R0 or R1 returns while BUSY = 1 ("any `WB`-bit value", 20_memory.md R74,
70_reset_and_hazards.md R320); the argument is the counter `fresh` of the state (notes/assumptions/5.md). -/
opaque Config.freeBusyWord : Nat → BitVec 64

/-- Free value: the unspecified content of an unwritten word that the host reads (10_state.md R44), by `fresh`, cut to
the bits the register has in that word (notes/assumptions/4.md). -/
opaque Config.freeUnwrittenWord : Nat → BitVec 64

/-- Free value: the unspecified content that the unwritten words of an operand register have when a command is
accepted (10_state.md R44), by `fresh`, cut to the register's width (notes/assumptions/4.md). -/
opaque Config.freeOperand : Nat → Nat

/-- Free value: the latency of a command, the number of host transactions that take effect between its acceptance
and its completion (40_command_cycle.md R138), by `fresh`; used once the state's list of latencies has run out
(notes/assumptions/6.md). -/
opaque Config.freeLatency : Nat → Nat

end Sys2Proof
end

