-- ==== Sys2Proof/Syntax.lean ====
section
/-! DEFINITION. The instructions: one constructor for each row of spec/opcode_table.json, the 23 commands of the
opcode map (30_encoding.md R105) and the 3 host transactions (R111). -/

namespace Sys2Proof

/-- The register select of an address (10_state.md R31, 20_memory.md R71); `reserved k` is select `8 + k`. -/
inductive Sel where
  | a
  | b
  | s
  | cin
  | r0
  | r1
  | status
  | cmd
  | reserved (k : BitVec 3)
  deriving DecidableEq, Repr

/-- The instructions. A command names the completion that the block performs for it (40_command_cycle.md R134); it
takes its operands from the snapshot and so has no operand field (30_encoding.md R102). `rd`, `wr` and `poll` are
the host's transactions; a `wr` carries one `WB`-bit data word. -/
inductive Instr where
  -- control
  | nop
  | clrerr
  -- add and subtract
  | add
  | sub
  | neg
  | eaddu
  | eadds
  | esubu
  | esubs
  -- multiply
  | mul
  | smul
  | kmul
  | bmul
  | bmuli
  -- divide
  | divu
  | divs
  -- shift and rotate
  | sll
  | srl
  | sra
  | rol
  | ror
  | rcl
  | rcr
  -- host transactions
  | rd (sel : Sel) (idx : BitVec 24)
  | wr (sel : Sel) (idx : BitVec 24) (data : BitVec 64)
  | poll
  deriving DecidableEq, Repr

/-- The spec's two encoded forms (30_encoding.md R100): the command byte and the host transaction. -/
inductive Form where
  | cmd8
  | bus
  deriving DecidableEq, Repr

/-- The form in which an instruction is encoded. -/
def Instr.form : Instr → Form
  | .rd _ _ | .wr _ _ _ | .poll => .bus
  | .nop | .clrerr | .add | .sub | .neg | .eaddu | .eadds | .esubu | .esubs | .mul | .smul | .kmul | .bmul | .bmuli
  | .divu | .divs | .sll | .srl | .sra | .rol | .ror | .rcl | .rcr => .cmd8

end Sys2Proof
end

