-- ==== Sys2Proof/WellFormed.lean ====
section
/-! DEFINITION. Which instruction terms the encoding can carry, and which lists of them are host programs. -/

namespace Sys2Proof

/-- A `wr` carries one `WB`-bit data word (30_encoding.md R103); every other field fits by its type. -/
def Instr.wellFormed (ws : WordSize) : Instr → Bool
  | .wr _ _ data => decide (data.toNat < 2 ^ ws.bits)
  | .rd _ _ | .poll => true
  | .nop | .clrerr | .add | .sub | .neg | .eaddu | .eadds | .esubu | .esubs | .mul | .smul | .kmul | .bmul | .bmuli
  | .divu | .divs | .sll | .srl | .sra | .rol | .ror | .rcl | .rcr => true

/-- A host program is a sequence of host transactions (30_encoding.md R110): no command byte stands in it as a
transaction of its own, and every data word fits. -/
def programWellFormed (ws : WordSize) (is : List Instr) : Bool :=
  is.all fun i => decide (i.form = .bus) && i.wellFormed ws

end Sys2Proof
end

