-- ==== Sys2Proof/Decode.lean ====
section
/-! DEFINITION. The decoder, total on any bytes and rejecting by name; after it the encoder, written from the same
tables of spec/30_encoding.md. The byte order of a header or data word inside a program image is a DESIGN CHOICE
(notes/assumptions/2.md): least significant byte first. -/

namespace Sys2Proof

/-- Why bytes do not encode an instruction. -/
inductive Reject where
  /-- fewer bytes than the form needs (30_encoding.md R109) -/
  | truncated
  /-- a command byte outside the opcode map (R106) -/
  | unassignedOpcode
  /-- bits 29:28 of a header are not 0 (R108) -/
  | reservedBits
  /-- P = 1 with WR = 1, SEL ≠ 6 or IDX ≠ 0 (R108) -/
  | badPoll
  deriving DecidableEq, Repr

/-- What the decoder answers: the instruction and the bytes after it, or why there is none. -/
inductive Decoded where
  | ok (i : Instr) (rest : List Byte)
  | reject (why : Reject)
  deriving DecidableEq, Repr

/-- What a decoder of a whole program answers: its transactions, or the position (the transaction's number, from 0)
and the reason of the first that does not decode (R108). -/
inductive Program where
  | ok (is : List Instr)
  | bad (pos : Nat) (why : Reject)
  deriving DecidableEq, Repr

/-- The register a select field names (10_state.md R31). -/
def Sel.ofCode (c : BitVec 4) : Sel :=
  match c.toNat with
  | 0 => .a
  | 1 => .b
  | 2 => .s
  | 3 => .cin
  | 4 => .r0
  | 5 => .r1
  | 6 => .status
  | 7 => .cmd
  | n => .reserved (BitVec.ofNat 3 n)

/-- The select number of a register (10_state.md R31). -/
def Sel.code : Sel → BitVec 4
  | .a => 0#4
  | .b => 1#4
  | .s => 2#4
  | .cin => 3#4
  | .r0 => 4#4
  | .r1 => 5#4
  | .status => 6#4
  | .cmd => 7#4
  | .reserved k => 1#1 ++ k

/-- The opcode map (30_encoding.md R105): GRP in bits 7:4, FN in bits 3:0. -/
def opcodeMap : List (BitVec 8 × Instr) :=
  [(0x00#8, .nop), (0x01#8, .clrerr)] ++
  [(0x10#8, .add), (0x11#8, .sub), (0x12#8, .neg), (0x14#8, .eaddu), (0x15#8, .eadds), (0x16#8, .esubu),
    (0x17#8, .esubs)] ++
  [(0x20#8, .mul), (0x21#8, .smul), (0x22#8, .kmul), (0x23#8, .bmul), (0x24#8, .bmuli)] ++
  [(0x30#8, .divu), (0x31#8, .divs)] ++
  [(0x40#8, .sll), (0x41#8, .srl), (0x42#8, .sra), (0x44#8, .rol), (0x45#8, .ror), (0x46#8, .rcl), (0x47#8, .rcr)]

/-- The command an opcode selects; `none` for the 233 unassigned values (R106). -/
def decodeOpcode (op : BitVec 8) : Option Instr := opcodeMap.lookup op

/-- A number from its bytes, least significant first. -/
def ofBytes : List Byte → Nat
  | [] => 0
  | b :: bs => b.toNat + 256 * ofBytes bs

/-- The `k` low bytes of a number, least significant first. -/
def toBytes : Nat → Nat → List Byte
  | 0, _ => []
  | k + 1, x => BitVec.ofNat 8 x :: toBytes k (x / 256)

/-- The length in bytes of a `BUS` header. -/
def headerBytes : Nat := 4

/-- Format `BUS` (30_encoding.md R103) with the refusals of R108, on a header and the bytes after it. -/
def decodeHeader (ws : WordSize) (h : BitVec 32) (rest : List Byte) : Decoded :=
  let wr := h.getLsbD 31
  let p := h.getLsbD 30
  let sel := Sel.ofCode (h.extractLsb' 24 4)
  let idx := h.extractLsb' 0 24
  if h.extractLsb' 28 2 ≠ 0#2 then .reject .reservedBits
  else if p then
    if wr = false ∧ sel = .status ∧ idx = 0#24 then .ok .poll rest else .reject .badPoll
  else if wr then
    if rest.length < ws.bytes then .reject .truncated
    else .ok (.wr sel idx (BitVec.ofNat 64 (ofBytes (rest.take ws.bytes)))) (rest.drop ws.bytes)
  else .ok (.rd sel idx) rest

/-- The decoder of the two forms (30_encoding.md R101, R103, R109). -/
def decode (form : Form) (ws : WordSize) (bytes : List Byte) : Decoded :=
  match form with
  | .cmd8 =>
    match bytes with
    | [] => .reject .truncated
    | op :: rest =>
      match decodeOpcode op with
      | some i => .ok i rest
      | none => .reject .unassignedOpcode
  | .bus =>
    if bytes.length < headerBytes then .reject .truncated
    else decodeHeader ws (BitVec.ofNat 32 (ofBytes (bytes.take headerBytes))) (bytes.drop headerBytes)

/-- The transactions of a program image, the concatenation of its transactions in order (30_encoding.md R109). The
fuel bounds the number of transactions; `pos` is the number of the next one. -/
def decodeProgramFrom (ws : WordSize) : Nat → Nat → List Byte → Program
  | _, _, [] => .ok []
  | 0, pos, _ :: _ => .bad pos .truncated
  | fuel + 1, pos, b :: bs =>
    match decode .bus ws (b :: bs) with
    | .reject why => .bad pos why
    | .ok i rest =>
      match decodeProgramFrom ws fuel (pos + 1) rest with
      | .ok is => .ok (i :: is)
      | .bad p why => .bad p why

/-- The decoder of host programs; a transaction takes at least four bytes, so the image's length is fuel enough. -/
def decodeProgram (ws : WordSize) (pos : Nat) (bytes : List Byte) : Program :=
  decodeProgramFrom ws bytes.length pos bytes

/-- The opcode of a command (30_encoding.md R105); 0 for a host transaction, which has none. -/
def opcode : Instr → BitVec 8
  | .nop => 0x00#8
  | .clrerr => 0x01#8
  | .add => 0x10#8
  | .sub => 0x11#8
  | .neg => 0x12#8
  | .eaddu => 0x14#8
  | .eadds => 0x15#8
  | .esubu => 0x16#8
  | .esubs => 0x17#8
  | .mul => 0x20#8
  | .smul => 0x21#8
  | .kmul => 0x22#8
  | .bmul => 0x23#8
  | .bmuli => 0x24#8
  | .divu => 0x30#8
  | .divs => 0x31#8
  | .sll => 0x40#8
  | .srl => 0x41#8
  | .sra => 0x42#8
  | .rol => 0x44#8
  | .ror => 0x45#8
  | .rcl => 0x46#8
  | .rcr => 0x47#8
  | .rd _ _ | .wr _ _ _ | .poll => 0#8

/-- The header of a transaction (30_encoding.md R103, R111): WR, P, two zero bits, SEL, IDX. -/
def header (wr p : Bool) (sel : Sel) (idx : BitVec 24) : BitVec 32 :=
  BitVec.ofBool wr ++ BitVec.ofBool p ++ 0#2 ++ sel.code ++ idx

/-- The encoder: one byte for a command, a header for `rd` and `poll`, a header and a data word for `wr`. -/
def encode (ws : WordSize) : Instr → List Byte
  | .rd sel idx => toBytes headerBytes (header false false sel idx).toNat
  | .wr sel idx data => toBytes headerBytes (header true false sel idx).toNat ++ toBytes ws.bytes data.toNat
  | .poll => toBytes headerBytes (header false true .status 0#24).toNat
  | i => [opcode i]

/-- The image of a host program (30_encoding.md R109). -/
def encodeProgram (ws : WordSize) (is : List Instr) : List Byte := is.flatMap (encode ws)

/-- The instruction the decoder reads from a row of spec/opcode_table.json: a row of at most 8 bits is a command byte,
any other a `BUS` header with, for `wr`, the data word in the bits above it. -/
def decodeTableWord (nbits w : Nat) : Option Instr :=
  let answer :=
    if nbits ≤ 8 then decode .cmd8 .w8 (toBytes 1 w)
    else decode .bus .w8 (toBytes (headerBytes + WordSize.bytes .w8) w)
  match answer with
  | .ok i _ => some i
  | .reject _ => none

end Sys2Proof
end

