-- ==== Sys2Proof/Machine/State.lean ====
section
/-! DEFINITION. The state of the machine as plain data: the block's registers, STATUS and the record in flight
(spec/10_state.md), the host's side (its program and what its reads returned), and the model's own fields. -/

namespace Sys2Proof.Machine

/-- An `n`-bit register held as `nw(n)` words of `wb` bits: its value, and the hidden `written` bit of each word
(10_state.md R31, R44). The words are a view of the value (00_scope.md R12). -/
structure Reg (wb n : Nat) where
  val : BitVec n
  written : BitVec (nw wb n)
  deriving DecidableEq, Repr

/-- The error codes of STATUS.ERR; 3 to 15 are never produced (10_state.md R38, 60_exceptions.md R280). -/
inductive ErrCode where
  | none
  | divisionByZero
  | illegalOpcode
  deriving DecidableEq, Repr

/-- The fields of STATUS (10_state.md R38). Its reserved bits always read 0 and are not held. -/
structure Status where
  busy : Bool
  done : Bool
  c : Bool
  z : Bool
  n : Bool
  err : ErrCode
  oor : Bool
  acc : Bool
  bsy : Bool
  deriving DecidableEq, Repr

/-- The record `inflight`: the opcode and the operand values captured at acceptance (10_state.md R43). -/
structure Inflight (c : Instance) where
  op : BitVec 8
  A : BitVec c.W
  B : BitVec c.V
  S : BitVec c.SW
  CIN : BitVec 1
  deriving DecidableEq, Repr

/-- The block (10_state.md R31, R38, R43, R44). CMD has no storage of its own: the byte written to it is presented to
acceptance and then stands in `inflight.op` (R40). -/
structure Block (c : Instance) where
  A : Reg c.WB c.W
  B : Reg c.WB c.V
  S : Reg c.WB c.SW
  CIN : Reg c.WB 1
  R0 : Reg c.WB (c.W + c.V)
  R1 : Reg c.WB c.W
  status : Status
  inflight : Option (Inflight c)
  deriving DecidableEq, Repr

/-- The host (30_encoding.md R110, 40_command_cycle.md R139): the image of the transactions it has not performed yet,
the number of those it has, and the words its reads returned, oldest first. -/
structure HostSide (c : Instance) where
  program : List Byte
  pos : Nat
  reads : List (BitVec c.WB)
  deriving DecidableEq, Repr

/-- The model faults of 60_exceptions.md R298 (a), which the hardware does not report: it goes on with an unspecified
value. The model goes on too, with free values, and records them (notes/assumptions/3.md). -/
inductive ModelFault where
  /-- a host read of an unwritten word (10_state.md R44) -/
  | unwrittenWord (sel : Sel) (idx : BitVec 24)
  /-- acceptance of a command whose operand set has an unwritten word (40_command_cycle.md R131) -/
  | unwrittenOperand (op : BitVec 8)
  deriving DecidableEq, Repr

/-- The model's own fields: what the spec leaves to the environment, as plain data. -/
structure Env where
  /-- how many free values have been used -/
  fresh : Nat
  /-- how many more host transactions take effect before the command in flight completes (40_command_cycle.md R138) -/
  delay : Nat
  /-- the environment's choice of latency for the next commands; then `Config.freeLatency` -/
  latencies : List Nat
  /-- the reset input is asserted: the next step is the reset (70_reset_and_hazards.md R310) -/
  resetLine : Bool
  /-- the model faults this run has met, oldest first (60_exceptions.md R298 (a)) -/
  modelFaults : List ModelFault
  deriving DecidableEq, Repr

/-- The whole machine: an instance, the block, the host and the environment. -/
structure State where
  cfg : Instance
  block : Block cfg
  host : HostSide cfg
  env : Env
  deriving DecidableEq, Repr

/-- Why the machine stops with a fault. -/
inductive Fault where
  /-- A command's meaning called while no command is in flight: the block's step is not enabled (40_command_cycle.md
  R134). Raised by `State.complete`; `step` never calls a command's meaning so. Safe. -/
  | nothingInFlight
  deriving DecidableEq, Repr

/-- Why the model gives no meaning. -/
inductive Refusal where
  /-- An instruction of the table without a meaning in this model: there is none. Raised by nothing. Safe. -/
  | notModelled (mnemonic : String)
  /-- The host's program is not a sequence of encoded transactions: the number of the first that is not, and why
  (30_encoding.md R108, 60_exceptions.md R298 (b)). Raised by `step` before that program runs. Safe. -/
  | badProgram (pos : Nat) (why : Reject)
  deriving DecidableEq, Repr

/-- STATUS after reset (10_state.md R48). -/
def Status.reset : Status :=
  { busy := false, done := false, c := false, z := false, n := false, err := .none
    oor := false, acc := false, bsy := false }

/-- A data register after reset: every word unwritten (10_state.md R48). The value it holds is 0, a DESIGN CHOICE
(notes/assumptions/4.md) that no access shows, since an unwritten word reads as a free value. -/
def Reg.reset (wb n : Nat) : Reg wb n := { val := 0#n, written := 0#(nw wb n) }

/-- The block after reset (10_state.md R48). -/
def Block.reset (c : Instance) : Block c :=
  { A := Reg.reset _ _, B := Reg.reset _ _, S := Reg.reset _ _, CIN := Reg.reset _ _
    R0 := Reg.reset _ _, R1 := Reg.reset _ _, status := Status.reset, inflight := none }

/-- An instance of the machine after power-on, with no program placed in the host. -/
def State.resetOf (c : Instance) : State :=
  { cfg := c, block := Block.reset c
    host := { program := [], pos := 0, reads := [] }
    env := { fresh := 0, delay := 0, latencies := [], resetLine := false, modelFaults := [] } }

/-- The reference instance after reset. -/
def State.reset : State := State.resetOf Instance.reference

end Sys2Proof.Machine
end

