-- ==== Sys2Proof/Machine/Operands.lean ====
section
/-! DEFINITION. Bit patterns and their readings (spec/00_scope.md R11, R13), the word view of a register (R12,
20_memory.md R72), STATUS as a word, and the operand set of each command (40_command_cycle.md R133). -/

namespace Sys2Proof.Machine

/-- `bits_n(x)`: the `n`-bit pattern of an integer (00_scope.md R11). -/
def bitsOf (n : Nat) (x : Int) : BitVec n := BitVec.ofInt n x

/-- `uval(v)`. -/
def uval {n : Nat} (v : BitVec n) : Nat := v.toNat

/-- `sval(v)`. -/
def sval {n : Nat} (v : BitVec n) : Int := v.toInt

/-- `zext_m(v)`, and `trunc_m(v)` where `m` is below the width (00_scope.md R13). -/
def zext {n : Nat} (m : Nat) (v : BitVec n) : BitVec m := v.setWidth m

/-- `sext_m(v)` (00_scope.md R13). -/
def sext {n : Nat} (m : Nat) (v : BitVec n) : BitVec m := v.signExtend m

/-- Word `j` of an `n`-bit value; bits above the value read 0 (00_scope.md R12). -/
def wordOf {n : Nat} (wb : Nat) (v : BitVec n) (j : Nat) : BitVec wb := v.extractLsb' (j * wb) wb

/-- `mask(n, j)` (20_memory.md R72): the bits of word `j` that the register has. -/
def wordMask (wb n j : Nat) : BitVec wb :=
  if j < nw wb n - 1 then BitVec.allOnes wb else BitVec.ofNat wb (2 ^ (n - (nw wb n - 1) * wb) - 1)

/-- The places of word `j` in an `n`-bit value, all ones. -/
def wordField (wb n j : Nat) : BitVec n := (BitVec.allOnes wb).setWidth n <<< (j * wb)

/-- Word `j` of a register. -/
def Reg.word {wb n : Nat} (r : Reg wb n) (j : Nat) : BitVec wb := wordOf wb r.val j

/-- The hidden bit of word `j` (10_state.md R44). -/
def Reg.isWritten {wb n : Nat} (r : Reg wb n) (j : Nat) : Bool := r.written.getLsbD j

/-- Every word of the register has been written. -/
def Reg.full {wb n : Nat} (r : Reg wb n) : Bool := r.written == BitVec.allOnes (nw wb n)

/-- `REG.word[j] <- d AND mask(n, j)`, and the word's `written` bit (20_memory.md R75). -/
def Reg.setWord {wb n : Nat} (r : Reg wb n) (j : Nat) (d : BitVec wb) : Reg wb n :=
  { val := (r.val &&& ~~~ wordField wb n j) ||| ((d &&& wordMask wb n j).setWidth n <<< (j * wb))
    written := r.written ||| BitVec.twoPow (nw wb n) j }

/-- `REG <- v` and every `written` bit set, as a completion writes a result register (40_command_cycle.md R134). -/
def Reg.load {n : Nat} (wb : Nat) (v : BitVec n) : Reg wb n :=
  { val := v, written := BitVec.allOnes (nw wb n) }

/-- The places of the words below `k` that have been written. -/
def Reg.writtenBits {wb n : Nat} (r : Reg wb n) : Nat → BitVec n
  | 0 => 0#n
  | k + 1 => r.writtenBits k ||| (if r.isWritten k then wordField wb n k else 0#n)

/-- The register's value as acceptance captures it: the words written hold what was written, the others an
unspecified value `free` (10_state.md R44; 93_implementation_defined.md I2: the hardware "computes with an unspecified
value"). -/
def Reg.capture {wb n : Nat} (r : Reg wb n) (free : Nat) : BitVec n :=
  (r.val &&& r.writtenBits (nw wb n)) ||| (BitVec.ofNat n free &&& ~~~ r.writtenBits (nw wb n))

/-- The ERR field (10_state.md R38). -/
def ErrCode.code : ErrCode → BitVec 4
  | .none => 0#4
  | .divisionByZero => 1#4
  | .illegalOpcode => 2#4

/-- STATUS as a 32-bit value (10_state.md R38). -/
def Status.bits (t : Status) : BitVec 32 :=
  0#13 ++ BitVec.ofBool t.bsy ++ BitVec.ofBool t.acc ++ BitVec.ofBool t.oor ++ 0#4 ++ t.err.code ++ 0#3 ++
    BitVec.ofBool t.n ++ BitVec.ofBool t.z ++ BitVec.ofBool t.c ++ BitVec.ofBool t.done ++ BitVec.ofBool t.busy

/-- How many words the register of a select has; 0 for a reserved select (20_memory.md R71). -/
def selWords (c : Instance) : Sel → Nat
  | .a => nw c.WB c.W
  | .b => nw c.WB c.V
  | .s => nw c.WB c.SW
  | .cin => 1
  | .r0 => nw c.WB (c.W + c.V)
  | .r1 => nw c.WB c.W
  | .status => nw c.WB 32
  | .cmd => 1
  | .reserved _ => 0

/-- An address is valid iff its index is below the word count of its register (20_memory.md R71). -/
def validAddr (c : Instance) (sel : Sel) (idx : BitVec 24) : Bool := decide (idx.toNat < selWords c sel)

/-- Which of A, B, S and CIN a command reads. -/
structure OperandSet where
  a : Bool
  b : Bool
  s : Bool
  cin : Bool
  deriving DecidableEq, Repr

/-- A command that needs `W = V` is illegal in other instances and then reads nothing (40_command_cycle.md R133). -/
def sameWidthOperands (c : Instance) : OperandSet :=
  if c.W = c.V then ⟨true, true, false, false⟩ else ⟨false, false, false, false⟩

/-- The operand set of each instruction (40_command_cycle.md R133). -/
def operandSetOf (c : Instance) : Instr → OperandSet
  | .nop | .clrerr => ⟨false, false, false, false⟩
  | .add | .sub | .mul | .kmul | .divu | .divs => sameWidthOperands c
  | .neg => ⟨true, false, false, false⟩
  | .eaddu | .eadds => ⟨true, true, false, true⟩
  | .esubu | .esubs | .smul | .bmul | .bmuli => ⟨true, true, false, false⟩
  | .sll | .srl | .sra | .rol | .ror => ⟨true, false, true, false⟩
  | .rcl | .rcr => ⟨true, false, true, true⟩
  | .rd _ _ | .wr _ _ _ | .poll => ⟨false, false, false, false⟩

/-- The operand set of an opcode; an unassigned opcode reads nothing (40_command_cycle.md R133). -/
def operandSet (c : Instance) (op : BitVec 8) : OperandSet :=
  match decodeOpcode op with
  | some i => operandSetOf c i
  | none => ⟨false, false, false, false⟩

/-- No register of the operand set has an unwritten word (40_command_cycle.md R131). -/
def Block.operandsWritten {c : Instance} (b : Block c) (o : OperandSet) : Bool :=
  (!o.a || b.A.full) && (!o.b || b.B.full) && (!o.s || b.S.full) && (!o.cin || b.CIN.full)

end Sys2Proof.Machine
end

