-- ==== Sys2Proof/Machine/Flags.lean ====
section
/-! DEFINITION. The flags Z, N and C of a command's primary result (spec/40_command_cycle.md R133, R136). -/

namespace Sys2Proof.Machine

/-- Z: the primary result is zero (40_command_cycle.md R136). -/
def flagZ {rw : Nat} (res : BitVec rw) : Bool := uval res == 0

/-- N: the top bit of the primary result at its own width (40_command_cycle.md R136). -/
def flagN {rw : Nat} (res : BitVec rw) : Bool := res.getLsbD (rw - 1)

/-- `floor(t / 2^W)` of a sum of two `W`-bit values: the carry out of bit `W - 1` (41_add_sub.md R161). -/
def carryOut (w t : Nat) : Bool := t / 2 ^ w != 0

/-- `res[M]`, the extra bit of an expanding addition (41_add_sub.md R164), and `Y[W]`, the carry of the ring
(44_shift_rotate.md R257). -/
def extraBit {n : Nat} (m : Nat) (res : BitVec n) : Bool := res.getLsbD m

end Sys2Proof.Machine
end

