-- ==== Sys2Proof/Machine/Ops.lean ====
section
/-! DEFINITION. The shared operations: reading and writing registers through the register interface (spec/20_memory.md
R74, R75), accepting a command and dropping one (40_command_cycle.md R131, R132), completing it (R134), raising an
error (60_exceptions.md R281), and reset (70_reset_and_hazards.md R310). -/

namespace Sys2Proof.Machine

abbrev Answer := Host.Outcome State Fault Refusal

/-! ## STATUS -/

/-- The part of a completion that every command shares: BUSY, DONE, ERR and the record in flight
(40_command_cycle.md R134, R137). -/
def Block.finish {c : Instance} (b : Block c) (e : ErrCode) : Block c :=
  { b with status := { b.status with busy := false, done := true, err := e }, inflight := none }

/-- `raise E()`: the command completes with the error's code and writes no result and no flag (60_exceptions.md R281). -/
def Block.raise {c : Instance} (b : Block c) (e : ErrCode) : Block c := b.finish e

/-- A successful flag-writing completion with primary result `res` and carry `carry` (40_command_cycle.md R134, R136). -/
def Block.succeed {c : Instance} {rw : Nat} (b : Block c) (res : BitVec rw) (carry : Bool) : Block c :=
  Block.finish
    { b with
      R0 := Reg.load c.WB (zext (c.W + c.V) res)
      status := { b.status with c := carry, z := flagZ res, n := flagN res } } .none

/-- The same with a remainder for R1 (40_command_cycle.md R134). -/
def Block.succeedWithRemainder {c : Instance} (b : Block c) (res rem : BitVec c.W) (carry : Bool) : Block c :=
  { b.succeed res carry with R1 := Reg.load c.WB rem }

/-- OutOfRange: the sticky bit OOR (20_memory.md R77). -/
def Block.setOor {c : Instance} (b : Block c) : Block c := { b with status := { b.status with oor := true } }

/-- Access violation: the sticky bit ACC (20_memory.md R78). -/
def Block.setAcc {c : Instance} (b : Block c) : Block c := { b with status := { b.status with acc := true } }

/-- Busy drop: the sticky bit BSY (40_command_cycle.md R132). -/
def Block.setBsy {c : Instance} (b : Block c) : Block c := { b with status := { b.status with bsy := true } }

/-- CLRERR's effect (40_command_cycle.md R141). -/
def Block.clearSticky {c : Instance} (b : Block c) : Block c :=
  { b with status := { b.status with oor := false, acc := false, bsy := false } }

/-! ## The block's step -/

/-- The completion of the command in flight (40_command_cycle.md R134): it computes from `inflight` only. Without a
command in flight the block has no step. -/
def State.complete (s : State) (rule : Inflight s.cfg → Block s.cfg → Block s.cfg) : Answer :=
  match s.block.inflight with
  | none => .fault .nothingInFlight
  | some f => .next { s with block := rule f s.block }

/-- The rule of a command that is legal only where `W = V` (30_encoding.md R107). -/
def sameWidth {c : Instance} (rule : Inflight c → Block c → Block c) (f : Inflight c) (b : Block c) : Block c :=
  if c.W = c.V then rule f b else b.raise .illegalOpcode

/-- The completion of an unassigned opcode (30_encoding.md R106, 60_exceptions.md R283). -/
def State.completeUnassigned (s : State) : Answer := s.complete fun _ b => b.raise .illegalOpcode

/-! ## The host's side of a transaction -/

/-- A host transaction of `n` bytes has taken effect: the host goes on to the next, and the command in flight is one
transaction nearer to its completion (20_memory.md R84, 40_command_cycle.md R138). -/
def State.retire (s : State) (n : Nat) : State :=
  { s with
    host := { s.host with program := s.host.program.drop n, pos := s.host.pos + 1 }
    env := { s.env with delay := s.env.delay - 1 } }

/-- A host read returned `d` (40_command_cycle.md R139). -/
def State.returned (s : State) (d : BitVec s.cfg.WB) : State :=
  { s with host := { s.host with reads := s.host.reads ++ [d] } }

/-- A free value was used. -/
def State.useFresh (s : State) (n : Nat) : State := { s with env := { s.env with fresh := s.env.fresh + n } }

/-- The run has met a model fault (60_exceptions.md R298 (a)); the machine goes on (notes/assumptions/3.md). -/
def State.noted (s : State) (m : ModelFault) : State :=
  { s with env := { s.env with modelFaults := s.env.modelFaults ++ [m] } }

/-- A host read of word `idx` of a register: the word, or, of an unwritten word, an unspecified value in the bits the
register has there, 0 in the others (20_memory.md R74, 10_state.md R44, R46). -/
def State.access {n : Nat} (s : State) (r : Reg s.cfg.WB n) (sel : Sel) (idx : BitVec 24) : State :=
  if r.isWritten idx.toNat then s.returned (r.word idx.toNat)
  else
    ((s.returned ((Config.freeUnwrittenWord s.env.fresh).setWidth s.cfg.WB &&& wordMask s.cfg.WB n idx.toNat)).useFresh
      1).noted (.unwrittenWord sel idx)

/-- A host read of word `idx` of R0 or R1: while BUSY = 1 any value (20_memory.md R74, 70_reset_and_hazards.md R320),
also of an unwritten word, whose read is a model fault then too (notes/assumptions/8.md). -/
def State.accessResult {n : Nat} (s : State) (r : Reg s.cfg.WB n) (sel : Sel) (idx : BitVec 24) : State :=
  if s.block.status.busy then
    let t := (s.returned ((Config.freeBusyWord s.env.fresh).setWidth s.cfg.WB)).useFresh 1
    if r.isWritten idx.toNat then t else t.noted (.unwrittenWord sel idx)
  else s.access r sel idx

/-- `MemRead(addr, 1)` (20_memory.md R74). -/
def State.memRead (s : State) (sel : Sel) (idx : BitVec 24) : State :=
  if validAddr s.cfg sel idx then
    match sel with
    | .a => s.access s.block.A .a idx
    | .b => s.access s.block.B .b idx
    | .s => s.access s.block.S .s idx
    | .cin => s.access s.block.CIN .cin idx
    | .r0 => s.accessResult s.block.R0 .r0 idx
    | .r1 => s.accessResult s.block.R1 .r1 idx
    | .status => s.returned (wordOf s.cfg.WB s.block.status.bits idx.toNat)
    | .cmd => State.returned { s with block := s.block.setAcc } 0
    | .reserved _ => State.returned { s with block := s.block.setOor } 0
  else State.returned { s with block := s.block.setOor } 0

/-- The snapshot of the operands at acceptance (40_command_cycle.md R131). -/
def State.snapshot (s : State) (op : BitVec 8) : Inflight s.cfg :=
  { op := op
    A := s.block.A.capture (Config.freeOperand s.env.fresh)
    B := s.block.B.capture (Config.freeOperand (s.env.fresh + 1))
    S := s.block.S.capture (Config.freeOperand (s.env.fresh + 2))
    CIN := s.block.CIN.capture (Config.freeOperand (s.env.fresh + 3)) }

/-- The latency of the command now accepted (40_command_cycle.md R138). -/
def Env.latency (e : Env) : Nat := e.latencies.headD (Config.freeLatency (e.fresh + 4))

/-- The block with a command newly in flight (40_command_cycle.md R131). -/
def State.started (s : State) (op : BitVec 8) : Block s.cfg :=
  { s.block with
    inflight := some (s.snapshot op)
    status := { s.block.status with busy := true, done := false, err := .none } }

/-- The model fault of accepting a command with an unwritten operand (40_command_cycle.md R131). -/
def State.operandFaults (s : State) (op : BitVec 8) : List ModelFault :=
  if s.block.operandsWritten (operandSet s.cfg op) then [] else [.unwrittenOperand op]

/-- Acceptance of an opcode, legal or not (40_command_cycle.md R131). -/
def State.accept (s : State) (op : BitVec 8) : State :=
  { s with
    block := s.started op
    env := { s.env with
      fresh := s.env.fresh + 5, delay := s.env.latency, latencies := s.env.latencies.tail
      modelFaults := s.env.modelFaults ++ s.operandFaults op } }

/-- A host write to CMD: acceptance, or a drop while BUSY = 1 (40_command_cycle.md R131, R132). -/
def State.present (s : State) (op : BitVec 8) : State :=
  if s.block.status.busy then { s with block := s.block.setBsy } else s.accept op

/-- `MemWrite(addr, 1, d)` (20_memory.md R75). -/
def State.memWrite (s : State) (sel : Sel) (idx : BitVec 24) (d : BitVec s.cfg.WB) : State :=
  if validAddr s.cfg sel idx then
    match sel with
    | .a => { s with block := { s.block with A := s.block.A.setWord idx.toNat d } }
    | .b => { s with block := { s.block with B := s.block.B.setWord idx.toNat d } }
    | .s => { s with block := { s.block with S := s.block.S.setWord idx.toNat d } }
    | .cin => { s with block := { s.block with CIN := s.block.CIN.setWord idx.toNat d } }
    | .r0 | .r1 | .status => { s with block := s.block.setAcc }
    | .cmd => s.present (d.setWidth 8)
    | .reserved _ => { s with block := s.block.setOor }
  else { s with block := s.block.setOor }

/-! ## Reset -/

/-- The reset input (70_reset_and_hazards.md R310): the block goes to its reset values, a command in flight is
abandoned, no host transaction takes effect, and the input is released (notes/assumptions/9.md). -/
def State.applyReset (s : State) : State :=
  { s with block := Block.reset s.cfg, env := { s.env with delay := 0, resetLine := false } }

end Sys2Proof.Machine
end

