-- ==== Sys2Proof/Machine/AddSub.lean ====
section
/-! DEFINITION. Addition and subtraction (spec/41_add_sub.md): the pseudocode of R161 to R167 on the snapshot. -/

namespace Sys2Proof.Machine

/-- Two's-complement negation, bitwise complement plus one (41_add_sub.md R162, R163). -/
def negate {n : Nat} (v : BitVec n) : BitVec n := bitsOf n (uval (~~~v) + 1)

/-- The subtraction of the expanding forms: `bits_n(uval(x) + uval(~y) + 1)` (41_add_sub.md R166, R167). -/
def subtract {n : Nat} (x y : BitVec n) : BitVec n := bitsOf n (uval x + uval (~~~y) + 1)

/-- The addition of the expanding forms: `bits_n(uval(x) + uval(y) + CIN[0])` (41_add_sub.md R164, R165). -/
def addCarry {n : Nat} (x y : BitVec n) (cin : BitVec 1) : BitVec n := bitsOf n (uval x + uval y + uval cin)

/-- ADD (41_add_sub.md R161). -/
def execAdd (s : State) : Answer :=
  s.complete <| sameWidth fun f b =>
    let t := uval f.A + uval f.B
    b.succeed (bitsOf s.cfg.W t) (carryOut s.cfg.W t)

/-- SUB (41_add_sub.md R162). -/
def execSub (s : State) : Answer :=
  s.complete <| sameWidth fun f b =>
    let nb := bitsOf s.cfg.W (uval (~~~f.B) + 1)
    b.succeed (bitsOf s.cfg.W (uval f.A + uval nb)) false

/-- NEG (41_add_sub.md R163). -/
def execNeg (s : State) : Answer := s.complete fun f b => b.succeed (negate f.A) false

/-- EADD.U (41_add_sub.md R164). -/
def execEaddu (s : State) : Answer :=
  s.complete fun f b =>
    let m := s.cfg.M
    let res := addCarry (zext (m + 1) f.A) (zext (m + 1) f.B) f.CIN
    b.succeed res (extraBit m res)

/-- EADD.S (41_add_sub.md R165). -/
def execEadds (s : State) : Answer :=
  s.complete fun f b =>
    let m := s.cfg.M
    let res := addCarry (sext (m + 1) f.A) (sext (m + 1) f.B) f.CIN
    b.succeed res (extraBit m res)

/-- ESUB.U (41_add_sub.md R166). -/
def execEsubu (s : State) : Answer :=
  s.complete fun f b => b.succeed (subtract (zext s.cfg.M f.A) (zext s.cfg.M f.B)) false

/-- ESUB.S (41_add_sub.md R167). -/
def execEsubs (s : State) : Answer :=
  s.complete fun f b => b.succeed (subtract (sext s.cfg.M f.A) (sext s.cfg.M f.B)) false

end Sys2Proof.Machine
end

