-- ==== Sys2Proof/Machine/Control.lean ====
section
/-! DEFINITION. The control commands NOP and CLRERR (spec/40_command_cycle.md R140, R141). -/

namespace Sys2Proof.Machine

/-- NOP (40_command_cycle.md R140): nothing beyond the common part of a completion. -/
def execNop (s : State) : Answer := s.complete fun _ b => b.finish .none

/-- CLRERR (40_command_cycle.md R141): OOR, ACC and BSY become 0 at completion. -/
def execClrerr (s : State) : Answer := s.complete fun _ b => b.clearSticky.finish .none

end Sys2Proof.Machine
end

