-- ==== Sys2Proof/Machine/Divide.lean ====
section
/-! DEFINITION. Restoring division (spec/43_divide.md). -/

namespace Sys2Proof.Machine

/-- The remainder register and the quotient after `k` steps of the restoring algorithm, step `k` being `j = W - k`
(43_divide.md R221). -/
def restore {w : Nat} (num den : BitVec w) : Nat → BitVec (2 * w) × BitVec w
  | 0 => (zext (2 * w) num, 0#w)
  | k + 1 =>
    let r := restore num den k
    let dg := bitsOf (2 * w) (uval den * 2 ^ w)
    let rg := bitsOf (2 * w) (uval r.1 * 2)
    if uval dg ≤ uval rg then (bitsOf (2 * w) (uval rg - uval dg), r.2 ||| BitVec.twoPow w (w - 1 - k))
    else (rg, r.2)

/-- The general case: quotient, and the upper half of the remainder register (43_divide.md R221). -/
def restoring {w : Nat} (num den : BitVec w) : BitVec w × BitVec w :=
  let r := restore num den w
  (r.2, r.1.extractLsb' w w)

/-- `udiv(N, D)` for `D ≠ 0`: the fast paths in their order, then the general case (43_divide.md R220 to R222). -/
def udiv {w : Nat} (num den : BitVec w) : BitVec w × BitVec w :=
  if uval num = 0 then (0#w, 0#w)
  else if num = den then (bitsOf w 1, 0#w)
  else if uval den = 1 then (num, 0#w)
  else restoring num den

/-- `|sval(v)|` as a pattern (43_divide.md R224). -/
def magnitude {w : Nat} (v : BitVec w) : BitVec w := if v.msb then bitsOf w (-uval v) else v

/-- `sdiv(N, D)` for `D ≠ 0`: quotient sign by XOR, remainder sign from the numerator (43_divide.md R224). -/
def sdiv {w : Nat} (num den : BitVec w) : BitVec w × BitVec w :=
  let r := udiv (magnitude num) (magnitude den)
  (if num.msb ^^ den.msb then bitsOf w (-uval r.1) else r.1, if num.msb then bitsOf w (-uval r.2) else r.2)

/-- The completion of a division: DIVISION_BY_ZERO, or quotient and remainder (40_command_cycle.md R134,
60_exceptions.md R282). -/
def divideBy {c : Instance} (f : Inflight c) (b : Block c)
    (div : BitVec c.W → BitVec c.W → BitVec c.W × BitVec c.W) : Block c :=
  if uval f.B = 0 then b.raise .divisionByZero
  else
    let r := div f.A (zext c.W f.B)
    b.succeedWithRemainder r.1 r.2 false

/-- DIVU (43_divide.md R223). -/
def execDivu (s : State) : Answer := s.complete <| sameWidth fun f b => divideBy f b udiv

/-- DIVS (43_divide.md R225). -/
def execDivs (s : State) : Answer := s.complete <| sameWidth fun f b => divideBy f b sdiv

end Sys2Proof.Machine
end

