-- ==== Sys2Proof/Machine/HostAccess.lean ====
section
/-! DEFINITION. The host's three transactions (spec/30_encoding.md R111, spec/20_memory.md R74, R75). -/

namespace Sys2Proof.Machine

/-- `rd REG[i]` (30_encoding.md R111): `MemRead({sel, idx}, 1)`. -/
def execRd (sel : Sel) (idx : BitVec 24) (s : State) : Answer := .next ((s.retire headerBytes).memRead sel idx)

/-- `wr REG[i], d` (30_encoding.md R111): `MemWrite({sel, idx}, 1, d)`. -/
def execWr (sel : Sel) (idx : BitVec 24) (data : BitVec 64) (s : State) : Answer :=
  .next (State.memWrite (s.retire (headerBytes + s.cfg.wordSize.bytes)) sel idx (data.setWidth s.cfg.WB))

/-- `poll` (30_encoding.md R113): with BUSY = 0 it reads STATUS word 0 and the host goes on. While BUSY = 1 the read
is repeated: nothing changes and the transaction still stands before the host. -/
def execPoll (s : State) : Answer :=
  if s.block.status.busy then .next s else .next ((s.retire headerBytes).memRead .status 0#24)

end Sys2Proof.Machine
end

