-- ==== Sys2Proof/Machine/Multiply.lean ====
section
/-! DEFINITION. Multiplication (spec/42_multiply.md): MUL by its product, SMUL, KMUL, BMUL and BMULI each by the
algorithm its rule gives. -/

namespace Sys2Proof.Machine

/-- The schoolbook accumulator after the bits of `b` below `i` have been scanned (42_multiply.md R192). -/
def schoolbook {w v : Nat} (a : BitVec w) (b : BitVec v) : Nat → BitVec (w + v)
  | 0 => 0#(w + v)
  | i + 1 =>
    let acc := schoolbook a b i
    if b.getLsbD i then bitsOf (w + v) (uval acc + uval (zext (w + v) a) * 2 ^ i) else acc

/-- `kmul(x, y, n)` (42_multiply.md R193). `h + 1 < n` wherever it recurs, so fuel `n` is never used up; without
fuel it multiplies natively, as the base case does. -/
def karatsuba (wb : Nat) : Nat → Nat → Nat → Nat → Nat
  | 0, x, y, _ => x * y
  | fuel + 1, x, y, n =>
    if n ≤ wb then x * y
    else
      let h := (n + 1) / 2
      let xl := x % 2 ^ h
      let xh := x / 2 ^ h
      let yl := y % 2 ^ h
      let yh := y / 2 ^ h
      let z0 := karatsuba wb fuel xl yl h
      let z2 := karatsuba wb fuel xh yh (n - h)
      let mid := karatsuba wb fuel (xl + xh) (yl + yh) (h + 1)
      let z1 := mid - z0 - z2
      z0 + z1 * 2 ^ h + z2 * 2 ^ (2 * h)

/-- What a Booth step adds to the running product: pattern "01" adds, "10" subtracts (42_multiply.md R194). -/
def boothStep {n : Nat} (m p : BitVec n) (i : Nat) (cur prev : Bool) : BitVec n :=
  match cur, prev with
  | false, true => bitsOf n (uval p + uval m * 2 ^ i)
  | true, false => bitsOf n (uval p - uval m * 2 ^ i)
  | false, false => p
  | true, true => p

/-- The running product and the previous bit after the multiplier's bits below `i` (42_multiply.md R194). -/
def boothScan {n v : Nat} (m : BitVec n) (b : BitVec v) : Nat → BitVec n × Bool
  | 0 => (0#n, false)
  | i + 1 =>
    let r := boothScan m b i
    (boothStep m r.1 i (b.getLsbD i) r.2, b.getLsbD i)

/-- The Booth product: one guard bit above `W + V`, dropped at the end (42_multiply.md R194). -/
def booth {w v : Nat} (a : BitVec w) (b : BitVec v) : BitVec (w + v) :=
  zext (w + v) (boothScan (sext (w + v + 1) a) b v).1

/-- MUL (42_multiply.md R191). -/
def execMul (s : State) : Answer :=
  s.complete <| sameWidth fun f b => b.succeed (bitsOf s.cfg.W (uval f.A * uval f.B)) false

/-- SMUL (42_multiply.md R192). -/
def execSmul (s : State) : Answer :=
  s.complete fun f b => b.succeed (schoolbook f.A f.B s.cfg.V) false

/-- KMUL (42_multiply.md R193). -/
def execKmul (s : State) : Answer :=
  s.complete <| sameWidth fun f b =>
    b.succeed (bitsOf (2 * s.cfg.W) (karatsuba s.cfg.WB s.cfg.W (uval f.A) (uval f.B) s.cfg.W)) false

/-- BMUL (42_multiply.md R194). -/
def execBmul (s : State) : Answer := s.complete fun f b => b.succeed (booth f.A f.B) false

/-- BMULI (42_multiply.md R195): exactly BMUL's pseudocode; the accumulator in place is not observable. -/
def execBmuli (s : State) : Answer := s.complete fun f b => b.succeed (booth f.A f.B) false

end Sys2Proof.Machine
end

