-- ==== Sys2Proof/Machine/Shift.lean ====
section
/-! DEFINITION. Shifts and rotates (spec/44_shift_rotate.md). -/

namespace Sys2Proof.Machine

/-- `shl(A, s)` (44_shift_rotate.md R250). -/
def shl {w : Nat} (a : BitVec w) (s : Nat) : BitVec w := if w ≤ s then 0#w else bitsOf w (uval a * 2 ^ s)

/-- `shr(A, s)` (44_shift_rotate.md R250). -/
def shr {w : Nat} (a : BitVec w) (s : Nat) : BitVec w := if w ≤ s then 0#w else bitsOf w (uval a / 2 ^ s)

/-- `sar(A, s)` (44_shift_rotate.md R250); integer division by a power of two rounds toward minus infinity. -/
def sar {w : Nat} (a : BitVec w) (s : Nat) : BitVec w :=
  if w ≤ s then (if a.getLsbD (w - 1) then BitVec.allOnes w else 0#w) else bitsOf w (sval a / 2 ^ s)

/-- ROL's result (44_shift_rotate.md R255). -/
def rotateLeft {w : Nat} (a : BitVec w) (s : Nat) : BitVec w :=
  let t := s % w
  if t = 0 then a else shl a t ||| shr a (w - t)

/-- ROR's result (44_shift_rotate.md R256). -/
def rotateRight {w : Nat} (a : BitVec w) (s : Nat) : BitVec w :=
  let t := s % w
  if t = 0 then a else shr a t ||| shl a (w - t)

/-- The ring `{CIN[0], A}` (44_shift_rotate.md R257), the carry above A's top bit. -/
def ring {w : Nat} (cin : BitVec 1) (a : BitVec w) : BitVec (w + 1) := bitsOf (w + 1) (uval cin * 2 ^ w + uval a)

/-- The ring rotated left (44_shift_rotate.md R257). -/
def ringLeft {w : Nat} (x : BitVec (w + 1)) (s : Nat) : BitVec (w + 1) :=
  let t := s % (w + 1)
  if t = 0 then x else BitVec.ofNat (w + 1) ((uval x * 2 ^ t) ||| (uval x / 2 ^ (w + 1 - t)))

/-- The ring rotated right (44_shift_rotate.md R258). -/
def ringRight {w : Nat} (x : BitVec (w + 1)) (s : Nat) : BitVec (w + 1) :=
  let t := s % (w + 1)
  if t = 0 then x else BitVec.ofNat (w + 1) ((uval x / 2 ^ t) ||| (uval x * 2 ^ (w + 1 - t)))

/-- SLL (44_shift_rotate.md R252). -/
def execSll (s : State) : Answer := s.complete fun f b => b.succeed (shl f.A (uval f.S)) false

/-- SRL (44_shift_rotate.md R253). -/
def execSrl (s : State) : Answer := s.complete fun f b => b.succeed (shr f.A (uval f.S)) false

/-- SRA (44_shift_rotate.md R254). -/
def execSra (s : State) : Answer := s.complete fun f b => b.succeed (sar f.A (uval f.S)) false

/-- ROL (44_shift_rotate.md R255). -/
def execRol (s : State) : Answer := s.complete fun f b => b.succeed (rotateLeft f.A (uval f.S)) false

/-- ROR (44_shift_rotate.md R256). -/
def execRor (s : State) : Answer := s.complete fun f b => b.succeed (rotateRight f.A (uval f.S)) false

/-- RCL (44_shift_rotate.md R257). -/
def execRcl (s : State) : Answer :=
  s.complete fun f b =>
    let y := ringLeft (ring f.CIN f.A) (uval f.S)
    b.succeed (zext s.cfg.W y) (extraBit s.cfg.W y)

/-- RCR (44_shift_rotate.md R258). -/
def execRcr (s : State) : Answer :=
  s.complete fun f b =>
    let y := ringRight (ring f.CIN f.A) (uval f.S)
    b.succeed (zext s.cfg.W y) (extraBit s.cfg.W y)

end Sys2Proof.Machine
end

