-- ==== Sys2Proof/Machine/Dispatch.lean ====
section
/-! DEFINITION. The meaning of each instruction: one arm per constructor. -/

namespace Sys2Proof.Machine

def exec (i : Instr) (s : State) : Host.Outcome State Fault Refusal :=
  match i with
  | .nop => Sys2Proof.Machine.execNop s
  | .clrerr => Sys2Proof.Machine.execClrerr s
  | .add => Sys2Proof.Machine.execAdd s
  | .sub => Sys2Proof.Machine.execSub s
  | .neg => Sys2Proof.Machine.execNeg s
  | .eaddu => Sys2Proof.Machine.execEaddu s
  | .eadds => Sys2Proof.Machine.execEadds s
  | .esubu => Sys2Proof.Machine.execEsubu s
  | .esubs => Sys2Proof.Machine.execEsubs s
  | .mul => Sys2Proof.Machine.execMul s
  | .smul => Sys2Proof.Machine.execSmul s
  | .kmul => Sys2Proof.Machine.execKmul s
  | .bmul => Sys2Proof.Machine.execBmul s
  | .bmuli => Sys2Proof.Machine.execBmuli s
  | .divu => Sys2Proof.Machine.execDivu s
  | .divs => Sys2Proof.Machine.execDivs s
  | .sll => Sys2Proof.Machine.execSll s
  | .srl => Sys2Proof.Machine.execSrl s
  | .sra => Sys2Proof.Machine.execSra s
  | .rol => Sys2Proof.Machine.execRol s
  | .ror => Sys2Proof.Machine.execRor s
  | .rcl => Sys2Proof.Machine.execRcl s
  | .rcr => Sys2Proof.Machine.execRcr s
  | .rd sel idx => Sys2Proof.Machine.execRd sel idx s
  | .wr sel idx data => Sys2Proof.Machine.execWr sel idx data s
  | .poll => Sys2Proof.Machine.execPoll s

end Sys2Proof.Machine
end

