-- ==== Sys2Proof/Machine/Turn.lean ====
section
/-! DEFINITION. Which agent moves next, and what it does: the host with the transaction its program has next, or the
block with the command in flight (spec/10_state.md R30, spec/20_memory.md R84). -/

namespace Sys2Proof.Machine

/-- What the next step is. -/
inductive Turn where
  /-- the reset input is asserted -/
  | reset
  /-- the block completes the command in flight, of this opcode -/
  | block (op : BitVec 8)
  /-- the host performs this transaction -/
  | host (i : Instr)
  /-- the program has run out and nothing is in flight: the run is over (40_command_cycle.md R139) -/
  | idle
  /-- the host's program is not a program -/
  | bad (pos : Nat) (why : Reject)
  deriving DecidableEq, Repr

/-- With a command in flight, the host moves while the command's latency has transactions left, unless its program
has run out or its next transaction waits for BUSY = 0 (30_encoding.md R113, 70_reset_and_hazards.md R325). -/
def turnInFlight (op : BitVec 8) (delay : Nat) (p : Program) : Turn :=
  match delay with
  | 0 => .block op
  | _ + 1 =>
    match p with
    | .bad pos why => .bad pos why
    | .ok [] => .block op
    | .ok (.poll :: _) => .block op
    | .ok (i :: _) => .host i

/-- With the block idle, the host moves if it has a transaction left. -/
def turnIdle (p : Program) : Turn :=
  match p with
  | .bad pos why => .bad pos why
  | .ok [] => .idle
  | .ok (i :: _) => .host i

/-- The next step of the machine. The whole of what is left of the program is decoded, so a program that is no
sequence of transactions is refused before it runs (93_implementation_defined.md I11). -/
def State.turn (s : State) : Turn :=
  if s.env.resetLine then .reset
  else
    let p := decodeProgram s.cfg.wordSize s.host.pos s.host.program
    match s.block.inflight with
    | some f => turnInFlight f.op s.env.delay p
    | none => turnIdle p

/-- A command byte placed in flight, as its acceptance leaves it, due now. -/
def State.withCommand (s : State) (op : BitVec 8) : State :=
  { s with block := s.started op, env := { s.env with delay := 0, resetLine := false } }

/-- A transaction placed before the host. A `poll` is performed only with the block idle; before any other
transaction a command in flight stays in flight. -/
def State.withTransaction (s : State) (bytes : List Byte) : State :=
  let waits : Bool :=
    match decode .bus s.cfg.wordSize bytes with
    | .ok .poll _ => true
    | _ => false
  { s with
    block :=
      if waits then { s.block with inflight := none, status := { s.block.status with busy := false } } else s.block
    host := { s.host with program := bytes }
    env := { s.env with delay := max 1 s.env.delay, resetLine := false } }

/-- The bytes of a transaction whose bits, header first, are `w`: a data word follows the header iff WR = 1. -/
def transactionBytes (ws : WordSize) (w : Nat) : List Byte :=
  if w.testBit 31 then toBytes (headerBytes + ws.bytes) w else toBytes headerBytes w

end Sys2Proof.Machine
end

