-- ==== Sys2Proof/Machine/Step.lean ====
section
/-! DEFINITION. One step of the machine, and how an instruction of spec/opcode_table.json is placed so that the next
step runs it. -/

namespace Sys2Proof.Machine

/-- One step (spec/10_state.md R30): the host's next transaction or the completion of the command in flight, whichever
is next; the reset where its input is asserted; nothing once the run is over. -/
def step (s : State) : Host.Outcome State Fault Refusal :=
  match s.turn with
  | .reset => .next s.applyReset
  | .block op =>
    match decodeOpcode op with
    | some i => exec i s
    | none => s.completeUnassigned
  | .host i => exec i s
  | .idle => .next s
  | .bad pos why => .refused (.badProgram pos why)

/-- The instruction of a row of spec/opcode_table.json placed where the next step runs it: a command byte in flight
and due, a transaction before the host (notes/assumptions/10.md). -/
def State.withFetchWord (s : State) (nbits w : Nat) : State :=
  if nbits ≤ 8 then s.withCommand (BitVec.ofNat 8 w) else s.withTransaction (transactionBytes s.cfg.wordSize w)

end Sys2Proof.Machine
end

