-- ==== Sys2Proof/Machine/HostProgram.lean ====
section
/-! DEFINITION. The pseudo-instructions of the assembler (spec/30_encoding.md R112 to R115), each as the transactions
it expands to, and the placing of a host program. -/

namespace Sys2Proof.Machine

/-- `cmd MNEMONIC` (30_encoding.md R112). -/
def asmCmd (i : Instr) : List Instr := [.wr .cmd 0#24 ((opcode i).setWidth 64)]

/-- `wait` (30_encoding.md R113). -/
def asmWait : List Instr := [.poll]

/-- `run MNEMONIC` (30_encoding.md R115). -/
def asmRun (i : Instr) : List Instr := asmCmd i ++ asmWait

/-- The width in bits of the register of a select (10_state.md R31); 0 for a reserved select. -/
def selWidth (c : Instance) : Sel → Nat
  | .a => c.W
  | .b => c.V
  | .s => c.SW
  | .cin => 1
  | .r0 => c.W + c.V
  | .r1 => c.W
  | .status => 32
  | .cmd => 8
  | .reserved _ => 0

/-- The writes of `ld REG, x` from word `j` on, `k` of them, in index order (30_encoding.md R114). -/
def asmLdFrom (c : Instance) (sel : Sel) (x : Int) : Nat → Nat → List Instr
  | _, 0 => []
  | j, k + 1 =>
    .wr sel (BitVec.ofNat 24 j) ((wordOf c.WB (bitsOf (selWidth c sel) x) j).setWidth 64) ::
      asmLdFrom c sel x (j + 1) k

/-- `ld REG, x` (30_encoding.md R114): every word of the register, in index order. -/
def asmLd (c : Instance) (sel : Sel) (x : Int) : List Instr := asmLdFrom c sel x 0 (selWords c sel)

/-- The reads of `rdv REG` from word `j` on, `k` of them (30_encoding.md R114). -/
def asmRdvFrom (sel : Sel) : Nat → Nat → List Instr
  | _, 0 => []
  | j, k + 1 => .rd sel (BitVec.ofNat 24 j) :: asmRdvFrom sel (j + 1) k

/-- `rdv REG` (30_encoding.md R114). -/
def asmRdv (c : Instance) (sel : Sel) : List Instr := asmRdvFrom sel 0 (selWords c sel)

/-- The value `rdv` names, of the words its reads returned: `Σ_j d_j·2^(j·WB)` (30_encoding.md R114). -/
def rdvValue {wb : Nat} : List (BitVec wb) → Nat
  | [] => 0
  | d :: ds => uval d + 2 ^ wb * rdvValue ds

/-- A host with a program before it: how a program comes to run (notes/assumptions/10.md). -/
def State.withProgram (s : State) (is : List Instr) : State :=
  { s with host := { s.host with program := encodeProgram s.cfg.wordSize is } }

end Sys2Proof.Machine
end

