-- ==== Sys2Proof/Machine/WordLevel.lean ====
section
/-! DEFINITION. How the block computes across word boundaries: the carry-propagating adder of spec/41_add_sub.md R160
and the barrel shifter of spec/44_shift_rotate.md R251. The commands are defined by the closed forms, as the spec says;
these are the same functions word by word. -/

namespace Sys2Proof.Machine

/-- The words below `j` of the sum, as a number, and the carry into word `j`: the loop of 41_add_sub.md R160 before
its last word. -/
def adderWords {n : Nat} (wb : Nat) (x y : BitVec n) (c0 : Nat) : Nat → Nat × Nat
  | 0 => (0, c0)
  | j + 1 =>
    let r := adderWords wb x y c0 j
    let t := uval (wordOf wb x j) + uval (wordOf wb y j) + r.2
    (r.1 + t % 2 ^ wb * 2 ^ (j * wb), t / 2 ^ wb)

/-- The adder (41_add_sub.md R160): the sum and `cout`; the last word is `top` bits wide. -/
def adder {n : Nat} (wb : Nat) (x y : BitVec n) (c0 : Nat) : BitVec n × Nat :=
  let last := nw wb n - 1
  let top := n - last * wb
  let r := adderWords wb x y c0 last
  let t := uval (wordOf wb x last) + uval (wordOf wb y last) + r.2
  (BitVec.ofNat n (r.1 + t % 2 ^ top * 2 ^ (last * wb)), t / 2 ^ top)

/-- A value from its words below `k`. -/
def fromWords {wb : Nat} (n : Nat) (word : Nat → BitVec wb) : Nat → BitVec n
  | 0 => 0#n
  | j + 1 => fromWords n word j ||| ((word j).setWidth n <<< (j * wb))

/-- Word `j` of the left shift (44_shift_rotate.md R251). -/
def barrelLeftWord {w : Nat} (wb : Nat) (a : BitVec w) (s j : Nat) : BitVec wb :=
  let q := s / wb
  let r := s % wb
  let lo := if q ≤ j then wordOf wb a (j - q) else 0#wb
  let lo2 := if q + 1 ≤ j then wordOf wb a (j - q - 1) else 0#wb
  let low := BitVec.ofNat wb (uval lo * 2 ^ r)
  (if r ≠ 0 then low ||| BitVec.ofNat wb (uval lo2 / 2 ^ (wb - r)) else low) &&& wordMask wb w j

/-- The left shift, word by word (44_shift_rotate.md R251). -/
def barrelLeft {w : Nat} (wb : Nat) (a : BitVec w) (s : Nat) : BitVec w :=
  fromWords w (barrelLeftWord wb a s) (nw wb w)

/-- What a right shift brings in from above: all ones for an arithmetic shift of a negative value. -/
def barrelFill {w : Nat} (wb : Nat) (arith : Bool) (a : BitVec w) : BitVec wb :=
  if arith && a.getLsbD (w - 1) then BitVec.allOnes wb else 0#wb

/-- Word `j` of the operand of a right shift, the top word's masked-off bits filled with the sign and every word above
it the fill (44_shift_rotate.md R251). -/
def barrelExt {w : Nat} (wb : Nat) (arith : Bool) (a : BitVec w) (j : Nat) : BitVec wb :=
  let fill := barrelFill wb arith a
  if j < nw wb w then
    if j = nw wb w - 1 then wordOf wb a j ||| (fill &&& ~~~ wordMask wb w j) else wordOf wb a j
  else fill

/-- Word `j` of the right shift (44_shift_rotate.md R251). -/
def barrelRightWord {w : Nat} (wb : Nat) (arith : Bool) (a : BitVec w) (s j : Nat) : BitVec wb :=
  let q := s / wb
  let r := s % wb
  let low := BitVec.ofNat wb (uval (barrelExt wb arith a (j + q)) / 2 ^ r)
  (if r ≠ 0 then low ||| BitVec.ofNat wb (uval (barrelExt wb arith a (j + q + 1)) * 2 ^ (wb - r)) else low) &&&
    wordMask wb w j

/-- The right shift, word by word, arithmetic or logical (44_shift_rotate.md R251). -/
def barrelRight {w : Nat} (wb : Nat) (arith : Bool) (a : BitVec w) (s : Nat) : BitVec w :=
  fromWords w (barrelRightWord wb arith a s) (nw wb w)

end Sys2Proof.Machine
end

