-- ==== Sys2Proof/Safety.lean ====
section
/-! DEFINITION. The terms in which claims about the machine are stated: the state a completion leaves, written from the
spec's closed forms and not from the meanings, the invariant of the machine, and what a finished run is. -/

namespace Sys2Proof.Machine

/-- `uval(bits_n(x))`: the residue of an integer modulo `2^n` (spec/00_scope.md R11). -/
def residue (n : Nat) (x : Int) : Nat := (x % (2 : Int) ^ n).toNat

/-- A register that holds the number `x`, every word written. -/
def Reg.holding (wb n x : Nat) : Reg wb n := { val := BitVec.ofNat n x, written := BitVec.allOnes (nw wb n) }

/-- The block after the successful completion of a flag-writing command whose primary result, `rw` bits wide, is the
number `x`: R0, the flags, BUSY, DONE, ERR and the record in flight; nothing else changes (40_command_cycle.md R134,
R136). -/
def Block.afterResult {c : Instance} (b : Block c) (rw x : Nat) (carry : Bool) : Block c :=
  { b with
    R0 := Reg.holding c.WB (c.W + c.V) x
    status :=
      { b.status with
        busy := false, done := true, err := .none, c := carry, z := decide (x = 0)
        n := decide (2 ^ (rw - 1) ≤ x) }
    inflight := none }

/-- The block after a successful division with quotient `q` and remainder `r` (40_command_cycle.md R134). -/
def Block.afterDivision {c : Instance} (b : Block c) (q r : Nat) : Block c :=
  { b.afterResult c.W q false with R1 := Reg.holding c.WB c.W r }

/-- The block after a command that failed with `e`: ERR, BUSY, DONE and the record in flight, nothing else
(40_command_cycle.md R135). -/
def Block.afterError {c : Instance} (b : Block c) (e : ErrCode) : Block c :=
  { b with status := { b.status with busy := false, done := true, err := e }, inflight := none }

/-- The state with another block. -/
def State.withBlock (s : State) (b : Block s.cfg) : State := { s with block := b }

/-- The commands of the opcode map that are legal only where `W = V` (30_encoding.md R105, R107). -/
def sameWidthCommands : List Instr := [.add, .sub, .mul, .kmul, .divu, .divs]

/-- The flag-writing set of 10_state.md R39. -/
def flagWriters : List Instr :=
  [.add, .sub, .neg, .eaddu, .eadds, .esubu, .esubs] ++ [.mul, .smul, .kmul, .bmul, .bmuli] ++ [.divu, .divs] ++
    [.sll, .srl, .sra, .rol, .ror, .rcl, .rcr]

/-- What the host reads of word `j` of a register while the block is idle and the word has been written, or of STATUS
(20_memory.md R74): the memory of this machine is its register interface. -/
def Block.wordAt {c : Instance} (b : Block c) (sel : Sel) (j : Nat) : BitVec c.WB :=
  match sel with
  | .a => b.A.word j
  | .b => b.B.word j
  | .s => b.S.word j
  | .cin => b.CIN.word j
  | .r0 => b.R0.word j
  | .r1 => b.R1.word j
  | .status => wordOf c.WB b.status.bits j
  | .cmd | .reserved _ => 0#c.WB

/-- The `written` bit of word `j` of a register (10_state.md R44); STATUS is never unwritten. -/
def Block.writtenAt {c : Instance} (b : Block c) (sel : Sel) (j : Nat) : Bool :=
  match sel with
  | .a => b.A.isWritten j
  | .b => b.B.isWritten j
  | .s => b.S.isWritten j
  | .cin => b.CIN.isWritten j
  | .r0 => b.R0.isWritten j
  | .r1 => b.R1.isWritten j
  | .status | .cmd | .reserved _ => true

/-- What every run keeps (10_state.md R36, R37, R39, R43, R44; 40_command_cycle.md R130, R136, R137): a command is in
flight exactly while BUSY = 1; DONE and BUSY are never both 1; an error code stands only beside DONE; the result
registers are written whole or not at all, R1 only after R0; the flags are 0 until R0 has been written, and Z and N are
never both 1; with BUSY = DONE = 0 no command has been accepted since reset. -/
structure Block.Inv {c : Instance} (b : Block c) : Prop where
  busy_iff : b.status.busy = b.inflight.isSome
  not_both : b.status.busy = true → b.status.done = false
  err_done : b.status.err ≠ .none → b.status.done = true
  r0_whole : b.R0.written = 0#_ ∨ b.R0.written = BitVec.allOnes _
  r1_whole : b.R1.written = 0#_ ∨ b.R1.written = BitVec.allOnes _
  r1_after_r0 : b.R1.written ≠ 0#_ → b.R0.written ≠ 0#_
  flags_zero : b.R0.written = 0#_ → b.status.c = false ∧ b.status.z = false ∧ b.status.n = false
  zero_not_negative : b.status.z = true → b.status.n = false
  fresh : b.status.busy = false → b.status.done = false → b.R0.written = 0#_

/-- The invariant of the machine. -/
def State.Inv (s : State) : Prop := s.block.Inv

/-- Every transaction has taken effect and nothing is in flight (40_command_cycle.md R139). -/
def State.over (s : State) : Bool := s.host.program.isEmpty && s.block.inflight.isNone

/-- A finished run is one that is over and met no model fault (40_command_cycle.md R139, 60_exceptions.md R298). -/
def State.finished (s : State) : Bool := s.over && s.env.modelFaults.isEmpty

/-- A run that was not refused and met no model fault (60_exceptions.md R298). -/
def Safe (o : Answer) : Prop := ∃ t, o = .next t ∧ t.env.modelFaults = []

/-- A host program in which every command issued is waited for at once: the transaction after a write to CMD is a
`poll` (30_encoding.md R115; 70_reset_and_hazards.md R323). -/
def waitsAtOnce : List Instr → Bool
  | [] => true
  | .wr .cmd _ _ :: .poll :: is => waitsAtOnce is
  | .wr .cmd _ _ :: _ => false
  | _ :: is => waitsAtOnce is

/-- A command placed in flight with the given snapshot, nothing else changed. -/
def State.withInflight (s : State) (f : Inflight s.cfg) : State :=
  { s with block := { s.block with inflight := some f } }

/-- The number in R0 after an answer that is a next state. -/
def r0Of : Answer → Nat
  | .next t => t.block.R0.val.toNat
  | .fault _ => 0
  | .refused _ => 0

/-- The number in R1 after an answer that is a next state. -/
def r1Of : Answer → Nat
  | .next t => t.block.R1.val.toNat
  | .fault _ => 0
  | .refused _ => 0

/-- STATUS.C after an answer that is a next state. -/
def carryOf : Answer → Bool
  | .next t => t.block.status.c
  | .fault _ => false
  | .refused _ => false

/-- The two's-complement reading of a number below `2^n` (spec/00_scope.md R11). -/
def signedOf (n x : Nat) : Int := if x < 2 ^ (n - 1) then x else (x : Int) - 2 ^ n

/-- STATUS as a number, from its fields (10_state.md R38). -/
def Status.number (t : Status) : Nat :=
  t.busy.toNat + 2 * t.done.toNat + 4 * t.c.toNat + 8 * t.z.toNat + 16 * t.n.toNat +
    256 * (match t.err with | .none => 0 | .divisionByZero => 1 | .illegalOpcode => 2) +
    2 ^ 16 * t.oor.toNat + 2 ^ 17 * t.acc.toNat + 2 ^ 18 * t.bsy.toNat

/-- The transactions of a list performed in order, the command in flight not completing between them. -/
def performAll : List Instr → State → Answer
  | [], s => .next s
  | i :: is, s =>
    match exec i s with
    | .next t => performAll is t
    | .fault f => .fault f
    | .refused r => .refused r

/-- The registers a host writes as a whole with `ld` (30_encoding.md R114). -/
def operandRegisters : List Sel := [.a, .b, .s, .cin]

/-- The registers that hold a data value (10_state.md R31, R44). -/
def dataRegisters : List Sel := operandRegisters ++ [.r0, .r1]

/-- The block with every word of one operand register written, its value the pattern of `x`. -/
def Block.loaded {c : Instance} (b : Block c) (sel : Sel) (x : Int) : Block c :=
  match sel with
  | .a => { b with A := Reg.holding c.WB c.W (residue c.W x) }
  | .b => { b with B := Reg.holding c.WB c.V (residue c.V x) }
  | .s => { b with S := Reg.holding c.WB c.SW (residue c.SW x) }
  | .cin => { b with CIN := Reg.holding c.WB 1 (residue 1 x) }
  | .r0 | .r1 | .status | .cmd | .reserved _ => b

/-- The number a data register holds. -/
def Block.number {c : Instance} (b : Block c) (sel : Sel) : Nat :=
  match sel with
  | .a => b.A.val.toNat
  | .b => b.B.val.toNat
  | .s => b.S.val.toNat
  | .cin => b.CIN.val.toNat
  | .r0 => b.R0.val.toNat
  | .r1 => b.R1.val.toNat
  | .status => b.status.number
  | .cmd | .reserved _ => 0

/-- The command in flight completes at the next step: its latency has run out, or the host has no transaction it can
perform before the completion (40_command_cycle.md R138, 30_encoding.md R113). -/
def State.commandDue (s : State) : Prop :=
  s.env.delay = 0 ∨ decodeProgram s.cfg.wordSize s.host.pos s.host.program = .ok [] ∨
    ∃ is, decodeProgram s.cfg.wordSize s.host.pos s.host.program = .ok (.poll :: is)

/-- Two answers that agree but for what the environment chose of latencies. -/
def SameButLatency : Answer → Answer → Prop
  | .next s, .next t => ∃ d ls, t = { s with env := { s.env with delay := d, latencies := ls } }
  | .fault f, .fault g => f = g
  | .refused r, .refused q => r = q
  | _, _ => False

end Sys2Proof.Machine
end

