-- ==== Sys2Proof/Certificates/Slice0/Obligations.lean ====
section
/-! DEFINITION. The statements for the provers. Every statement about a command holds for every instance of the
block, every state and every snapshot; `s.block.inflight = some f` says that the command is in flight with the snapshot
`f`, the one condition under which the block steps (spec/40_command_cycle.md R134). -/

open Sys2Proof Sys2Proof.Machine

/-! ## Encoding -/

/-- Words written out from 30_encoding.md R105, R111 and R112 decode to what they stand for. That a header's least
significant byte comes first is the model's choice (notes/assumptions/2.md). -/
def Obligations.SampleWordsDecode : Prop :=
  decode .cmd8 .w8 [0x01#8] = .ok .clrerr [] ∧ decode .cmd8 .w8 [0x10#8] = .ok .add [] ∧
  decode .cmd8 .w8 [0x23#8] = .ok .bmul [] ∧ decode .cmd8 .w8 [0x31#8] = .ok .divs [] ∧
  decode .cmd8 .w8 [0x47#8] = .ok .rcr [] ∧ decode .cmd8 .w8 [0x13#8] = .reject .unassignedOpcode ∧
  decode .bus .w8 [0x00#8, 0x00#8, 0x00#8, 0x87#8, 0x10#8] = .ok (.wr .cmd 0#24 0x10#64) [] ∧
  decode .bus .w16 [0x02#8, 0x00#8, 0x00#8, 0x04#8] = .ok (.rd .r0 2#24) [] ∧
  decode .bus .w8 [0x00#8, 0x00#8, 0x00#8, 0x46#8] = .ok .poll []

/-- The opcodes outside the map are the 233 of 30_encoding.md R106. -/
def Obligations.UnassignedOpcodes : Prop :=
  (∀ op : BitVec 8, decodeOpcode op = none ↔
    (0x02#8 ≤ op ∧ op ≤ 0x0F#8) ∨ op = 0x13#8 ∨ (0x18#8 ≤ op ∧ op ≤ 0x1F#8) ∨ (0x25#8 ≤ op ∧ op ≤ 0x2F#8) ∨
    (0x32#8 ≤ op ∧ op ≤ 0x3F#8) ∨ op = 0x43#8 ∨ (0x48#8 ≤ op ∧ op ≤ 0xFF#8)) ∧
  ((List.range 256).filter fun op => (decodeOpcode (BitVec.ofNat 8 op)).isNone).length = 233

/-- Which headers encode no transaction (30_encoding.md R108): exactly those with a reserved bit set, and those with
P = 1 that are not the poll of STATUS word 0. -/
def Obligations.RefusedHeaders : Prop :=
  ∀ (ws : WordSize) (h : BitVec 32) (rest : List Byte),
    (∃ why, decodeHeader ws h rest = .reject why ∧ why ≠ .truncated) ↔
      h.toNat / 2 ^ 28 % 4 ≠ 0 ∨
        (h.toNat.testBit 30 = true ∧
          (h.toNat.testBit 31 = true ∨ h.toNat / 2 ^ 24 % 16 ≠ 6 ∨ h.toNat % 2 ^ 24 ≠ 0))

/-- The header values of the assembler (30_encoding.md R111) and the select numbers of 10_state.md R31. -/
def Obligations.AssemblerHeaders : Prop :=
  (∀ (sel : Sel) (idx : BitVec 24),
    (header false false sel idx).toNat = sel.code.toNat * 2 ^ 24 + idx.toNat ∧
    (header true false sel idx).toNat = 2 ^ 31 + sel.code.toNat * 2 ^ 24 + idx.toNat) ∧
  header false true .status 0#24 = 0x46000000#32 ∧
  [Sel.a, .b, .s, .cin, .r0, .r1, .status, .cmd].map (fun sel => sel.code.toNat) = List.range 8 ∧
  ∀ k : BitVec 3, (Sel.reserved k).code.toNat = 8 + k.toNat

/-- Decode and encode agree on every well-formed instruction, whatever bytes follow. -/
def Obligations.DecodeOfEncode : Prop :=
  ∀ (ws : WordSize) (i : Instr) (rest : List Byte), i.wellFormed ws = true →
    decode i.form ws (encode ws i ++ rest) = .ok i rest

/-- Each encoding has one meaning: what decodes is the encoding of the instruction it decodes to. -/
def Obligations.EncodeOfDecode : Prop :=
  ∀ (form : Form) (ws : WordSize) (bytes : List Byte) (i : Instr) (rest : List Byte),
    decode form ws bytes = .ok i rest →
      i.form = form ∧ i.wellFormed ws = true ∧ encode ws i ++ rest = bytes

/-- A whole host program decodes to its transactions, whatever the number of its first. -/
def Obligations.ProgramDecodeOfEncode : Prop :=
  ∀ (ws : WordSize) (pos : Nat) (is : List Instr), programWellFormed ws is = true →
    decodeProgram ws pos (encodeProgram ws is) = .ok is

/-- A program whose transactions end in bytes that encode none is refused with the number of the transaction that
fails (30_encoding.md R108). That a position is a transaction's number, and that missing bytes are refused like a bad
header, is the model's choice (notes/assumptions/12.md). -/
def Obligations.BadProgramNamesPosition : Prop :=
  ∀ (ws : WordSize) (pos : Nat) (is : List Instr) (bad : List Byte) (why : Reject),
    programWellFormed ws is = true → bad ≠ [] → decode .bus ws bad = .reject why →
      decodeProgram ws pos (encodeProgram ws is ++ bad) = .bad (pos + is.length) why

/-! ## The step -/

/-- The host's turn: when its program decodes to `i` first, `step` is `exec` of `i`, which answers a next state; and
`exec` moves the host past the bytes of `i`, but for a `poll` that waits. 20_memory.md R84 leaves open when the block
moves; that with a command in flight it is the host's turn while the latency has transactions left and `i` is no `poll`
is the model's choice (notes/assumptions/6.md, 11.md and 18.md). -/
def Obligations.StepPerformsTransaction : Prop :=
  ∀ (s : State) (i : Instr) (rest : List Byte) (is : List Instr),
    s.env.resetLine = false → decode .bus s.cfg.wordSize s.host.program = .ok i rest →
    decodeProgram s.cfg.wordSize (s.host.pos + 1) rest = .ok is →
    (s.block.inflight = none ∨ (0 < s.env.delay ∧ i ≠ .poll)) →
      step s = exec i s ∧ (∃ t, exec i s = .next t) ∧
      ∀ t, exec i s = .next t → (i = .poll → s.block.status.busy = false) →
        t.host.program = rest ∧ t.host.pos = s.host.pos + 1

/-- The block's turn: with a command in flight and due, `step` is `exec` of the command its opcode decodes to. When a
command is due is the model's choice (notes/assumptions/6.md and 11.md). The block's step is enabled exactly when a
command is in flight (40_command_cycle.md R134); that a command's meaning is the fault `nothingInFlight` where it is not
is the model's choice (notes/assumptions/13.md). -/
def Obligations.StepCompletesCommand : Prop :=
  (∀ (s : State) (f : Inflight s.cfg) (i : Instr),
    s.env.resetLine = false → s.block.inflight = some f → s.commandDue → decodeOpcode f.op = some i →
      step s = exec i s) ∧
  ∀ (s : State) (i : Instr), i.form = .cmd8 → s.block.inflight = none → exec i s = .fault .nothingInFlight

/-- An unassigned opcode in flight completes with ILLEGAL_OPCODE (30_encoding.md R106, 60_exceptions.md R283). -/
def Obligations.UnassignedOpcodeCompletes : Prop :=
  ∀ (s : State) (f : Inflight s.cfg),
    s.env.resetLine = false → s.block.inflight = some f → s.commandDue → decodeOpcode f.op = none →
      step s = .next (s.withBlock (s.block.afterError .illegalOpcode))

/-- The reset input (70_reset_and_hazards.md R310): every piece of the block's state goes to its value of 10_state.md
R48, also with a command in flight; no host transaction takes effect. The state after power-on has the same values, in
every instance. That the same step releases the input, and that the host keeps its program, its position and its reads,
is the model's choice (notes/assumptions/9.md). -/
def Obligations.ResetValues : Prop :=
  (∀ s : State, s.env.resetLine = true →
    ∃ (b : Block s.cfg) (e : Env), step s = .next { s with block := b, env := e } ∧
      e.resetLine = false ∧ b.inflight = none ∧ b.status.number = 0 ∧
      ∀ sel ∈ dataRegisters, ∀ j, b.writtenAt sel j = false) ∧
  ∀ c : Instance, (State.resetOf c).cfg = c ∧ (State.resetOf c).block.status.number = 0 ∧
    (State.resetOf c).block.inflight = none ∧
    ∀ sel ∈ dataRegisters, ∀ j, (State.resetOf c).block.writtenAt sel j = false

/-- A program that is not a sequence of transactions is refused at the first step (60_exceptions.md R298 (b)). With no
program left and nothing in flight (40_command_cycle.md R139) nothing happens: a step leaves the state as it is, the
model's choice (notes/assumptions/11.md). -/
def Obligations.BadProgramRefusedAndFinishedRunRests : Prop :=
  (∀ (s : State) (pos : Nat) (why : Reject), s.env.resetLine = false → s.block.inflight = none →
    decodeProgram s.cfg.wordSize s.host.pos s.host.program = .bad pos why →
      step s = .refused (.badProgram pos why)) ∧
  ∀ s : State, s.env.resetLine = false → s.over = true → step s = .next s

/-! ## Control commands -/

/-- NOP and CLRERR (40_command_cycle.md R140, R141): the common part of a completion, and for CLRERR the three sticky
bits; R0, R1, C, Z and N keep their values. -/
def Obligations.ControlCommandResults : Prop :=
  decodeOpcode 0x00#8 = some .nop ∧ decodeOpcode 0x01#8 = some .clrerr ∧
  ∀ (s : State) (f : Inflight s.cfg), s.block.inflight = some f →
    exec .nop s = .next (s.withBlock (s.block.afterError .none)) ∧
    exec .clrerr s = .next (s.withBlock
      { s.block with
        status := { s.block.status with
          busy := false, done := true, err := .none, oor := false, acc := false, bsy := false }
        inflight := none })

/-! ## Addition and subtraction -/

/-- ADD (41_add_sub.md R161). -/
def Obligations.AddResult : Prop :=
  decodeOpcode 0x10#8 = some .add ∧
  ∀ (s : State) (f : Inflight s.cfg), s.block.inflight = some f →
    (s.cfg.W = s.cfg.V → exec .add s = .next (s.withBlock (s.block.afterResult s.cfg.W
      ((f.A.toNat + f.B.toNat) % 2 ^ s.cfg.W) (decide (2 ^ s.cfg.W ≤ f.A.toNat + f.B.toNat))))) ∧
    (s.cfg.W ≠ s.cfg.V → exec .add s = .next (s.withBlock (s.block.afterError .illegalOpcode)))

/-- SUB (41_add_sub.md R162). -/
def Obligations.SubResult : Prop :=
  decodeOpcode 0x11#8 = some .sub ∧
  ∀ (s : State) (f : Inflight s.cfg), s.block.inflight = some f →
    (s.cfg.W = s.cfg.V → exec .sub s = .next (s.withBlock (s.block.afterResult s.cfg.W
      (residue s.cfg.W (f.A.toNat - f.B.toNat)) false))) ∧
    (s.cfg.W ≠ s.cfg.V → exec .sub s = .next (s.withBlock (s.block.afterError .illegalOpcode)))

/-- NEG (41_add_sub.md R163). -/
def Obligations.NegResult : Prop :=
  decodeOpcode 0x12#8 = some .neg ∧
  ∀ (s : State) (f : Inflight s.cfg), s.block.inflight = some f →
    exec .neg s = .next (s.withBlock (s.block.afterResult s.cfg.W (residue s.cfg.W (-(f.A.toNat : Int))) false))

/-- EADD.U and EADD.S (41_add_sub.md R164, R165): the exact sum at `M + 1` bits, and C its top bit. -/
def Obligations.EaddResults : Prop :=
  decodeOpcode 0x14#8 = some .eaddu ∧ decodeOpcode 0x15#8 = some .eadds ∧
  ∀ (s : State) (f : Inflight s.cfg), s.block.inflight = some f →
    exec .eaddu s = .next (s.withBlock (s.block.afterResult (s.cfg.M + 1)
      (f.A.toNat + f.B.toNat + f.CIN.toNat) (decide (2 ^ s.cfg.M ≤ f.A.toNat + f.B.toNat + f.CIN.toNat)))) ∧
    exec .eadds s = .next (s.withBlock (s.block.afterResult (s.cfg.M + 1)
      (residue (s.cfg.M + 1) (f.A.toInt + f.B.toInt + f.CIN.toNat))
      (decide (f.A.toInt + f.B.toInt + f.CIN.toNat < 0))))

/-- ESUB.U and ESUB.S (41_add_sub.md R166, R167): the difference modulo `2^M`. -/
def Obligations.EsubResults : Prop :=
  decodeOpcode 0x16#8 = some .esubu ∧ decodeOpcode 0x17#8 = some .esubs ∧
  ∀ (s : State) (f : Inflight s.cfg), s.block.inflight = some f →
    exec .esubu s = .next (s.withBlock (s.block.afterResult s.cfg.M
      (residue s.cfg.M (f.A.toNat - f.B.toNat)) false)) ∧
    exec .esubs s = .next (s.withBlock (s.block.afterResult s.cfg.M
      (residue s.cfg.M (f.A.toInt - f.B.toInt)) false))

/-- The carry-propagating adder, word by word, is addition (41_add_sub.md R160). -/
def Obligations.AdderIsAddition : Prop :=
  ∀ (ws : WordSize) (n : Nat) (x y : BitVec n) (c0 : Nat), 1 ≤ n → c0 ≤ 1 →
    (adder ws.bits x y c0).1.toNat = (x.toNat + y.toNat + c0) % 2 ^ n ∧
    (adder ws.bits x y c0).2 = (x.toNat + y.toNat + c0) / 2 ^ n

/-! ## Multiplication -/

/-- MUL (42_multiply.md R191). -/
def Obligations.MulResult : Prop :=
  decodeOpcode 0x20#8 = some .mul ∧
  ∀ (s : State) (f : Inflight s.cfg), s.block.inflight = some f →
    (s.cfg.W = s.cfg.V → exec .mul s = .next (s.withBlock (s.block.afterResult s.cfg.W
      (f.A.toNat * f.B.toNat % 2 ^ s.cfg.W) false))) ∧
    (s.cfg.W ≠ s.cfg.V → exec .mul s = .next (s.withBlock (s.block.afterError .illegalOpcode)))

/-- SMUL (42_multiply.md R192): the schoolbook loop leaves the exact unsigned product. -/
def Obligations.SmulResult : Prop :=
  decodeOpcode 0x21#8 = some .smul ∧
  ∀ (s : State) (f : Inflight s.cfg), s.block.inflight = some f →
    exec .smul s = .next (s.withBlock (s.block.afterResult (s.cfg.W + s.cfg.V) (f.A.toNat * f.B.toNat) false))

/-- KMUL (42_multiply.md R193): the Karatsuba recursion leaves the exact unsigned product, whatever the word size. -/
def Obligations.KmulResult : Prop :=
  decodeOpcode 0x22#8 = some .kmul ∧
  ∀ (s : State) (f : Inflight s.cfg), s.block.inflight = some f →
    (s.cfg.W = s.cfg.V → exec .kmul s = .next (s.withBlock (s.block.afterResult (2 * s.cfg.W)
      (f.A.toNat * f.B.toNat) false))) ∧
    (s.cfg.W ≠ s.cfg.V → exec .kmul s = .next (s.withBlock (s.block.afterError .illegalOpcode)))

/-- BMUL and BMULI (42_multiply.md R194, R195): the Booth scan leaves the exact signed product. -/
def Obligations.BoothResult : Prop :=
  decodeOpcode 0x23#8 = some .bmul ∧ decodeOpcode 0x24#8 = some .bmuli ∧
  ∀ (s : State) (f : Inflight s.cfg), s.block.inflight = some f →
    ∀ i ∈ [Instr.bmul, .bmuli],
      exec i s = .next (s.withBlock (s.block.afterResult (s.cfg.W + s.cfg.V)
        (residue (s.cfg.W + s.cfg.V) (f.A.toInt * f.B.toInt)) false))

/-- The agreement of the multiplication strategies (42_multiply.md R190), (a) to (d). -/
def Obligations.StrategyAgreement : Prop :=
  ∀ (s : State) (f : Inflight s.cfg), s.block.inflight = some f →
    (s.cfg.W = s.cfg.V →
      (∀ i ∈ [Instr.smul, .kmul, .bmul, .bmuli], r0Of (exec i s) % 2 ^ s.cfg.W = r0Of (exec .mul s)) ∧
      r0Of (exec .smul s) = r0Of (exec .kmul s)) ∧
    r0Of (exec .bmul s) = r0Of (exec .bmuli s) ∧
    (f.A.msb = false → f.B.msb = false → r0Of (exec .smul s) = r0Of (exec .bmul s))

/-- The laws of 41_add_sub.md R168 and 42_multiply.md R196. `u` with the snapshot `g` is a machine whose two operand
widths are those of `s` swapped, the operands with them; `h` is the snapshot of a second command of `s` that takes up
what a first one left. The law `BMUL(A, 1) = sext(A)` is read with `sval(B) = 1`, since a one-bit B holding 1 is −1: the model's reading,
narrower than the words of R196 where `V = 1` (notes/assumptions/19.md). -/
def Obligations.ArithmeticLaws : Prop :=
  (∀ (s u : State) (f : Inflight s.cfg) (g : Inflight u.cfg), u.cfg.W = s.cfg.V → u.cfg.V = s.cfg.W →
    g.A.toNat = f.B.toNat → g.B.toNat = f.A.toNat → g.CIN = f.CIN →
      (∀ i ∈ [Instr.eaddu, .eadds, .smul, .bmul, .bmuli],
        r0Of (exec i (u.withInflight g)) = r0Of (exec i (s.withInflight f))) ∧
      (s.cfg.W = s.cfg.V → ∀ i ∈ [Instr.add, .mul, .kmul],
        r0Of (exec i (u.withInflight g)) = r0Of (exec i (s.withInflight f)))) ∧
  ∀ (s : State) (f g h : Inflight s.cfg),
    (s.cfg.W = s.cfg.V →
      (f.B.toNat = 0 → (∀ i ∈ [Instr.add, .sub], r0Of (exec i (s.withInflight f)) = f.A.toNat) ∧
        r0Of (exec .mul (s.withInflight f)) = 0) ∧
      (f.B.toNat = 1 → r0Of (exec .mul (s.withInflight f)) = f.A.toNat ∧
        (f.A.toNat = 2 ^ s.cfg.W - 1 → r0Of (exec .add (s.withInflight f)) = 0) ∧
        (f.A.toNat = 2 ^ (s.cfg.W - 1) - 1 → r0Of (exec .add (s.withInflight f)) = 2 ^ (s.cfg.W - 1))) ∧
      (f.B.toNat = r0Of (exec .neg (s.withInflight f)) → r0Of (exec .add (s.withInflight f)) = 0) ∧
      (g.A.toNat = f.B.toNat → h.A = f.A → h.B.toNat = r0Of (exec .neg (s.withInflight g)) →
        r0Of (exec .add (s.withInflight h)) = r0Of (exec .sub (s.withInflight f))) ∧
      (f.CIN = 0#1 →
        r0Of (exec .add (s.withInflight f)) = r0Of (exec .eaddu (s.withInflight f)) % 2 ^ s.cfg.W) ∧
      r0Of (exec .kmul (s.withInflight f)) = f.A.toNat * f.B.toNat ∧
      ∀ i ∈ [Instr.smul, .bmul],
        r0Of (exec .mul (s.withInflight f)) = r0Of (exec i (s.withInflight f)) % 2 ^ s.cfg.W) ∧
    r0Of (exec .smul (s.withInflight f)) = f.A.toNat * f.B.toNat ∧
    signedOf (s.cfg.W + s.cfg.V) (r0Of (exec .bmul (s.withInflight f))) = f.A.toInt * f.B.toInt ∧
    (f.B.toNat = 1 → r0Of (exec .smul (s.withInflight f)) = f.A.toNat) ∧
    (f.B.toInt = 1 → r0Of (exec .bmul (s.withInflight f)) = residue (s.cfg.W + s.cfg.V) f.A.toInt)

/-! ## Division -/

/-- DIVU (43_divide.md R223): floor and remainder by the restoring algorithm and its fast paths. -/
def Obligations.DivuResult : Prop :=
  decodeOpcode 0x30#8 = some .divu ∧
  ∀ (s : State) (f : Inflight s.cfg), s.block.inflight = some f →
    (s.cfg.W = s.cfg.V → f.B.toNat ≠ 0 → exec .divu s = .next (s.withBlock (s.block.afterDivision
      (f.A.toNat / f.B.toNat) (f.A.toNat % f.B.toNat)))) ∧
    (s.cfg.W = s.cfg.V → f.B.toNat = 0 →
      exec .divu s = .next (s.withBlock (s.block.afterError .divisionByZero))) ∧
    (s.cfg.W ≠ s.cfg.V → exec .divu s = .next (s.withBlock (s.block.afterError .illegalOpcode)))

/-- DIVS (43_divide.md R224, R225): quotient and remainder truncated toward zero, the quotient wrapped at `W` bits. -/
def Obligations.DivsResult : Prop :=
  decodeOpcode 0x31#8 = some .divs ∧
  ∀ (s : State) (f : Inflight s.cfg), s.block.inflight = some f →
    (s.cfg.W = s.cfg.V → f.B.toNat ≠ 0 → exec .divs s = .next (s.withBlock (s.block.afterDivision
      (residue s.cfg.W (f.A.toInt.tdiv f.B.toInt)) (residue s.cfg.W (f.A.toInt.tmod f.B.toInt))))) ∧
    (s.cfg.W = s.cfg.V → f.B.toNat = 0 →
      exec .divs s = .next (s.withBlock (s.block.afterError .divisionByZero))) ∧
    (s.cfg.W ≠ s.cfg.V → exec .divs s = .next (s.withBlock (s.block.afterError .illegalOpcode)))

/-- The restoring loop alone (43_divide.md R221) gives the quotient and remainder of R220 for every denominator but 0.
The fast paths of R222: a zero divisor fails, whatever the divider; a zero numerator, a numerator equal to the
denominator and a denominator 1 have their pairs; and the divider with them agrees with the loop, so they cannot be
observed. -/
def Obligations.RestoringDivides : Prop :=
  (∀ (w : Nat) (num den : BitVec w), den ≠ 0#w →
    (restoring num den).1.toNat = num.toNat / den.toNat ∧ (restoring num den).2.toNat = num.toNat % den.toNat ∧
    udiv num den = restoring num den ∧
    (num = 0#w → udiv num den = (0#w, 0#w)) ∧ (num = den → udiv num den = (BitVec.ofNat w 1, 0#w)) ∧
    (den.toNat = 1 → udiv num den = (num, 0#w))) ∧
  ∀ (s : State) (f : Inflight s.cfg), s.cfg.W = s.cfg.V → f.B.toNat = 0 → s.block.inflight = some f →
    ∀ i ∈ [Instr.divu, .divs], exec i s = .next (s.withBlock (s.block.afterError .divisionByZero))

/-- The laws of 43_divide.md R226. -/
def Obligations.DivisionLaws : Prop :=
  (∀ (s : State) (f g h : Inflight s.cfg), s.cfg.W = s.cfg.V → f.B.toNat ≠ 0 →
    (f.A.toNat = r0Of (exec .divu (s.withInflight f)) * f.B.toNat + r1Of (exec .divu (s.withInflight f)) ∧
      r1Of (exec .divu (s.withInflight f)) < f.B.toNat) ∧
    (g.A.toNat = r0Of (exec .divs (s.withInflight f)) → g.B = f.B →
      h.A.toNat = r0Of (exec .mul (s.withInflight g)) → h.B.toNat = r1Of (exec .divs (s.withInflight f)) →
        r0Of (exec .add (s.withInflight h)) = f.A.toNat) ∧
    (¬ (f.A.toNat = 2 ^ (s.cfg.W - 1) ∧ f.B.toNat = 2 ^ s.cfg.V - 1) →
      f.A.toInt = signedOf s.cfg.W (r0Of (exec .divs (s.withInflight f))) * f.B.toInt +
        signedOf s.cfg.W (r1Of (exec .divs (s.withInflight f)))) ∧
    (signedOf s.cfg.W (r1Of (exec .divs (s.withInflight f)))).natAbs < f.B.toInt.natAbs ∧
    (r1Of (exec .divs (s.withInflight f)) = 0 ∨
      (signedOf s.cfg.W (r1Of (exec .divs (s.withInflight f))) < 0 ↔ f.A.toInt < 0))) ∧
  ∀ (s : State) (f : Inflight s.cfg), s.cfg.W = s.cfg.V → f.B.toNat = 0 → ∀ i ∈ [Instr.divu, .divs],
    exec i (s.withInflight f) = .next ((s.withInflight f).withBlock
      ((s.withInflight f).block.afterError .divisionByZero))

/-! ## Shifts and rotates -/

/-- SLL, SRL and SRA (44_shift_rotate.md R250, R252, R253, R254), for every amount: SRA the floor of the signed
quotient. -/
def Obligations.ShiftResults : Prop :=
  decodeOpcode 0x40#8 = some .sll ∧ decodeOpcode 0x41#8 = some .srl ∧ decodeOpcode 0x42#8 = some .sra ∧
  ∀ (s : State) (f : Inflight s.cfg), s.block.inflight = some f →
    exec .sll s = .next (s.withBlock (s.block.afterResult s.cfg.W
      (f.A.toNat * 2 ^ f.S.toNat % 2 ^ s.cfg.W) false)) ∧
    exec .srl s = .next (s.withBlock (s.block.afterResult s.cfg.W (f.A.toNat / 2 ^ f.S.toNat) false)) ∧
    exec .sra s = .next (s.withBlock (s.block.afterResult s.cfg.W
      (residue s.cfg.W (f.A.toInt / 2 ^ f.S.toNat)) false))

/-- ROL and ROR (44_shift_rotate.md R255, R256): the bits shifted out come back at the other end. -/
def Obligations.RotateResult : Prop :=
  decodeOpcode 0x44#8 = some .rol ∧ decodeOpcode 0x45#8 = some .ror ∧
  ∀ (s : State) (f : Inflight s.cfg), s.block.inflight = some f →
    let t := f.S.toNat % s.cfg.W
    exec .rol s = .next (s.withBlock (s.block.afterResult s.cfg.W
      (f.A.toNat * 2 ^ t % 2 ^ s.cfg.W + f.A.toNat / 2 ^ (s.cfg.W - t)) false)) ∧
    exec .ror s = .next (s.withBlock (s.block.afterResult s.cfg.W
      (f.A.toNat / 2 ^ t + f.A.toNat % 2 ^ t * 2 ^ (s.cfg.W - t)) false))

/-- RCL and RCR (44_shift_rotate.md R257, R258): the ring of `W + 1` bits with CIN above A, C its top bit after. -/
def Obligations.RotateThroughCarryResult : Prop :=
  decodeOpcode 0x46#8 = some .rcl ∧ decodeOpcode 0x47#8 = some .rcr ∧
  ∀ (s : State) (f : Inflight s.cfg), s.block.inflight = some f →
    let x := f.CIN.toNat * 2 ^ s.cfg.W + f.A.toNat
    let n := s.cfg.W + 1
    let t := f.S.toNat % n
    let yl := x * 2 ^ t % 2 ^ n + x / 2 ^ (n - t)
    let yr := x / 2 ^ t + x % 2 ^ t * 2 ^ (n - t)
    exec .rcl s = .next (s.withBlock (s.block.afterResult s.cfg.W (yl % 2 ^ s.cfg.W)
      (decide (2 ^ s.cfg.W ≤ yl)))) ∧
    exec .rcr s = .next (s.withBlock (s.block.afterResult s.cfg.W (yr % 2 ^ s.cfg.W)
      (decide (2 ^ s.cfg.W ≤ yr))))

/-- The word-level barrel shifter (44_shift_rotate.md R251) computes the closed forms of R250, at every word size,
width and amount. -/
def Obligations.BarrelShifterIsClosedForm : Prop :=
  ∀ (ws : WordSize) (w : Nat) (a : BitVec w) (n : Nat), 1 ≤ w →
    (barrelLeft ws.bits a n).toNat = a.toNat * 2 ^ n % 2 ^ w ∧
    (barrelRight ws.bits false a n).toNat = a.toNat / 2 ^ n ∧
    (barrelRight ws.bits true a n).toNat = residue w (a.toInt / 2 ^ n)

/-- The laws of 44_shift_rotate.md R259; `g` and `h` are the snapshots of a second command that takes up what the first
left. -/
def Obligations.ShiftLaws : Prop :=
  ∀ (s : State) (f g : Inflight s.cfg), g.S = f.S →
    (f.A.toNat * 2 ^ f.S.toNat < 2 ^ s.cfg.W → f.S.toNat < s.cfg.W →
      g.A.toNat = r0Of (exec .sll (s.withInflight f)) → r0Of (exec .srl (s.withInflight g)) = f.A.toNat) ∧
    (signedOf s.cfg.W (r0Of (exec .sra (s.withInflight f))) < 0 ↔ f.A.toInt < 0) ∧
    (f.S.toNat = 0 → (∀ i ∈ [Instr.sll, .srl, .sra, .rol, .ror, .rcl, .rcr],
        r0Of (exec i (s.withInflight f)) = f.A.toNat) ∧
      ∀ i ∈ [Instr.rcl, .rcr], carryOf (exec i (s.withInflight f)) = decide (f.CIN = 1#1)) ∧
    (g.A.toNat = r0Of (exec .ror (s.withInflight f)) → r0Of (exec .rol (s.withInflight g)) = f.A.toNat) ∧
    (g.A.toNat = r0Of (exec .rcl (s.withInflight f)) →
      g.CIN.toNat = (carryOf (exec .rcl (s.withInflight f))).toNat →
        r0Of (exec .rcr (s.withInflight g)) = f.A.toNat ∧
        carryOf (exec .rcr (s.withInflight g)) = decide (f.CIN = 1#1))

/-! ## The command cycle -/

/-- The operand sets of 40_command_cycle.md R133, empty for an opcode that is illegal in the instance. -/
def Obligations.OperandSetTable : Prop :=
  ∀ c : Instance,
    (∀ i ∈ [Instr.nop, .clrerr], operandSet c (opcode i) = ⟨false, false, false, false⟩) ∧
    (∀ i ∈ sameWidthCommands, c.W = c.V → operandSet c (opcode i) = ⟨true, true, false, false⟩) ∧
    operandSet c (opcode .neg) = ⟨true, false, false, false⟩ ∧
    (∀ i ∈ [Instr.eaddu, .eadds], operandSet c (opcode i) = ⟨true, true, false, true⟩) ∧
    (∀ i ∈ [Instr.esubu, .esubs, .smul, .bmul, .bmuli], operandSet c (opcode i) = ⟨true, true, false, false⟩) ∧
    (∀ i ∈ [Instr.sll, .srl, .sra, .rol, .ror], operandSet c (opcode i) = ⟨true, false, true, false⟩) ∧
    (∀ i ∈ [Instr.rcl, .rcr], operandSet c (opcode i) = ⟨true, false, true, true⟩) ∧
    (∀ i ∈ sameWidthCommands, c.W ≠ c.V → operandSet c (opcode i) = ⟨false, false, false, false⟩) ∧
    ∀ op, decodeOpcode op = none → operandSet c op = ⟨false, false, false, false⟩

/-- Acceptance (40_command_cycle.md R131): with BUSY = 0 a write to CMD word 0 puts the low 8 bits of the data in flight
with a snapshot whose written words are the registers' words; BUSY becomes 1, DONE and ERR 0, and nothing else of the
block changes. That the model goes on, and records the model fault, where an operand has an unwritten word is its choice
(notes/assumptions/3.md). -/
def Obligations.CommandAccepted : Prop :=
  ∀ (s : State) (d : BitVec 64), s.block.status.busy = false →
    ∃ (f : Inflight s.cfg) (h : HostSide s.cfg) (e : Env),
      exec (.wr .cmd 0#24 d) s = .next
        { s with
          block := { s.block with
            inflight := some f
            status := { s.block.status with busy := true, done := false, err := .none } }
          host := h, env := e } ∧
      f.op = d.setWidth 8 ∧
      (∀ j, s.block.A.isWritten j = true → wordOf s.cfg.WB f.A j = s.block.A.word j) ∧
      (∀ j, s.block.B.isWritten j = true → wordOf s.cfg.WB f.B j = s.block.B.word j) ∧
      (∀ j, s.block.S.isWritten j = true → wordOf s.cfg.WB f.S j = s.block.S.word j) ∧
      (∀ j, s.block.CIN.isWritten j = true → wordOf s.cfg.WB f.CIN j = s.block.CIN.word j) ∧
      (s.block.A.full = true → f.A = s.block.A.val) ∧ (s.block.B.full = true → f.B = s.block.B.val) ∧
      (s.block.S.full = true → f.S = s.block.S.val) ∧ (s.block.CIN.full = true → f.CIN = s.block.CIN.val) ∧
      h.reads = s.host.reads ∧ e.resetLine = s.env.resetLine ∧
      e.modelFaults = s.env.modelFaults ++
        if s.block.operandsWritten (operandSet s.cfg (d.setWidth 8)) then [] else [.unwrittenOperand (d.setWidth 8)]

/-- Unwritten words (10_state.md R44, R46; 60_exceptions.md R298 (a)). A read of one, of R0 or R1 with BUSY = 0, returns
some value in the bits the register has there and 0 in the others, and is recorded as a model fault; so is accepting a
command whose operand set has one. A record stays, and a run with a record is never finished. That the model goes on and
records, where R44 lets a model stop, is its choice (notes/assumptions/3.md). -/
def Obligations.UnwrittenWords : Prop :=
  (∀ (s : State) (sel : Sel) (idx : BitVec 24), sel ∈ dataRegisters → idx.toNat < selWords s.cfg sel →
    s.block.writtenAt sel idx.toNat = false → (sel ∈ operandRegisters ∨ s.block.status.busy = false) →
      ∃ d : BitVec s.cfg.WB, d.toNat < 2 ^ (selWidth s.cfg sel - idx.toNat * s.cfg.WB) ∧
        exec (.rd sel idx) s =
          .next ((((s.retire 4).returned d).useFresh 1).noted (.unwrittenWord sel idx))) ∧
  (∀ (s : State) (d : BitVec 64), s.block.status.busy = false →
    s.block.operandsWritten (operandSet s.cfg (d.setWidth 8)) = false →
      ∃ t, exec (.wr .cmd 0#24 d) s = .next t ∧ t.block.inflight.isSome = true ∧
        t.env.modelFaults = s.env.modelFaults ++ [.unwrittenOperand (d.setWidth 8)]) ∧
  ∀ s t : State, step s = .next t →
    (∃ ms, t.env.modelFaults = s.env.modelFaults ++ ms) ∧ (s.env.modelFaults ≠ [] → t.finished = false)

/-- Busy drop (40_command_cycle.md R132): a write to CMD while BUSY = 1 sets BSY and changes nothing else. -/
def Obligations.BusyDrop : Prop :=
  ∀ (s : State) (d : BitVec 64), s.block.status.busy = true →
    exec (.wr .cmd 0#24 d) s = .next ((s.retire (4 + s.cfg.wordSize.bytes)).withBlock
      { s.block with status := { s.block.status with bsy := true } })

/-- The snapshot decides (10_state.md R43, 70_reset_and_hazards.md R322): a command in flight completes alike whatever
the operand registers hold by then, and keeps what they hold. -/
def Obligations.SnapshotIsolation : Prop :=
  ∀ (s : State) (i : Instr) (f : Inflight s.cfg), i.form = .cmd8 → s.block.inflight = some f →
    ∃ u : Block s.cfg, exec i s = .next (s.withBlock u) ∧
      ∀ (a : Reg s.cfg.WB s.cfg.W) (b : Reg s.cfg.WB s.cfg.V) (n : Reg s.cfg.WB s.cfg.SW) (k : Reg s.cfg.WB 1),
        exec i (s.withBlock { s.block with A := a, B := b, S := n, CIN := k }) =
          .next (s.withBlock { u with A := a, B := b, S := n, CIN := k })

/-- No result depends on the word size (00_scope.md R8): in two instances of the same widths, the same snapshot gives
the same R0, R1 and flags, where the command succeeds or fails alike from the same results before. -/
def Obligations.ResultIndependentOfWordSize : Prop :=
  ∀ (s u : State) (f : Inflight s.cfg) (g : Inflight u.cfg) (i : Instr), i ∈ flagWriters →
    u.cfg.W = s.cfg.W → u.cfg.V = s.cfg.V → s.block.inflight = some f → u.block.inflight = some g →
    g.A.toNat = f.A.toNat → g.B.toNat = f.B.toNat → g.S.toNat = f.S.toNat → g.CIN = f.CIN →
    u.block.R0.val.toNat = s.block.R0.val.toNat → u.block.R1.val.toNat = s.block.R1.val.toNat →
    u.block.status = s.block.status →
      ∃ s' u', exec i s = .next s' ∧ exec i u = .next u' ∧ u'.block.R0.val.toNat = s'.block.R0.val.toNat ∧
        u'.block.R1.val.toNat = s'.block.R1.val.toNat ∧ u'.block.status = s'.block.status

/-- What a command leaves unchanged: the operand registers, the host and the environment always; R1 unless it divides;
R0 and the flags if it is a control command or fails; the sticky bits unless it is CLRERR (10_state.md R36, R37, R39;
40_command_cycle.md R135, R141). -/
def Obligations.CommandFrame : Prop :=
  ∀ (s t : State) (i : Instr), i.form = .cmd8 → exec i s = .next t →
    ∃ b : Block s.cfg, t = s.withBlock b ∧
      b.A = s.block.A ∧ b.B = s.block.B ∧ b.S = s.block.S ∧ b.CIN = s.block.CIN ∧
      (i ∉ [Instr.divu, .divs] → b.R1 = s.block.R1) ∧
      (i ∈ [Instr.nop, .clrerr] ∨ b.status.err ≠ .none → b.R0 = s.block.R0 ∧ b.R1 = s.block.R1 ∧
        b.status.c = s.block.status.c ∧ b.status.z = s.block.status.z ∧ b.status.n = s.block.status.n) ∧
      (i ≠ .clrerr → b.status.oor = s.block.status.oor ∧ b.status.acc = s.block.status.acc ∧
        b.status.bsy = s.block.status.bsy)

/-! ## Register access -/

/-- A host read of a written word of A, B, S or CIN, at any time, or of R0 or R1 while BUSY = 0, returns the word
(20_memory.md R74). -/
def Obligations.ReadReturnsWord : Prop :=
  ∀ (s : State) (sel : Sel) (idx : BitVec 24), idx.toNat < selWords s.cfg sel →
    s.block.writtenAt sel idx.toNat = true →
    (sel ∈ operandRegisters ∨ (sel ∈ [Sel.r0, .r1] ∧ s.block.status.busy = false)) →
      exec (.rd sel idx) s = .next ((s.retire 4).returned (s.block.wordAt sel idx.toNat))

/-- A host read of R0 or R1 while BUSY = 1 (70_reset_and_hazards.md R320) returns some word, and has no other effect;
which word is a free value. Of an unwritten word it is recorded as a model fault as well, the model's choice
(notes/assumptions/3.md and 8.md). -/
def Obligations.ReadResultWhileBusy : Prop :=
  ∀ (s : State) (sel : Sel) (idx : BitVec 24), sel ∈ [Sel.r0, .r1] → idx.toNat < selWords s.cfg sel →
    s.block.status.busy = true →
      ∃ d : BitVec s.cfg.WB,
        (s.block.writtenAt sel idx.toNat = true →
          exec (.rd sel idx) s = .next (((s.retire 4).returned d).useFresh 1)) ∧
        (s.block.writtenAt sel idx.toNat = false →
          exec (.rd sel idx) s = .next ((((s.retire 4).returned d).useFresh 1).noted (.unwrittenWord sel idx)))

/-- A read of STATUS, and a `poll` with BUSY = 0, return the fields at their bits, every other bit 0 (10_state.md R38,
20_memory.md R74); a `poll` while BUSY = 1 waits (30_encoding.md R113). -/
def Obligations.StatusReads : Prop :=
  ∀ s : State,
    (∀ idx : BitVec 24, idx.toNat < selWords s.cfg .status →
      exec (.rd .status idx) s = .next ((s.retire 4).returned
        (BitVec.ofNat s.cfg.WB (s.block.status.number / 2 ^ (idx.toNat * s.cfg.WB))))) ∧
    (s.block.status.busy = false →
      exec .poll s = .next ((s.retire 4).returned (BitVec.ofNat s.cfg.WB s.block.status.number))) ∧
    (s.block.status.busy = true → exec .poll s = .next s)

/-- A host write of a word of A, B, S or CIN (20_memory.md R75): the word becomes the data cut to the bits the register
has there, its `written` bit becomes 1, also while BUSY = 1; no other word, no `written` bit, no field of STATUS and
not the command in flight changes. -/
def Obligations.WriteSetsWord : Prop :=
  ∀ (s : State) (sel : Sel) (idx : BitVec 24) (d : BitVec 64), sel ∈ operandRegisters →
    idx.toNat < selWords s.cfg sel →
      ∃ b : Block s.cfg, exec (.wr sel idx d) s = .next ((s.retire (4 + s.cfg.wordSize.bytes)).withBlock b) ∧
        (b.wordAt sel idx.toNat).toNat =
          d.toNat % 2 ^ min s.cfg.WB (selWidth s.cfg sel - idx.toNat * s.cfg.WB) ∧
        b.writtenAt sel idx.toNat = true ∧
        (∀ sel' j, ¬ (sel' = sel ∧ j = idx.toNat) →
          b.wordAt sel' j = s.block.wordAt sel' j ∧ b.writtenAt sel' j = s.block.writtenAt sel' j) ∧
        b.status = s.block.status ∧ b.inflight = s.block.inflight

/-- OutOfRange (20_memory.md R77): an access at an address that is not valid sets OOR and does nothing else; a read
returns 0. Access violation (R78): a write to R0, R1 or STATUS and a read of CMD, at a valid address, set ACC and do
nothing else; the read returns 0. -/
def Obligations.AccessErrors : Prop :=
  ∀ (s : State) (sel : Sel) (idx : BitVec 24) (d : BitVec 64),
    (selWords s.cfg sel ≤ idx.toNat →
      exec (.rd sel idx) s = .next (((s.retire 4).withBlock
        { s.block with status := { s.block.status with oor := true } }).returned 0#s.cfg.WB) ∧
      exec (.wr sel idx d) s = .next ((s.retire (4 + s.cfg.wordSize.bytes)).withBlock
        { s.block with status := { s.block.status with oor := true } })) ∧
    (idx.toNat < selWords s.cfg sel →
      (sel ∈ [Sel.r0, .r1, .status] → exec (.wr sel idx d) s = .next
        ((s.retire (4 + s.cfg.wordSize.bytes)).withBlock
          { s.block with status := { s.block.status with acc := true } })) ∧
      (sel = .cmd → exec (.rd sel idx) s = .next (((s.retire 4).withBlock
        { s.block with status := { s.block.status with acc := true } }).returned 0#s.cfg.WB)))

/-- OOR, ACC and BSY are raised by exactly the accesses that the spec names (20_memory.md R77, R78; 40_command_cycle.md
R132), and an access leaves a bit that is set. -/
def Obligations.AccessErrorsExactly : Prop :=
  ∀ (s t : State) (sel : Sel) (idx : BitVec 24) (d : BitVec 64),
    (exec (.rd sel idx) s = .next t →
      (t.block.status.oor = true ↔ s.block.status.oor = true ∨ selWords s.cfg sel ≤ idx.toNat) ∧
      (t.block.status.acc = true ↔ s.block.status.acc = true ∨ (sel = .cmd ∧ idx.toNat < selWords s.cfg sel)) ∧
      t.block.status.bsy = s.block.status.bsy) ∧
    (exec (.wr sel idx d) s = .next t →
      (t.block.status.oor = true ↔ s.block.status.oor = true ∨ selWords s.cfg sel ≤ idx.toNat) ∧
      (t.block.status.acc = true ↔
        s.block.status.acc = true ∨ (sel ∈ [Sel.r0, .r1, .status] ∧ idx.toNat < selWords s.cfg sel)) ∧
      (t.block.status.bsy = true ↔
        s.block.status.bsy = true ∨ (sel = .cmd ∧ idx.toNat = 0 ∧ s.block.status.busy = true)))

/-- What a read leaves unchanged: every register and `written` bit, the command in flight, and of STATUS all but OOR
and ACC (20_memory.md R74, R82). -/
def Obligations.ReadFrame : Prop :=
  ∀ (s t : State) (i : Instr), (i = .poll ∨ ∃ sel idx, i = .rd sel idx) → exec i s = .next t →
    ∃ (x y : Bool) (h : HostSide s.cfg) (e : Env),
      t = { s with
        block := { s.block with status := { s.block.status with oor := x, acc := y } }, host := h, env := e } ∧
      (s.block.status.oor = true → x = true) ∧ (s.block.status.acc = true → y = true) ∧
      e.resetLine = s.env.resetLine ∧ e.latencies = s.env.latencies ∧
      (e.modelFaults = s.env.modelFaults ∨
        ∃ sel idx, i = .rd sel idx ∧ s.block.writtenAt sel idx.toNat = false ∧
          e.modelFaults = s.env.modelFaults ++ [.unwrittenWord sel idx])

/-- What a write leaves unchanged: R0, R1 and the flags; every word of A, B, S and CIN but the one addressed; and, if
CMD is not addressed, the command in flight, BUSY, DONE, ERR and BSY (20_memory.md R75). -/
def Obligations.WriteFrame : Prop :=
  ∀ (s t : State) (sel : Sel) (idx : BitVec 24) (d : BitVec 64), exec (.wr sel idx d) s = .next t →
    ∃ (b : Block s.cfg) (h : HostSide s.cfg) (e : Env),
      t = { s with block := b, host := h, env := e } ∧ h.reads = s.host.reads ∧ e.resetLine = s.env.resetLine ∧
      b.R0 = s.block.R0 ∧ b.R1 = s.block.R1 ∧
      b.status.c = s.block.status.c ∧ b.status.z = s.block.status.z ∧ b.status.n = s.block.status.n ∧
      (∀ r ∈ dataRegisters, ∀ j, ¬ (r = sel ∧ j = idx.toNat) →
        b.wordAt r j = s.block.wordAt r j ∧ b.writtenAt r j = s.block.writtenAt r j) ∧
      (sel ≠ .cmd → b.inflight = s.block.inflight ∧ b.status.busy = s.block.status.busy ∧
        b.status.done = s.block.status.done ∧ b.status.err = s.block.status.err ∧
        b.status.bsy = s.block.status.bsy ∧ e.modelFaults = s.env.modelFaults)

/-- The word view (00_scope.md R12, 10_state.md R46): a register's value is the sum of its words at their places, and a
word has no bit at a value position at or above the register's width. -/
def Obligations.ValueIsSumOfWords : Prop :=
  ∀ (ws : WordSize) (n : Nat) (r : Reg ws.bits n), 1 ≤ n →
    rdvValue ((List.range (nw ws.bits n)).map r.word) = r.val.toNat ∧
    ∀ j, (r.word j).toNat < 2 ^ (n - j * ws.bits)

/-- `ld REG, x` (30_encoding.md R114) leaves the register at the pattern of `x` with every word written, whatever it
held, and changes nothing else of the block. -/
def Obligations.LdLoadsRegister : Prop :=
  ∀ (s : State) (sel : Sel) (x : Int), sel ∈ operandRegisters →
    ∃ (h : HostSide s.cfg) (e : Env),
      performAll (asmLd s.cfg sel x) s = .next { s with block := s.block.loaded sel x, host := h, env := e } ∧
      h.reads = s.host.reads

/-- `rdv REG` (30_encoding.md R114): with BUSY = 0 and every word written, the words it reads name the register's value. -/
def Obligations.RdvReadsRegister : Prop :=
  ∀ (s : State) (sel : Sel), sel ∈ dataRegisters → s.block.status.busy = false →
    (∀ j, j < selWords s.cfg sel → s.block.writtenAt sel j = true) →
      ∃ (h : HostSide s.cfg) (e : Env) (ds : List (BitVec s.cfg.WB)),
        performAll (asmRdv s.cfg sel) s = .next { s with host := h, env := e } ∧
        h.reads = s.host.reads ++ ds ∧ ds.length = selWords s.cfg sel ∧ rdvValue ds = s.block.number sel

/-! ## The whole machine -/

/-- The invariant holds after reset, in every instance. -/
def Obligations.InvariantAtReset : Prop := State.reset.Inv ∧ ∀ c : Instance, (State.resetOf c).Inv

/-- Every step keeps the invariant, from every state that meets it. -/
def Obligations.StepKeepsInvariant : Prop :=
  ∀ s t : State, s.Inv → step s = .next t → t.Inv

/-- A step never changes the instance, and changes a data register only so (10_state.md R31, R39, R44): A, B, S and CIN
only by a host write, R0, R1 and the flags only by the completion of a command in flight, and everything by reset. -/
def Obligations.WhoWritesWhat : Prop :=
  ∀ s t : State, step s = .next t → s.env.resetLine = false →
    ∃ (b : Block s.cfg) (h : HostSide s.cfg) (e : Env), t = { s with block := b, host := h, env := e } ∧
      ((b.A ≠ s.block.A ∨ b.B ≠ s.block.B ∨ b.S ≠ s.block.S ∨ b.CIN ≠ s.block.CIN) →
        ∃ sel idx d, sel ∈ operandRegisters ∧ s.turn = .host (.wr sel idx d)) ∧
      ((b.R0 ≠ s.block.R0 ∨ b.status.c ≠ s.block.status.c ∨ b.status.z ≠ s.block.status.z ∨
          b.status.n ≠ s.block.status.n) →
        ∃ f i, s.block.inflight = some f ∧ decodeOpcode f.op = some i ∧ i ∈ flagWriters ∧
          b.inflight = none ∧ b.status.err = .none) ∧
      (b.R1 ≠ s.block.R1 →
        ∃ f i, s.block.inflight = some f ∧ decodeOpcode f.op = some i ∧ i ∈ [Instr.divu, .divs] ∧
          b.inflight = none ∧ b.status.err = .none)

/-- A sticky bit stays 1 until CLRERR completes or reset (60_exceptions.md R284, R285, R286). -/
def Obligations.StickyBitsStay : Prop :=
  ∀ s t : State, step s = .next t → s.env.resetLine = false →
    (∀ f, s.block.inflight = some f → f.op = 0x01#8 → t.block.inflight.isSome = true) →
      (s.block.status.oor = true → t.block.status.oor = true) ∧
      (s.block.status.acc = true → t.block.status.acc = true) ∧
      (s.block.status.bsy = true → t.block.status.bsy = true)

/-- A command in flight stays as it was accepted until it completes (10_state.md R43, 20_memory.md R87): no host
transaction changes the record, and BUSY falls and DONE rises with its completion (40_command_cycle.md R130). That the
number of transactions left falls by one at each is the model's rendering of a free latency, its own choice
(notes/assumptions/6.md). -/
def Obligations.InflightUntilCompletion : Prop :=
  ∀ (s t : State) (f : Inflight s.cfg), s.Inv → s.block.inflight = some f → step s = .next t →
    s.env.resetLine = false →
      ∃ (b : Block s.cfg) (h : HostSide s.cfg) (e : Env), t = { s with block := b, host := h, env := e } ∧
        ((b.inflight = some f ∧ b.status.busy = true ∧ b.status.done = false ∧ b.status.err = .none ∧
            e.delay + 1 = s.env.delay) ∨
          (b.inflight = none ∧ b.status.busy = false ∧ b.status.done = true))

/-- A command in flight completes within as many steps as its latency has transactions left, and one more
(40_command_cycle.md R138, 70_reset_and_hazards.md R325); the count of transactions left is the model's rendering of the
latency (notes/assumptions/6.md). -/
def Obligations.CommandCompletesInTime : Prop :=
  ∀ (s : State) (f : Inflight s.cfg) (is : List Instr), s.Inv → s.block.inflight = some f →
    s.env.resetLine = false → decodeProgram s.cfg.wordSize s.host.pos s.host.program = .ok is →
      ∃ k t, k ≤ s.env.delay + 1 ∧ Sys2Proof.core.run k s = .next t ∧ t.block.inflight = none ∧
        t.block.status.done = true

/-- Results do not depend on the latency (40_command_cycle.md R138, 70_reset_and_hazards.md R327): a host program that
waits at once for every command it issues gives, step by step, the same registers and the same reads under every choice
of latencies. -/
def Obligations.LatencyIndependence : Prop :=
  ∀ (s : State) (is : List Instr) (d : Nat) (ls : List Nat) (k : Nat), s.block.inflight = none →
    decodeProgram s.cfg.wordSize s.host.pos s.host.program = .ok is → waitsAtOnce is = true →
      SameButLatency (Sys2Proof.core.run k s)
        (Sys2Proof.core.run k { s with env := { s.env with delay := d, latencies := ls } })
end

