-- ==== Sys2Proof/Laws/State.lean ====
section
/-! SUPPORT. What each update of the state leaves and sets, field by field. -/

namespace Sys2Proof.Machine

/-! ### `Block.finish` -/

@[simp] theorem Block.finish_A {c : Instance} (b : Block c) (e : ErrCode) : (b.finish e).A = b.A := rfl
@[simp] theorem Block.finish_B {c : Instance} (b : Block c) (e : ErrCode) : (b.finish e).B = b.B := rfl
@[simp] theorem Block.finish_S {c : Instance} (b : Block c) (e : ErrCode) : (b.finish e).S = b.S := rfl
@[simp] theorem Block.finish_CIN {c : Instance} (b : Block c) (e : ErrCode) : (b.finish e).CIN = b.CIN := rfl
@[simp] theorem Block.finish_R0 {c : Instance} (b : Block c) (e : ErrCode) : (b.finish e).R0 = b.R0 := rfl
@[simp] theorem Block.finish_R1 {c : Instance} (b : Block c) (e : ErrCode) : (b.finish e).R1 = b.R1 := rfl
@[simp] theorem Block.finish_busy {c : Instance} (b : Block c) (e : ErrCode) : (b.finish e).status.busy = false := rfl
@[simp] theorem Block.finish_done {c : Instance} (b : Block c) (e : ErrCode) : (b.finish e).status.done = true := rfl
@[simp] theorem Block.finish_c {c : Instance} (b : Block c) (e : ErrCode) : (b.finish e).status.c = b.status.c := rfl
@[simp] theorem Block.finish_z {c : Instance} (b : Block c) (e : ErrCode) : (b.finish e).status.z = b.status.z := rfl
@[simp] theorem Block.finish_n {c : Instance} (b : Block c) (e : ErrCode) : (b.finish e).status.n = b.status.n := rfl
@[simp] theorem Block.finish_err {c : Instance} (b : Block c) (e : ErrCode) : (b.finish e).status.err = e := rfl
@[simp] theorem Block.finish_oor {c : Instance} (b : Block c) (e : ErrCode) : (b.finish e).status.oor = b.status.oor := rfl
@[simp] theorem Block.finish_acc {c : Instance} (b : Block c) (e : ErrCode) : (b.finish e).status.acc = b.status.acc := rfl
@[simp] theorem Block.finish_bsy {c : Instance} (b : Block c) (e : ErrCode) : (b.finish e).status.bsy = b.status.bsy := rfl
@[simp] theorem Block.finish_inflight {c : Instance} (b : Block c) (e : ErrCode) : (b.finish e).inflight = none := rfl

/-! ### `Block.raise` -/

@[simp] theorem Block.raise_A {c : Instance} (b : Block c) (e : ErrCode) : (b.raise e).A = b.A := rfl
@[simp] theorem Block.raise_B {c : Instance} (b : Block c) (e : ErrCode) : (b.raise e).B = b.B := rfl
@[simp] theorem Block.raise_S {c : Instance} (b : Block c) (e : ErrCode) : (b.raise e).S = b.S := rfl
@[simp] theorem Block.raise_CIN {c : Instance} (b : Block c) (e : ErrCode) : (b.raise e).CIN = b.CIN := rfl
@[simp] theorem Block.raise_R0 {c : Instance} (b : Block c) (e : ErrCode) : (b.raise e).R0 = b.R0 := rfl
@[simp] theorem Block.raise_R1 {c : Instance} (b : Block c) (e : ErrCode) : (b.raise e).R1 = b.R1 := rfl
@[simp] theorem Block.raise_busy {c : Instance} (b : Block c) (e : ErrCode) : (b.raise e).status.busy = false := rfl
@[simp] theorem Block.raise_done {c : Instance} (b : Block c) (e : ErrCode) : (b.raise e).status.done = true := rfl
@[simp] theorem Block.raise_c {c : Instance} (b : Block c) (e : ErrCode) : (b.raise e).status.c = b.status.c := rfl
@[simp] theorem Block.raise_z {c : Instance} (b : Block c) (e : ErrCode) : (b.raise e).status.z = b.status.z := rfl
@[simp] theorem Block.raise_n {c : Instance} (b : Block c) (e : ErrCode) : (b.raise e).status.n = b.status.n := rfl
@[simp] theorem Block.raise_err {c : Instance} (b : Block c) (e : ErrCode) : (b.raise e).status.err = e := rfl
@[simp] theorem Block.raise_oor {c : Instance} (b : Block c) (e : ErrCode) : (b.raise e).status.oor = b.status.oor := rfl
@[simp] theorem Block.raise_acc {c : Instance} (b : Block c) (e : ErrCode) : (b.raise e).status.acc = b.status.acc := rfl
@[simp] theorem Block.raise_bsy {c : Instance} (b : Block c) (e : ErrCode) : (b.raise e).status.bsy = b.status.bsy := rfl
@[simp] theorem Block.raise_inflight {c : Instance} (b : Block c) (e : ErrCode) : (b.raise e).inflight = none := rfl

/-! ### `Block.succeed` -/

@[simp] theorem Block.succeed_A {c : Instance} {rw : Nat} (b : Block c) (x : BitVec rw) (k : Bool) : (b.succeed x k).A = b.A := rfl
@[simp] theorem Block.succeed_B {c : Instance} {rw : Nat} (b : Block c) (x : BitVec rw) (k : Bool) : (b.succeed x k).B = b.B := rfl
@[simp] theorem Block.succeed_S {c : Instance} {rw : Nat} (b : Block c) (x : BitVec rw) (k : Bool) : (b.succeed x k).S = b.S := rfl
@[simp] theorem Block.succeed_CIN {c : Instance} {rw : Nat} (b : Block c) (x : BitVec rw) (k : Bool) : (b.succeed x k).CIN = b.CIN := rfl
@[simp] theorem Block.succeed_R0 {c : Instance} {rw : Nat} (b : Block c) (x : BitVec rw) (k : Bool) : (b.succeed x k).R0 = Reg.load c.WB (zext (c.W + c.V) x) := rfl
@[simp] theorem Block.succeed_R1 {c : Instance} {rw : Nat} (b : Block c) (x : BitVec rw) (k : Bool) : (b.succeed x k).R1 = b.R1 := rfl
@[simp] theorem Block.succeed_busy {c : Instance} {rw : Nat} (b : Block c) (x : BitVec rw) (k : Bool) : (b.succeed x k).status.busy = false := rfl
@[simp] theorem Block.succeed_done {c : Instance} {rw : Nat} (b : Block c) (x : BitVec rw) (k : Bool) : (b.succeed x k).status.done = true := rfl
@[simp] theorem Block.succeed_c {c : Instance} {rw : Nat} (b : Block c) (x : BitVec rw) (k : Bool) : (b.succeed x k).status.c = k := rfl
@[simp] theorem Block.succeed_z {c : Instance} {rw : Nat} (b : Block c) (x : BitVec rw) (k : Bool) : (b.succeed x k).status.z = flagZ x := rfl
@[simp] theorem Block.succeed_n {c : Instance} {rw : Nat} (b : Block c) (x : BitVec rw) (k : Bool) : (b.succeed x k).status.n = flagN x := rfl
@[simp] theorem Block.succeed_err {c : Instance} {rw : Nat} (b : Block c) (x : BitVec rw) (k : Bool) : (b.succeed x k).status.err = .none := rfl
@[simp] theorem Block.succeed_oor {c : Instance} {rw : Nat} (b : Block c) (x : BitVec rw) (k : Bool) : (b.succeed x k).status.oor = b.status.oor := rfl
@[simp] theorem Block.succeed_acc {c : Instance} {rw : Nat} (b : Block c) (x : BitVec rw) (k : Bool) : (b.succeed x k).status.acc = b.status.acc := rfl
@[simp] theorem Block.succeed_bsy {c : Instance} {rw : Nat} (b : Block c) (x : BitVec rw) (k : Bool) : (b.succeed x k).status.bsy = b.status.bsy := rfl
@[simp] theorem Block.succeed_inflight {c : Instance} {rw : Nat} (b : Block c) (x : BitVec rw) (k : Bool) : (b.succeed x k).inflight = none := rfl

/-! ### `Block.succeedWithRemainder` -/

@[simp] theorem Block.succeedWithRemainder_A {c : Instance} (b : Block c) (q r : BitVec c.W) (k : Bool) : (b.succeedWithRemainder q r k).A = b.A := rfl
@[simp] theorem Block.succeedWithRemainder_B {c : Instance} (b : Block c) (q r : BitVec c.W) (k : Bool) : (b.succeedWithRemainder q r k).B = b.B := rfl
@[simp] theorem Block.succeedWithRemainder_S {c : Instance} (b : Block c) (q r : BitVec c.W) (k : Bool) : (b.succeedWithRemainder q r k).S = b.S := rfl
@[simp] theorem Block.succeedWithRemainder_CIN {c : Instance} (b : Block c) (q r : BitVec c.W) (k : Bool) : (b.succeedWithRemainder q r k).CIN = b.CIN := rfl
@[simp] theorem Block.succeedWithRemainder_R0 {c : Instance} (b : Block c) (q r : BitVec c.W) (k : Bool) : (b.succeedWithRemainder q r k).R0 = Reg.load c.WB (zext (c.W + c.V) q) := rfl
@[simp] theorem Block.succeedWithRemainder_R1 {c : Instance} (b : Block c) (q r : BitVec c.W) (k : Bool) : (b.succeedWithRemainder q r k).R1 = Reg.load c.WB r := rfl
@[simp] theorem Block.succeedWithRemainder_busy {c : Instance} (b : Block c) (q r : BitVec c.W) (k : Bool) : (b.succeedWithRemainder q r k).status.busy = false := rfl
@[simp] theorem Block.succeedWithRemainder_done {c : Instance} (b : Block c) (q r : BitVec c.W) (k : Bool) : (b.succeedWithRemainder q r k).status.done = true := rfl
@[simp] theorem Block.succeedWithRemainder_c {c : Instance} (b : Block c) (q r : BitVec c.W) (k : Bool) : (b.succeedWithRemainder q r k).status.c = k := rfl
@[simp] theorem Block.succeedWithRemainder_z {c : Instance} (b : Block c) (q r : BitVec c.W) (k : Bool) : (b.succeedWithRemainder q r k).status.z = flagZ q := rfl
@[simp] theorem Block.succeedWithRemainder_n {c : Instance} (b : Block c) (q r : BitVec c.W) (k : Bool) : (b.succeedWithRemainder q r k).status.n = flagN q := rfl
@[simp] theorem Block.succeedWithRemainder_err {c : Instance} (b : Block c) (q r : BitVec c.W) (k : Bool) : (b.succeedWithRemainder q r k).status.err = .none := rfl
@[simp] theorem Block.succeedWithRemainder_oor {c : Instance} (b : Block c) (q r : BitVec c.W) (k : Bool) : (b.succeedWithRemainder q r k).status.oor = b.status.oor := rfl
@[simp] theorem Block.succeedWithRemainder_acc {c : Instance} (b : Block c) (q r : BitVec c.W) (k : Bool) : (b.succeedWithRemainder q r k).status.acc = b.status.acc := rfl
@[simp] theorem Block.succeedWithRemainder_bsy {c : Instance} (b : Block c) (q r : BitVec c.W) (k : Bool) : (b.succeedWithRemainder q r k).status.bsy = b.status.bsy := rfl
@[simp] theorem Block.succeedWithRemainder_inflight {c : Instance} (b : Block c) (q r : BitVec c.W) (k : Bool) : (b.succeedWithRemainder q r k).inflight = none := rfl

/-! ### `Block.setOor` -/

@[simp] theorem Block.setOor_A {c : Instance} (b : Block c) : (b.setOor).A = b.A := rfl
@[simp] theorem Block.setOor_B {c : Instance} (b : Block c) : (b.setOor).B = b.B := rfl
@[simp] theorem Block.setOor_S {c : Instance} (b : Block c) : (b.setOor).S = b.S := rfl
@[simp] theorem Block.setOor_CIN {c : Instance} (b : Block c) : (b.setOor).CIN = b.CIN := rfl
@[simp] theorem Block.setOor_R0 {c : Instance} (b : Block c) : (b.setOor).R0 = b.R0 := rfl
@[simp] theorem Block.setOor_R1 {c : Instance} (b : Block c) : (b.setOor).R1 = b.R1 := rfl
@[simp] theorem Block.setOor_busy {c : Instance} (b : Block c) : (b.setOor).status.busy = b.status.busy := rfl
@[simp] theorem Block.setOor_done {c : Instance} (b : Block c) : (b.setOor).status.done = b.status.done := rfl
@[simp] theorem Block.setOor_c {c : Instance} (b : Block c) : (b.setOor).status.c = b.status.c := rfl
@[simp] theorem Block.setOor_z {c : Instance} (b : Block c) : (b.setOor).status.z = b.status.z := rfl
@[simp] theorem Block.setOor_n {c : Instance} (b : Block c) : (b.setOor).status.n = b.status.n := rfl
@[simp] theorem Block.setOor_err {c : Instance} (b : Block c) : (b.setOor).status.err = b.status.err := rfl
@[simp] theorem Block.setOor_oor {c : Instance} (b : Block c) : (b.setOor).status.oor = true := rfl
@[simp] theorem Block.setOor_acc {c : Instance} (b : Block c) : (b.setOor).status.acc = b.status.acc := rfl
@[simp] theorem Block.setOor_bsy {c : Instance} (b : Block c) : (b.setOor).status.bsy = b.status.bsy := rfl
@[simp] theorem Block.setOor_inflight {c : Instance} (b : Block c) : (b.setOor).inflight = b.inflight := rfl

/-! ### `Block.setAcc` -/

@[simp] theorem Block.setAcc_A {c : Instance} (b : Block c) : (b.setAcc).A = b.A := rfl
@[simp] theorem Block.setAcc_B {c : Instance} (b : Block c) : (b.setAcc).B = b.B := rfl
@[simp] theorem Block.setAcc_S {c : Instance} (b : Block c) : (b.setAcc).S = b.S := rfl
@[simp] theorem Block.setAcc_CIN {c : Instance} (b : Block c) : (b.setAcc).CIN = b.CIN := rfl
@[simp] theorem Block.setAcc_R0 {c : Instance} (b : Block c) : (b.setAcc).R0 = b.R0 := rfl
@[simp] theorem Block.setAcc_R1 {c : Instance} (b : Block c) : (b.setAcc).R1 = b.R1 := rfl
@[simp] theorem Block.setAcc_busy {c : Instance} (b : Block c) : (b.setAcc).status.busy = b.status.busy := rfl
@[simp] theorem Block.setAcc_done {c : Instance} (b : Block c) : (b.setAcc).status.done = b.status.done := rfl
@[simp] theorem Block.setAcc_c {c : Instance} (b : Block c) : (b.setAcc).status.c = b.status.c := rfl
@[simp] theorem Block.setAcc_z {c : Instance} (b : Block c) : (b.setAcc).status.z = b.status.z := rfl
@[simp] theorem Block.setAcc_n {c : Instance} (b : Block c) : (b.setAcc).status.n = b.status.n := rfl
@[simp] theorem Block.setAcc_err {c : Instance} (b : Block c) : (b.setAcc).status.err = b.status.err := rfl
@[simp] theorem Block.setAcc_oor {c : Instance} (b : Block c) : (b.setAcc).status.oor = b.status.oor := rfl
@[simp] theorem Block.setAcc_acc {c : Instance} (b : Block c) : (b.setAcc).status.acc = true := rfl
@[simp] theorem Block.setAcc_bsy {c : Instance} (b : Block c) : (b.setAcc).status.bsy = b.status.bsy := rfl
@[simp] theorem Block.setAcc_inflight {c : Instance} (b : Block c) : (b.setAcc).inflight = b.inflight := rfl

/-! ### `Block.setBsy` -/

@[simp] theorem Block.setBsy_A {c : Instance} (b : Block c) : (b.setBsy).A = b.A := rfl
@[simp] theorem Block.setBsy_B {c : Instance} (b : Block c) : (b.setBsy).B = b.B := rfl
@[simp] theorem Block.setBsy_S {c : Instance} (b : Block c) : (b.setBsy).S = b.S := rfl
@[simp] theorem Block.setBsy_CIN {c : Instance} (b : Block c) : (b.setBsy).CIN = b.CIN := rfl
@[simp] theorem Block.setBsy_R0 {c : Instance} (b : Block c) : (b.setBsy).R0 = b.R0 := rfl
@[simp] theorem Block.setBsy_R1 {c : Instance} (b : Block c) : (b.setBsy).R1 = b.R1 := rfl
@[simp] theorem Block.setBsy_busy {c : Instance} (b : Block c) : (b.setBsy).status.busy = b.status.busy := rfl
@[simp] theorem Block.setBsy_done {c : Instance} (b : Block c) : (b.setBsy).status.done = b.status.done := rfl
@[simp] theorem Block.setBsy_c {c : Instance} (b : Block c) : (b.setBsy).status.c = b.status.c := rfl
@[simp] theorem Block.setBsy_z {c : Instance} (b : Block c) : (b.setBsy).status.z = b.status.z := rfl
@[simp] theorem Block.setBsy_n {c : Instance} (b : Block c) : (b.setBsy).status.n = b.status.n := rfl
@[simp] theorem Block.setBsy_err {c : Instance} (b : Block c) : (b.setBsy).status.err = b.status.err := rfl
@[simp] theorem Block.setBsy_oor {c : Instance} (b : Block c) : (b.setBsy).status.oor = b.status.oor := rfl
@[simp] theorem Block.setBsy_acc {c : Instance} (b : Block c) : (b.setBsy).status.acc = b.status.acc := rfl
@[simp] theorem Block.setBsy_bsy {c : Instance} (b : Block c) : (b.setBsy).status.bsy = true := rfl
@[simp] theorem Block.setBsy_inflight {c : Instance} (b : Block c) : (b.setBsy).inflight = b.inflight := rfl

/-! ### `Block.clearSticky` -/

@[simp] theorem Block.clearSticky_A {c : Instance} (b : Block c) : (b.clearSticky).A = b.A := rfl
@[simp] theorem Block.clearSticky_B {c : Instance} (b : Block c) : (b.clearSticky).B = b.B := rfl
@[simp] theorem Block.clearSticky_S {c : Instance} (b : Block c) : (b.clearSticky).S = b.S := rfl
@[simp] theorem Block.clearSticky_CIN {c : Instance} (b : Block c) : (b.clearSticky).CIN = b.CIN := rfl
@[simp] theorem Block.clearSticky_R0 {c : Instance} (b : Block c) : (b.clearSticky).R0 = b.R0 := rfl
@[simp] theorem Block.clearSticky_R1 {c : Instance} (b : Block c) : (b.clearSticky).R1 = b.R1 := rfl
@[simp] theorem Block.clearSticky_busy {c : Instance} (b : Block c) : (b.clearSticky).status.busy = b.status.busy := rfl
@[simp] theorem Block.clearSticky_done {c : Instance} (b : Block c) : (b.clearSticky).status.done = b.status.done := rfl
@[simp] theorem Block.clearSticky_c {c : Instance} (b : Block c) : (b.clearSticky).status.c = b.status.c := rfl
@[simp] theorem Block.clearSticky_z {c : Instance} (b : Block c) : (b.clearSticky).status.z = b.status.z := rfl
@[simp] theorem Block.clearSticky_n {c : Instance} (b : Block c) : (b.clearSticky).status.n = b.status.n := rfl
@[simp] theorem Block.clearSticky_err {c : Instance} (b : Block c) : (b.clearSticky).status.err = b.status.err := rfl
@[simp] theorem Block.clearSticky_oor {c : Instance} (b : Block c) : (b.clearSticky).status.oor = false := rfl
@[simp] theorem Block.clearSticky_acc {c : Instance} (b : Block c) : (b.clearSticky).status.acc = false := rfl
@[simp] theorem Block.clearSticky_bsy {c : Instance} (b : Block c) : (b.clearSticky).status.bsy = false := rfl
@[simp] theorem Block.clearSticky_inflight {c : Instance} (b : Block c) : (b.clearSticky).inflight = b.inflight := rfl

/-! ### `State.retire` -/

@[simp] theorem State.retire_cfg (s : State) (n : Nat) : (s.retire n).cfg = s.cfg := rfl
@[simp] theorem State.retire_block (s : State) (n : Nat) : (s.retire n).block = s.block := rfl
@[simp] theorem State.retire_program (s : State) (n : Nat) : (s.retire n).host.program = s.host.program.drop n := rfl
@[simp] theorem State.retire_pos (s : State) (n : Nat) : (s.retire n).host.pos = s.host.pos + 1 := rfl
@[simp] theorem State.retire_reads (s : State) (n : Nat) : (s.retire n).host.reads = s.host.reads := rfl
@[simp] theorem State.retire_fresh (s : State) (n : Nat) : (s.retire n).env.fresh = s.env.fresh := rfl
@[simp] theorem State.retire_delay (s : State) (n : Nat) : (s.retire n).env.delay = s.env.delay - 1 := rfl
@[simp] theorem State.retire_latencies (s : State) (n : Nat) : (s.retire n).env.latencies = s.env.latencies := rfl
@[simp] theorem State.retire_resetLine (s : State) (n : Nat) : (s.retire n).env.resetLine = s.env.resetLine := rfl
@[simp] theorem State.retire_modelFaults (s : State) (n : Nat) : (s.retire n).env.modelFaults = s.env.modelFaults := rfl

/-! ### `State.returned` -/

@[simp] theorem State.returned_cfg (s : State) (d : BitVec s.cfg.WB) : (s.returned d).cfg = s.cfg := rfl
@[simp] theorem State.returned_block (s : State) (d : BitVec s.cfg.WB) : (s.returned d).block = s.block := rfl
@[simp] theorem State.returned_program (s : State) (d : BitVec s.cfg.WB) : (s.returned d).host.program = s.host.program := rfl
@[simp] theorem State.returned_pos (s : State) (d : BitVec s.cfg.WB) : (s.returned d).host.pos = s.host.pos := rfl
@[simp] theorem State.returned_reads (s : State) (d : BitVec s.cfg.WB) : (s.returned d).host.reads = s.host.reads ++ [d] := rfl
@[simp] theorem State.returned_env (s : State) (d : BitVec s.cfg.WB) : (s.returned d).env = s.env := rfl

/-! ### `State.useFresh` -/

@[simp] theorem State.useFresh_cfg (s : State) (n : Nat) : (s.useFresh n).cfg = s.cfg := rfl
@[simp] theorem State.useFresh_block (s : State) (n : Nat) : (s.useFresh n).block = s.block := rfl
@[simp] theorem State.useFresh_host (s : State) (n : Nat) : (s.useFresh n).host = s.host := rfl
@[simp] theorem State.useFresh_fresh (s : State) (n : Nat) : (s.useFresh n).env.fresh = s.env.fresh + n := rfl
@[simp] theorem State.useFresh_delay (s : State) (n : Nat) : (s.useFresh n).env.delay = s.env.delay := rfl
@[simp] theorem State.useFresh_latencies (s : State) (n : Nat) : (s.useFresh n).env.latencies = s.env.latencies := rfl
@[simp] theorem State.useFresh_resetLine (s : State) (n : Nat) : (s.useFresh n).env.resetLine = s.env.resetLine := rfl
@[simp] theorem State.useFresh_modelFaults (s : State) (n : Nat) : (s.useFresh n).env.modelFaults = s.env.modelFaults := rfl

/-! ### `State.noted` -/

@[simp] theorem State.noted_cfg (s : State) (m : ModelFault) : (s.noted m).cfg = s.cfg := rfl
@[simp] theorem State.noted_block (s : State) (m : ModelFault) : (s.noted m).block = s.block := rfl
@[simp] theorem State.noted_host (s : State) (m : ModelFault) : (s.noted m).host = s.host := rfl
@[simp] theorem State.noted_fresh (s : State) (m : ModelFault) : (s.noted m).env.fresh = s.env.fresh := rfl
@[simp] theorem State.noted_delay (s : State) (m : ModelFault) : (s.noted m).env.delay = s.env.delay := rfl
@[simp] theorem State.noted_latencies (s : State) (m : ModelFault) : (s.noted m).env.latencies = s.env.latencies := rfl
@[simp] theorem State.noted_resetLine (s : State) (m : ModelFault) : (s.noted m).env.resetLine = s.env.resetLine := rfl
@[simp] theorem State.noted_modelFaults (s : State) (m : ModelFault) : (s.noted m).env.modelFaults = s.env.modelFaults ++ [m] := rfl

/-! ### `State.accept` -/

@[simp] theorem State.accept_cfg (s : State) (op : BitVec 8) : (s.accept op).cfg = s.cfg := rfl
@[simp] theorem State.accept_block (s : State) (op : BitVec 8) : (s.accept op).block = s.started op := rfl
@[simp] theorem State.accept_host (s : State) (op : BitVec 8) : (s.accept op).host = s.host := rfl
@[simp] theorem State.accept_fresh (s : State) (op : BitVec 8) : (s.accept op).env.fresh = s.env.fresh + 5 := rfl
@[simp] theorem State.accept_delay (s : State) (op : BitVec 8) : (s.accept op).env.delay = s.env.latency := rfl
@[simp] theorem State.accept_latencies (s : State) (op : BitVec 8) :
    (s.accept op).env.latencies = s.env.latencies.tail := rfl
@[simp] theorem State.accept_resetLine (s : State) (op : BitVec 8) :
    (s.accept op).env.resetLine = s.env.resetLine := rfl
@[simp] theorem State.accept_modelFaults (s : State) (op : BitVec 8) :
    (s.accept op).env.modelFaults = s.env.modelFaults ++ s.operandFaults op := rfl

/-! ### `State.withBlock` -/

@[simp] theorem State.withBlock_cfg (s : State) (b : Block s.cfg) : (s.withBlock b).cfg = s.cfg := rfl
@[simp] theorem State.withBlock_block (s : State) (b : Block s.cfg) : (s.withBlock b).block = b := rfl
@[simp] theorem State.withBlock_host (s : State) (b : Block s.cfg) : (s.withBlock b).host = s.host := rfl
@[simp] theorem State.withBlock_env (s : State) (b : Block s.cfg) : (s.withBlock b).env = s.env := rfl

/-! ### `State.applyReset` -/

@[simp] theorem State.applyReset_cfg (s : State) : (s.applyReset).cfg = s.cfg := rfl
@[simp] theorem State.applyReset_block (s : State) : (s.applyReset).block = Block.reset s.cfg := rfl
@[simp] theorem State.applyReset_host (s : State) : (s.applyReset).host = s.host := rfl
@[simp] theorem State.applyReset_fresh (s : State) : (s.applyReset).env.fresh = s.env.fresh := rfl
@[simp] theorem State.applyReset_delay (s : State) : (s.applyReset).env.delay = 0 := rfl
@[simp] theorem State.applyReset_latencies (s : State) : (s.applyReset).env.latencies = s.env.latencies := rfl
@[simp] theorem State.applyReset_resetLine (s : State) : (s.applyReset).env.resetLine = false := rfl
@[simp] theorem State.applyReset_modelFaults (s : State) : (s.applyReset).env.modelFaults = s.env.modelFaults := rfl

/-! ### `Reg.load` -/

@[simp] theorem Reg.load_val {n : Nat} (wb : Nat) (v : BitVec n) : (Reg.load wb v).val = v := rfl
@[simp] theorem Reg.load_written {n : Nat} (wb : Nat) (v : BitVec n) :
    (Reg.load wb v).written = BitVec.allOnes (nw wb n) := rfl

/-! ### The state a claim names -/

theorem Block.afterError_eq_finish {c : Instance} (b : Block c) (e : ErrCode) : b.afterError e = b.finish e := rfl
theorem Block.raise_eq_finish {c : Instance} (b : Block c) (e : ErrCode) : b.raise e = b.finish e := rfl

end Sys2Proof.Machine
end

