-- ==== Sys2Proof/Laws/Operands.lean ====
section
/-! SUPPORT. What the patterns, the word view and the flags are as numbers and as bits. -/

namespace Sys2Proof

theorem WordSize.bits_cases (ws : WordSize) : ws.bits = 8 ∨ ws.bits = 16 ∨ ws.bits = 32 ∨ ws.bits = 64 := by
  cases ws <;> simp [WordSize.bits]

theorem WordSize.bits_pos (ws : WordSize) : 0 < ws.bits := by cases ws <;> decide

theorem WordSize.bits_le (ws : WordSize) : ws.bits ≤ 64 := by cases ws <;> decide

theorem WordSize.le_bits (ws : WordSize) : 8 ≤ ws.bits := by cases ws <;> decide

theorem Instance.WB_pos (c : Instance) : 0 < c.WB := WordSize.bits_pos _

theorem Instance.WB_le (c : Instance) : c.WB ≤ 64 := WordSize.bits_le _

theorem Instance.le_WB (c : Instance) : 8 ≤ c.WB := WordSize.le_bits _

theorem Instance.W_add_V_pos (c : Instance) : 1 ≤ c.W + c.V := by have := c.W_pos; omega

theorem Instance.M_pos (c : Instance) : 1 ≤ c.M := by have := c.W_pos; unfold Instance.M; omega

end Sys2Proof

namespace Sys2Proof.Machine

/-! ### Word counts -/

/-- A bit below the width stands in a word below the word count. -/
theorem div_lt_nw {wb n i : Nat} (hwb : 0 < wb) (hi : i < n) : i / wb < nw wb n := by
  unfold nw
  rw [Nat.div_lt_iff_lt_mul hwb]
  have := Nat.lt_div_mul_add (a := n + wb - 1) hwb
  omega

/-- The words below the last are whole. -/
theorem mul_lt_of_lt_nw {wb n j : Nat} (hwb : 0 < wb) (hj : j < nw wb n) : j * wb < n := by
  unfold nw at hj
  have h1 : (j + 1) * wb ≤ n + wb - 1 := (Nat.le_div_iff_mul_le hwb).mp hj
  have h2 : (j + 1) * wb = j * wb + wb := by ring
  omega

theorem le_nw_mul {wb n : Nat} (hwb : 0 < wb) : n ≤ nw wb n * wb := by
  unfold nw
  have := Nat.lt_div_mul_add (a := n + wb - 1) hwb
  omega

theorem nw_pos {wb n : Nat} (hwb : 0 < wb) (hn : 1 ≤ n) : 0 < nw wb n := by
  exact Nat.lt_of_le_of_lt (Nat.zero_le _) (div_lt_nw (i := 0) hwb hn)

/-- Every word but the last lies wholly inside the register. -/
theorem succ_mul_le_of_lt {wb n j : Nat} (hwb : 0 < wb) (hj : j < nw wb n - 1) : (j + 1) * wb ≤ n := by
  have h := mul_lt_of_lt_nw (n := n) (j := j + 1) hwb (by omega)
  omega

/-! ### Patterns -/

@[simp] theorem uval_eq_toNat {n : Nat} (v : BitVec n) : uval v = v.toNat := rfl

@[simp] theorem sval_eq_toInt {n : Nat} (v : BitVec n) : sval v = v.toInt := rfl

theorem toNat_bitsOf (n : Nat) (x : Int) : (bitsOf n x).toNat = residue n x := by
  simp [bitsOf, residue, BitVec.toNat_ofInt]

theorem toNat_bitsOf_natCast (n x : Nat) : (bitsOf n (x : Int)).toNat = x % 2 ^ n := by
  simp only [bitsOf, BitVec.ofInt_natCast, BitVec.toNat_ofNat]

theorem residue_lt (n : Nat) (x : Int) : residue n x < 2 ^ n := by
  rw [← toNat_bitsOf]; exact (bitsOf n x).isLt

theorem residue_natCast (n x : Nat) : residue n (x : Int) = x % 2 ^ n := by
  rw [← toNat_bitsOf, toNat_bitsOf_natCast]

theorem residue_of_nonneg_of_lt {n : Nat} {x : Int} (h0 : 0 ≤ x) (h : x < 2 ^ n) : residue n x = x.toNat := by
  rw [residue, Int.emod_eq_of_lt h0 h]

/-- Integers that differ by a multiple of `2^n` have one residue. -/
theorem residue_eq_of_modEq {n : Nat} {x y : Int} (h : x % 2 ^ n = y % 2 ^ n) : residue n x = residue n y := by
  rw [residue, residue, h]

/-- A residue is congruent to what it is a residue of. -/
theorem residue_modEq (n : Nat) (x : Int) : (residue n x : Int) ≡ x [ZMOD 2 ^ n] := by
  rw [residue, Int.toNat_of_nonneg (Int.emod_nonneg _ (by positivity))]
  exact Int.mod_modEq _ _

/-- A pattern's number is the residue of its signed reading. -/
theorem toNat_eq_residue_toInt {n : Nat} (v : BitVec n) : v.toNat = residue n v.toInt := by
  rw [← toNat_bitsOf, bitsOf, BitVec.ofInt_toInt]

/-- The bitwise complement as a number (00_scope.md R14). -/
theorem toNat_compl {n : Nat} (v : BitVec n) : ((~~~v).toNat : Int) = 2 ^ n - 1 - v.toNat := by
  have h := v.isLt
  rw [BitVec.toNat_not, Nat.sub_sub, Nat.cast_sub (by omega)]
  push_cast
  ring

/-- The complement plus one is the negation, at any width no smaller than the residue's. -/
theorem compl_add_one_modEq {n : Nat} (v : BitVec n) : ((~~~v).toNat : Int) + 1 ≡ -v.toNat [ZMOD 2 ^ n] := by
  rw [toNat_compl]
  exact (Int.modEq_iff_dvd.mpr ⟨-1, by ring⟩)

/-- The two readings of a pattern are congruent. -/
theorem toInt_modEq_toNat {n : Nat} (v : BitVec n) : v.toInt ≡ v.toNat [ZMOD 2 ^ n] := by
  conv_rhs => rw [toNat_eq_residue_toInt]
  exact (residue_modEq n _).symm

/-- `zext` (and truncation) by the number of the pattern. -/
theorem zext_eq {n : Nat} (m : Nat) (v : BitVec n) : zext m v = BitVec.ofNat m v.toNat := by
  apply BitVec.eq_of_toNat_eq; simp [zext]

theorem toNat_zext {n : Nat} (m : Nat) (v : BitVec n) : (zext m v).toNat = v.toNat % 2 ^ m := by
  simp [zext]

theorem toNat_zext_of_le {n m : Nat} (v : BitVec n) (h : n ≤ m) : (zext m v).toNat = v.toNat := by
  rw [toNat_zext, Nat.mod_eq_of_lt (Nat.lt_of_lt_of_le v.isLt (Nat.pow_le_pow_right (by decide) h))]

theorem toInt_sext {n m : Nat} (v : BitVec n) (h : n ≤ m) : (sext m v).toInt = v.toInt :=
  BitVec.toInt_signExtend_of_le h

/-! ### Flags -/

theorem flagZ_eq {rw : Nat} (x : BitVec rw) : flagZ x = decide (x.toNat = 0) := rfl

theorem flagN_eq {rw : Nat} (x : BitVec rw) : flagN x = decide (2 ^ (rw - 1) ≤ x.toNat) := by
  unfold flagN
  rcases Nat.eq_zero_or_pos rw with h | h
  · subst h; simp [BitVec.eq_nil x]
  · rw [← BitVec.msb_eq_getLsbD_last, BitVec.msb_eq_decide]

theorem carryOut_eq {w t : Nat} : carryOut w t = decide (2 ^ w ≤ t) := by
  unfold carryOut
  rw [Bool.eq_iff_iff]
  simp only [bne_iff_ne, ne_eq, decide_eq_true_eq, Nat.div_eq_zero_iff]
  have : 0 < 2 ^ w := Nat.two_pow_pos w
  omega

/-- The top bit of an `m + 1`-bit pattern. -/
theorem extraBit_eq {m : Nat} (x : BitVec (m + 1)) : extraBit m x = decide (2 ^ m ≤ x.toNat) := by
  have := flagN_eq x
  simpa [flagN, extraBit] using this

/-- A successful completion in the terms of the claims. -/
theorem Block.succeed_eq_afterResult {c : Instance} {rw : Nat} (b : Block c) (x : BitVec rw) (k : Bool) :
    b.succeed x k = b.afterResult rw x.toNat k := by
  simp only [Block.succeed, Block.finish, Block.afterResult, Reg.load, Reg.holding, flagZ_eq, flagN_eq, zext_eq]

theorem Block.succeedWithRemainder_eq_afterDivision {c : Instance} (b : Block c) (q r : BitVec c.W) :
    b.succeedWithRemainder q r false = b.afterDivision q.toNat r.toNat := by
  simp only [Block.succeedWithRemainder, Block.afterDivision, Block.succeed_eq_afterResult, Reg.load, Reg.holding,
    BitVec.ofNat_toNat, BitVec.setWidth_eq]

end Sys2Proof.Machine
end

