-- ==== Sys2Proof/Laws/Arith.lean ====
section
/-! SUPPORT. What the multiplication loops compute, as numbers. -/

namespace Sys2Proof.Machine

/-- The residue modulo the next power of two, by the bit above. -/
theorem testBit_sum (x i : Nat) : x % 2 ^ (i + 1) = x % 2 ^ i + (x.testBit i).toNat * 2 ^ i := by
  rw [Nat.mod_pow_succ, Nat.testBit_eq_decide_div_mod_eq]
  rcases Nat.mod_two_eq_zero_or_one (x / 2 ^ i) with h | h <;> simp [h]

/-- After the multiplier's low `i` bits the schoolbook accumulator is the product by them. -/
theorem toNat_schoolbook {w v : Nat} (a : BitVec w) (b : BitVec v) (i : Nat) (hi : i ≤ v) :
    (schoolbook a b i).toNat = a.toNat * (b.toNat % 2 ^ i) := by
  induction i with
  | zero => simp [schoolbook, Nat.mod_one]
  | succ i ih =>
    have ih := ih (by omega)
    have hb : b.toNat % 2 ^ (i + 1) < 2 ^ v :=
      Nat.lt_of_lt_of_le (Nat.mod_lt _ (Nat.two_pow_pos _)) (Nat.pow_le_pow_right (by decide) hi)
    have hlt : a.toNat * (b.toNat % 2 ^ (i + 1)) < 2 ^ (w + v) := by
      rw [pow_add 2 w v]
      exact Nat.mul_lt_mul'' a.isLt hb
    rw [testBit_sum] at hlt ⊢
    simp only [schoolbook, BitVec.getLsbD]
    split
    · next h =>
      rw [uval, uval, ih, toNat_zext_of_le _ (by omega)]
      norm_cast
      rw [h, Bool.toNat_true, one_mul] at hlt ⊢
      rw [toNat_bitsOf_natCast, ← mul_add, Nat.mod_eq_of_lt hlt]
    · next h => rw [ih, Bool.eq_false_iff.mpr h]; simp

/-- The recursion multiplies, whatever the word size, the fuel and the width it is given. -/
theorem karatsuba_eq (wb fuel x y n : Nat) : karatsuba wb fuel x y n = x * y := by
  induction fuel generalizing x y n with
  | zero => rfl
  | succ fuel ih =>
    simp only [karatsuba, ih]
    split
    · rfl
    · generalize (n + 1) / 2 = h
      have hx := Nat.div_add_mod x (2 ^ h)
      have hy := Nat.div_add_mod y (2 ^ h)
      generalize x / 2 ^ h = xh at *
      generalize y / 2 ^ h = yh at *
      generalize x % 2 ^ h = xl at *
      generalize y % 2 ^ h = yl at *
      have hm : (xl + xh) * (yl + yh) - xl * yl - xh * yh = xl * yh + xh * yl := by
        have : (xl + xh) * (yl + yh) = xl * yl + (xl * yh + xh * yl) + xh * yh := by ring
        omega
      rw [hm, ← hx, ← hy, pow_mul']
      ring

/-- What the Booth scan of the low `i` bits has multiplied by: the low bits, less `2^i` if the last one is 1. -/
theorem booth_scan {n v : Nat} (m : BitVec n) (b : BitVec v) (i : Nat) :
    ((boothScan m b i).1.toNat : Int) ≡
      m.toNat * (((b.toNat % 2 ^ i : Nat) : Int) - (boothScan m b i).2.toNat * 2 ^ i) [ZMOD 2 ^ n] := by
  induction i with
  | zero => simp [boothScan, Nat.mod_one]
  | succ i ih =>
    rw [testBit_sum]
    have hb : b.toNat.testBit i = b.getLsbD i := rfl
    simp only [boothScan, hb]
    generalize (boothScan m b i).2 = prev at *
    generalize (boothScan m b i).1 = p at *
    push_cast
    cases b.getLsbD i <;> cases prev <;>
      simp only [boothStep, uval, toNat_bitsOf, Bool.toNat_true, Bool.toNat_false] at ih ⊢
    · simpa using ih
    · refine (residue_modEq _ _).trans ((ih.add_right _).trans ?_)
      exact congrArg (· % (2 : Int) ^ n) (by push_cast; ring)
    · refine (residue_modEq _ _).trans ((ih.sub_right _).trans ?_)
      exact congrArg (· % (2 : Int) ^ n) (by push_cast; ring)
    · exact ih.trans (congrArg (· % (2 : Int) ^ n) (by push_cast; ring))

theorem boothScan_snd {n v : Nat} (m : BitVec n) (b : BitVec v) (i : Nat) :
    (boothScan m b (i + 1)).2 = b.getLsbD i := rfl

/-- The whole scan multiplies by the signed multiplier; dropping the guard bit leaves the product's pattern. -/
theorem toNat_booth {w v : Nat} (a : BitVec w) (b : BitVec v) (hv : 1 ≤ v) :
    (booth a b).toNat = residue (w + v) (a.toInt * b.toInt) := by
  have h := booth_scan (sext (w + v + 1) a) b v
  have hb : ((b.toNat % 2 ^ v : Nat) : Int) - (boothScan (sext (w + v + 1) a) b v).2.toNat * 2 ^ v = b.toInt := by
    obtain ⟨k, rfl⟩ : ∃ k, v = k + 1 := ⟨v - 1, by omega⟩
    rw [boothScan_snd, Nat.mod_eq_of_lt b.isLt, BitVec.toInt_eq_msb_cond, BitVec.msb_eq_getLsbD_last]
    simp only [Nat.add_sub_cancel]
    cases b.getLsbD k <;> simp
  rw [hb] at h
  rw [booth, toNat_zext, ← residue_natCast]
  apply residue_eq_of_modEq
  have hd : (2 : Int) ^ (w + v) ∣ 2 ^ (w + v + 1) := pow_dvd_pow _ (by omega)
  have h1 := (toInt_modEq_toNat (sext (w + v + 1) a)).symm
  rw [toInt_sext _ (by omega)] at h1
  exact (h.trans (h1.mul_right _)).of_dvd hd

end Sys2Proof.Machine
end

