-- ==== Sys2Proof/Laws/Decode.lean ====
section
/-! SUPPORT. What the decoder can answer, and how the decoding of a program unrolls. -/

namespace Sys2Proof

theorem length_toBytes (k x : Nat) : (toBytes k x).length = k := by
  induction k generalizing x with
  | zero => rfl
  | succ k ih => simp [toBytes, ih]

theorem ofBytes_toBytes (k x : Nat) : ofBytes (toBytes k x) = x % 256 ^ k := by
  induction k generalizing x with
  | zero => simp [toBytes, ofBytes, Nat.mod_one]
  | succ k ih =>
    simp only [toBytes, ofBytes, ih, BitVec.toNat_ofNat]
    have h : (2 : Nat) ^ 8 = 256 := rfl
    rw [h, pow_succ', Nat.mod_mul (a := 256)]

theorem ofBytes_lt (bs : List Byte) : ofBytes bs < 256 ^ bs.length := by
  induction bs with
  | nil => simp [ofBytes]
  | cons b bs ih =>
    have := b.isLt
    simp only [ofBytes, List.length_cons, pow_succ]
    omega

theorem toBytes_ofBytes (bs : List Byte) : toBytes bs.length (ofBytes bs) = bs := by
  induction bs with
  | nil => rfl
  | cons b bs ih =>
    have hb : BitVec.ofNat 8 (b.toNat + 256 * ofBytes bs) = b := by
      apply BitVec.eq_of_toNat_eq
      have := b.isLt
      simp only [BitVec.toNat_ofNat]
      omega
    have hd : (b.toNat + 256 * ofBytes bs) / 256 = ofBytes bs := by
      have := b.isLt
      omega
    simp only [List.length_cons, ofBytes, toBytes, hb, hd, ih]

theorem Sel.ofCode_code (sel : Sel) : Sel.ofCode sel.code = sel := by
  cases sel <;> first | rfl | (rename_i k; revert k; decide)

theorem Sel.code_ofCode (c : BitVec 4) : (Sel.ofCode c).code = c := by
  revert c; decide

/-- What a header can decode to: a `poll`, a read, or a write with the data word that follows. -/
theorem decodeHeader_ok {ws : WordSize} {h : BitVec 32} {rest rest' : List Byte} {i : Instr}
    (hd : decodeHeader ws h rest = .ok i rest') :
    (i = .poll ∧ rest' = rest) ∨ (∃ sel idx, i = .rd sel idx ∧ rest' = rest) ∨
      ∃ sel idx, i = .wr sel idx (BitVec.ofNat 64 (ofBytes (rest.take ws.bytes))) ∧ ws.bytes ≤ rest.length ∧
        rest' = rest.drop ws.bytes := by
  unfold decodeHeader at hd
  dsimp only at hd
  split at hd
  · cases hd
  split at hd
  · split at hd
    · cases hd; exact .inl ⟨rfl, rfl⟩
    · cases hd
  split at hd
  · split at hd
    · cases hd
    · next hl => cases hd; exact .inr (.inr ⟨_, _, rfl, Nat.le_of_not_lt hl, rfl⟩)
  · cases hd; exact .inr (.inl ⟨_, _, rfl, rfl⟩)

/-- How many bytes of a program image a transaction takes (30_encoding.md R109). -/
def Instr.imageBytes (ws : WordSize) : Instr → Nat
  | .wr _ _ _ => headerBytes + ws.bytes
  | .rd _ _ | .poll => headerBytes
  | .nop | .clrerr | .add | .sub | .neg | .eaddu | .eadds | .esubu | .esubs | .mul | .smul | .kmul | .bmul | .bmuli
  | .divu | .divs | .sll | .srl | .sra | .rol | .ror | .rcl | .rcr => 1

/-- What the bytes of a program decode to: a transaction, and what is left is the bytes after it. -/
theorem decode_bus_ok {ws : WordSize} {bytes rest : List Byte} {i : Instr} (h : decode .bus ws bytes = .ok i rest) :
    i.form = .bus ∧ rest = bytes.drop (i.imageBytes ws) ∧ i.imageBytes ws ≤ bytes.length := by
  simp only [decode] at h
  split at h
  · cases h
  next hl =>
    simp only [headerBytes] at hl h
    rcases decodeHeader_ok h with ⟨rfl, rfl⟩ | ⟨sel, idx, rfl, rfl⟩ | ⟨sel, idx, rfl, hb, rfl⟩
    · exact ⟨rfl, rfl, Nat.le_of_not_lt hl⟩
    · exact ⟨rfl, rfl, Nat.le_of_not_lt hl⟩
    · rw [List.length_drop] at hb
      refine ⟨rfl, ?_, ?_⟩
      · simp only [List.drop_drop, Instr.imageBytes, headerBytes]
      · simp only [Instr.imageBytes, headerBytes]; omega

theorem decode_bus_shorter {ws : WordSize} {bytes rest : List Byte} {i : Instr}
    (h : decode .bus ws bytes = .ok i rest) : rest.length < bytes.length := by
  obtain ⟨hf, rfl, hl⟩ := decode_bus_ok h
  have : 4 ≤ i.imageBytes ws := by
    cases i <;> first | (cases hf; done) | simp [Instr.imageBytes, headerBytes]
  rw [List.length_drop]
  omega

/-- More fuel than bytes changes nothing. -/
theorem decodeProgramFrom_fuel {ws : WordSize} {fuel fuel' pos : Nat} {bytes : List Byte} (h : bytes.length ≤ fuel)
    (h' : bytes.length ≤ fuel') : decodeProgramFrom ws fuel pos bytes = decodeProgramFrom ws fuel' pos bytes := by
  induction fuel generalizing fuel' pos bytes with
  | zero =>
    obtain rfl : bytes = [] := List.length_eq_zero_iff.mp (Nat.le_zero.mp h)
    cases fuel' <;> rfl
  | succ fuel ih =>
    cases bytes with
    | nil => cases fuel' <;> rfl
    | cons b bs =>
      cases fuel' with
      | zero => simp at h'
      | succ fuel' =>
        simp only [decodeProgramFrom]
        cases hd : decode .bus ws (b :: bs) with
        | reject why => rfl
        | ok i rest =>
          have hs := decode_bus_shorter hd
          dsimp only
          rw [ih (fuel' := fuel') (by simp only [List.length_cons] at *; omega)
            (by simp only [List.length_cons] at *; omega)]

theorem decodeProgram_nil (ws : WordSize) (pos : Nat) : decodeProgram ws pos [] = .ok [] := rfl

/-- A program whose first transaction decodes is that transaction and the program after it. -/
theorem decodeProgram_of_ok {ws : WordSize} {pos : Nat} {bytes rest : List Byte} {i : Instr}
    (h : decode .bus ws bytes = .ok i rest) :
    decodeProgram ws pos bytes =
      match decodeProgram ws (pos + 1) rest with
      | .ok is => .ok (i :: is)
      | .bad p why => .bad p why := by
  have hs := decode_bus_shorter h
  cases bytes with
  | nil => simp at hs
  | cons b bs =>
    simp only [decodeProgram, List.length_cons, decodeProgramFrom, h]
    simp only [List.length_cons] at hs
    rw [decodeProgramFrom_fuel (fuel' := rest.length) (by omega) (le_refl _)]
    all_goals rfl

/-- A program whose first bytes do not decode is refused with the number given. -/
theorem decodeProgram_of_reject {ws : WordSize} {pos : Nat} {bytes : List Byte} {why : Reject} (hb : bytes ≠ [])
    (h : decode .bus ws bytes = .reject why) : decodeProgram ws pos bytes = .bad pos why := by
  cases bytes with
  | nil => exact absurd rfl hb
  | cons b bs => simp only [decodeProgram, List.length_cons, decodeProgramFrom, h]

/-- Where a program decodes to `i` and more, its first bytes do. -/
theorem decode_of_decodeProgram {ws : WordSize} {pos : Nat} {bytes : List Byte} {i : Instr} {is : List Instr}
    (h : decodeProgram ws pos bytes = .ok (i :: is)) :
    ∃ rest, decode .bus ws bytes = .ok i rest ∧ decodeProgram ws (pos + 1) rest = .ok is := by
  cases bytes with
  | nil => cases h
  | cons b bs =>
    cases hd : decode .bus ws (b :: bs) with
    | reject why => rw [decodeProgram_of_reject (by simp) hd] at h; cases h
    | ok j rest =>
      rw [decodeProgram_of_ok hd] at h
      split at h
      · next js hj => cases h; exact ⟨rest, rfl, hj⟩
      · cases h

end Sys2Proof
end

