-- ==== Sys2Proof/Laws/Ops.lean ====
section
/-! SUPPORT. What each shared operation can do: one lemma each that later proofs cite instead of unfolding it. -/

namespace Sys2Proof.Machine

/-! ### Completion -/

theorem State.complete_of_inflight {s : State} {f : Inflight s.cfg} (h : s.block.inflight = some f)
    (rule : Inflight s.cfg → Block s.cfg → Block s.cfg) :
    s.complete rule = .next (s.withBlock (rule f s.block)) := by
  simp only [State.complete, h, State.withBlock]

theorem State.complete_of_none {s : State} (h : s.block.inflight = none)
    (rule : Inflight s.cfg → Block s.cfg → Block s.cfg) : s.complete rule = .fault .nothingInFlight := by
  simp only [State.complete, h]

theorem State.complete_next {s t : State} {rule : Inflight s.cfg → Block s.cfg → Block s.cfg}
    (h : s.complete rule = .next t) :
    ∃ f, s.block.inflight = some f ∧ t = s.withBlock (rule f s.block) := by
  unfold State.complete at h
  split at h
  · cases h
  · next f hf => cases h; exact ⟨f, hf, rfl⟩

theorem sameWidth_of_eq {c : Instance} (h : c.W = c.V) (rule : Inflight c → Block c → Block c) (f : Inflight c)
    (b : Block c) : sameWidth rule f b = rule f b := if_pos h

theorem sameWidth_of_ne {c : Instance} (h : c.W ≠ c.V) (rule : Inflight c → Block c → Block c) (f : Inflight c)
    (b : Block c) : sameWidth rule f b = b.finish .illegalOpcode := if_neg h

/-- What the completion of a command can leave: an error or a control command's end, CLRERR's, a result, or a quotient
and a remainder. -/
inductive CompletedAs {c : Instance} (b : Block c) : Instr → Block c → Prop where
  | plain (i e) (h : e ≠ .none ∨ i = .nop) : CompletedAs b i (b.finish e)
  | cleared : CompletedAs b .clrerr (b.clearSticky.finish .none)
  | result (i) (rw : Nat) (x : BitVec rw) (k : Bool) (hw : 1 ≤ rw)
      (h : i ∈ [Instr.add, .sub, .neg, .eaddu, .eadds, .esubu, .esubs, .mul, .smul, .kmul, .bmul, .bmuli,
        .sll, .srl, .sra, .rol, .ror, .rcl, .rcr]) : CompletedAs b i (b.succeed x k)
  | quotient (i) (q r : BitVec c.W) (k : Bool) (h : i ∈ [Instr.divu, .divs]) :
      CompletedAs b i (b.succeedWithRemainder q r k)

theorem divideBy_as {c : Instance} (f : Inflight c) (b : Block c)
    (div : BitVec c.W → BitVec c.W → BitVec c.W × BitVec c.W) (i : Instr) (hi : i ∈ [Instr.divu, .divs]) :
    CompletedAs b i (divideBy f b div) := by
  unfold divideBy
  split
  · exact .plain _ _ (.inl (by decide))
  · exact .quotient _ _ _ _ hi

theorem sameWidth_as {c : Instance} {rule : Inflight c → Block c → Block c} {f : Inflight c} {b : Block c} {i : Instr}
    (h : CompletedAs b i (rule f b)) : CompletedAs b i (sameWidth rule f b) := by
  unfold sameWidth
  split
  · exact h
  · exact .plain _ _ (.inl (by decide))

/-- The meaning of every command is one completion. -/
theorem exec_eq_complete {s : State} {i : Instr} (hi : i.form = .cmd8) :
    ∃ rule, exec i s = s.complete rule := by
  cases i <;> first | (cases hi; done) | exact ⟨_, (by simp only [exec]; rfl)⟩

/-- A command with its snapshot in flight completes, in one of the ways of `CompletedAs`. -/
theorem exec_command {s : State} {i : Instr} {f : Inflight s.cfg} (hi : i.form = .cmd8)
    (hf : s.block.inflight = some f) :
    ∃ b, exec i s = .next (s.withBlock b) ∧ CompletedAs s.block i b := by
  have hw := s.cfg.W_pos
  have hwv := s.cfg.W_add_V_pos
  have hm := s.cfg.M_pos
  cases i <;> first | (cases hi; done) | skip
  all_goals
    simp only [exec, execNop, execClrerr, execAdd, execSub, execNeg, execEaddu, execEadds, execEsubu, execEsubs,
      execMul, execSmul, execKmul, execBmul, execBmuli, execDivu, execDivs, execSll, execSrl, execSra, execRol,
      execRor, execRcl, execRcr, State.complete_of_inflight hf]
    refine ⟨_, rfl, ?_⟩
  case nop => exact .plain _ _ (.inr rfl)
  case clrerr => exact .cleared
  case divu => exact sameWidth_as (divideBy_as _ _ _ _ (by decide))
  case divs => exact sameWidth_as (divideBy_as _ _ _ _ (by decide))
  case add => exact sameWidth_as (.result _ _ _ _ hw (by decide))
  case sub => exact sameWidth_as (.result _ _ _ _ hw (by decide))
  case mul => exact sameWidth_as (.result _ _ _ _ hw (by decide))
  case kmul => exact sameWidth_as (.result _ _ _ _ (by omega) (by decide))
  case eaddu => exact .result _ _ _ _ (by omega) (by decide)
  case eadds => exact .result _ _ _ _ (by omega) (by decide)
  case esubu => exact .result _ _ _ _ hm (by decide)
  case esubs => exact .result _ _ _ _ hm (by decide)
  case smul => exact .result _ _ _ _ hwv (by decide)
  case bmul => exact .result _ _ _ _ hwv (by decide)
  case bmuli => exact .result _ _ _ _ hwv (by decide)
  all_goals exact .result _ _ _ _ hw (by decide)

/-- A command's meaning with nothing in flight has no step. -/
theorem exec_command_of_none {s : State} {i : Instr} (hi : i.form = .cmd8) (h : s.block.inflight = none) :
    exec i s = .fault .nothingInFlight := by
  obtain ⟨rule, hr⟩ := exec_eq_complete (s := s) hi
  rw [hr, State.complete_of_none h]

/-! ### Register access -/

/-- What a read of a register word can do: return some word, use at most one free value and record at most that the
word is unwritten. -/
theorem State.access_as {n : Nat} (s : State) (r : Reg s.cfg.WB n) (sel : Sel) (idx : BitVec 24) :
    ∃ (d : BitVec s.cfg.WB) (k : Nat) (ms : List ModelFault),
      s.access r sel idx = { s with
        host := { s.host with reads := s.host.reads ++ [d] }
        env := { s.env with fresh := k, modelFaults := s.env.modelFaults ++ ms } } ∧
      (ms = [] ∨ (r.isWritten idx.toNat = false ∧ ms = [.unwrittenWord sel idx])) := by
  unfold State.access
  split
  · exact ⟨_, s.env.fresh, [], by simp only [List.append_nil]; rfl, .inl rfl⟩
  · next h => exact ⟨_, _, [.unwrittenWord sel idx], rfl, .inr ⟨by simpa using h, rfl⟩⟩

/-- The same of a word of R0 or R1, at any time. -/
theorem State.accessResult_as {n : Nat} (s : State) (r : Reg s.cfg.WB n) (sel : Sel) (idx : BitVec 24) :
    ∃ (d : BitVec s.cfg.WB) (k : Nat) (ms : List ModelFault),
      s.accessResult r sel idx = { s with
        host := { s.host with reads := s.host.reads ++ [d] }
        env := { s.env with fresh := k, modelFaults := s.env.modelFaults ++ ms } } ∧
      (ms = [] ∨ (r.isWritten idx.toNat = false ∧ ms = [.unwrittenWord sel idx])) := by
  unfold State.accessResult
  split
  · dsimp only
    split
    · exact ⟨_, _, [], by simp only [List.append_nil]; rfl, .inl rfl⟩
    · next h => exact ⟨_, _, [.unwrittenWord sel idx], rfl, .inr ⟨by simpa using h, rfl⟩⟩
  · exact s.access_as r sel idx

/-- What a host read can do: it returns some word, after setting at most OOR and ACC, uses at most one free value and
records at most that the word is unwritten. -/
theorem State.memRead_as (s : State) (sel : Sel) (idx : BitVec 24) :
    ∃ (x y : Bool) (d : BitVec s.cfg.WB) (k : Nat) (ms : List ModelFault),
      s.memRead sel idx = { s with
        block := { s.block with status := { s.block.status with oor := x, acc := y } }
        host := { s.host with reads := s.host.reads ++ [d] }
        env := { s.env with fresh := k, modelFaults := s.env.modelFaults ++ ms } } ∧
      (x = true ↔ s.block.status.oor = true ∨ validAddr s.cfg sel idx = false) ∧
      (y = true ↔ s.block.status.acc = true ∨ (sel = .cmd ∧ validAddr s.cfg sel idx = true)) ∧
      (ms = [] ∨ (s.block.writtenAt sel idx.toNat = false ∧ ms = [.unwrittenWord sel idx])) := by
  unfold State.memRead
  split
  · next hv =>
    cases sel
    case status =>
      exact ⟨s.block.status.oor, s.block.status.acc, _, s.env.fresh, [], by simp only [List.append_nil]; rfl,
        by simp [hv], by simp, .inl rfl⟩
    case cmd =>
      exact ⟨s.block.status.oor, true, _, s.env.fresh, [], by simp only [List.append_nil]; rfl, by simp [hv],
        by simp [hv], .inl rfl⟩
    case reserved k => exact absurd hv (by simp [validAddr, selWords])
    case r0 =>
      obtain ⟨d, k, ms, he, hm⟩ := s.accessResult_as s.block.R0 .r0 idx
      exact ⟨s.block.status.oor, s.block.status.acc, d, k, ms, he, by simp [hv], by simp, hm⟩
    case r1 =>
      obtain ⟨d, k, ms, he, hm⟩ := s.accessResult_as s.block.R1 .r1 idx
      exact ⟨s.block.status.oor, s.block.status.acc, d, k, ms, he, by simp [hv], by simp, hm⟩
    case a =>
      obtain ⟨d, k, ms, he, hm⟩ := s.access_as s.block.A .a idx
      exact ⟨s.block.status.oor, s.block.status.acc, d, k, ms, he, by simp [hv], by simp, hm⟩
    case b =>
      obtain ⟨d, k, ms, he, hm⟩ := s.access_as s.block.B .b idx
      exact ⟨s.block.status.oor, s.block.status.acc, d, k, ms, he, by simp [hv], by simp, hm⟩
    case s =>
      obtain ⟨d, k, ms, he, hm⟩ := s.access_as s.block.S .s idx
      exact ⟨s.block.status.oor, s.block.status.acc, d, k, ms, he, by simp [hv], by simp, hm⟩
    case cin =>
      obtain ⟨d, k, ms, he, hm⟩ := s.access_as s.block.CIN .cin idx
      exact ⟨s.block.status.oor, s.block.status.acc, d, k, ms, he, by simp [hv], by simp, hm⟩
  · next hv =>
    exact ⟨true, s.block.status.acc, _, s.env.fresh, [], by simp only [List.append_nil]; rfl, by simp [hv],
      by simp [hv], .inl rfl⟩

/-- The ways a host write can leave the block. -/
inductive WrittenAs (s : State) (sel : Sel) (idx : BitVec 24) (d : BitVec s.cfg.WB) : State → Prop where
  | a (h : sel = .a) (v : validAddr s.cfg sel idx = true) :
      WrittenAs s sel idx d (s.withBlock { s.block with A := s.block.A.setWord idx.toNat d })
  | b (h : sel = .b) (v : validAddr s.cfg sel idx = true) :
      WrittenAs s sel idx d (s.withBlock { s.block with B := s.block.B.setWord idx.toNat d })
  | s (h : sel = .s) (v : validAddr s.cfg sel idx = true) :
      WrittenAs s sel idx d (s.withBlock { s.block with S := s.block.S.setWord idx.toNat d })
  | cin (h : sel = .cin) (v : validAddr s.cfg sel idx = true) :
      WrittenAs s sel idx d (s.withBlock { s.block with CIN := s.block.CIN.setWord idx.toNat d })
  | readOnly (h : sel ∈ [Sel.r0, .r1, .status]) (v : validAddr s.cfg sel idx = true) :
      WrittenAs s sel idx d (s.withBlock s.block.setAcc)
  | invalid (v : validAddr s.cfg sel idx = false) : WrittenAs s sel idx d (s.withBlock s.block.setOor)
  | dropped (h : sel = .cmd) (v : validAddr s.cfg sel idx = true) (busy : s.block.status.busy = true) :
      WrittenAs s sel idx d (s.withBlock s.block.setBsy)
  | accepted (h : sel = .cmd) (v : validAddr s.cfg sel idx = true) (busy : s.block.status.busy = false) :
      WrittenAs s sel idx d (s.accept (d.setWidth 8))

theorem State.memWrite_as (s : State) (sel : Sel) (idx : BitVec 24) (d : BitVec s.cfg.WB) :
    WrittenAs s sel idx d (s.memWrite sel idx d) := by
  unfold State.memWrite
  split
  · next hv =>
    cases sel
    case a => exact .a rfl hv
    case b => exact .b rfl hv
    case s => exact .s rfl hv
    case cin => exact .cin rfl hv
    case r0 => exact .readOnly (by decide) hv
    case r1 => exact .readOnly (by decide) hv
    case status => exact .readOnly (by decide) hv
    case reserved k => exact absurd hv (by simp [validAddr, selWords])
    case cmd =>
      simp only [State.present]
      split
      · next hb => exact .dropped rfl hv hb
      · next hb => exact .accepted rfl hv (by simpa using hb)
  · next hv => exact .invalid (by simpa using hv)

/-- A host transaction always answers a next state. -/
theorem exec_transaction {s : State} {i : Instr} (hi : i.form = .bus) : ∃ t, exec i s = .next t := by
  cases i <;> first | (cases hi; done) | skip
  case rd => exact ⟨_, rfl⟩
  case wr => exact ⟨_, rfl⟩
  case poll =>
    simp only [exec, execPoll]
    split
    · exact ⟨_, rfl⟩
    · exact ⟨_, rfl⟩

end Sys2Proof.Machine
end

