-- ==== Sys2Proof/Laws/PerInstr.lean ====
section
/-! SUPPORT. Statements for all instructions, one lemma per constructor. `EncodedLength`: an instruction's encoding is
as long as its form says (spec/30_encoding.md R101, R103, R109). -/

namespace Sys2Proof.Laws.EncodedLength

/-- A command is one byte; a `rd` or `poll` is its header; a `wr` is its header and a data word. -/
def Statement (i : Instr) : Prop := ∀ ws : WordSize, (encode ws i).length = i.imageBytes ws

theorem nop : Statement .nop := fun _ => rfl
theorem clrerr : Statement .clrerr := fun _ => rfl
theorem add : Statement .add := fun _ => rfl
theorem sub : Statement .sub := fun _ => rfl
theorem neg : Statement .neg := fun _ => rfl
theorem eaddu : Statement .eaddu := fun _ => rfl
theorem eadds : Statement .eadds := fun _ => rfl
theorem esubu : Statement .esubu := fun _ => rfl
theorem esubs : Statement .esubs := fun _ => rfl
theorem mul : Statement .mul := fun _ => rfl
theorem smul : Statement .smul := fun _ => rfl
theorem kmul : Statement .kmul := fun _ => rfl
theorem bmul : Statement .bmul := fun _ => rfl
theorem bmuli : Statement .bmuli := fun _ => rfl
theorem divu : Statement .divu := fun _ => rfl
theorem divs : Statement .divs := fun _ => rfl
theorem sll : Statement .sll := fun _ => rfl
theorem srl : Statement .srl := fun _ => rfl
theorem sra : Statement .sra := fun _ => rfl
theorem rol : Statement .rol := fun _ => rfl
theorem ror : Statement .ror := fun _ => rfl
theorem rcl : Statement .rcl := fun _ => rfl
theorem rcr : Statement .rcr := fun _ => rfl
theorem rd (sel : Sel) (idx : BitVec 24) : Statement (.rd sel idx) := fun _ => length_toBytes _ _
theorem wr (sel : Sel) (idx : BitVec 24) (data : BitVec 64) : Statement (.wr sel idx data) := fun _ => by
  simp only [encode, List.length_append, length_toBytes, Instr.imageBytes]
theorem poll : Statement .poll := fun _ => length_toBytes _ _

end Sys2Proof.Laws.EncodedLength
end

