-- ==== Sys2Proof/Laws/Step.lean ====
section
/-! SUPPORT. What a turn is and what a step can do, said once: every way a step can answer a next state. -/

namespace Sys2Proof.Machine

/-! ### Turns -/

/-- The host's turn: no reset, its program decodes to `i` first, and either nothing is in flight or the command in
flight has transactions left and `i` does not wait. -/
theorem State.turn_host {s : State} {i : Instr} (h : s.turn = .host i) :
    s.env.resetLine = false ∧ (s.block.inflight = none ∨ (0 < s.env.delay ∧ i ≠ .poll)) ∧
      ∃ rest is, decode .bus s.cfg.wordSize s.host.program = .ok i rest ∧
        decodeProgram s.cfg.wordSize (s.host.pos + 1) rest = .ok is := by
  unfold State.turn at h
  cases hr : s.env.resetLine
  case true => simp [hr] at h
  simp only [hr, Bool.false_eq_true, if_false] at h
  refine ⟨rfl, ?_⟩
  split at h
  · unfold turnInFlight at h
    split at h
    · cases h
    · next n hd =>
      split at h
      · cases h
      · cases h
      · cases h
      · next j js hp hj =>
        cases h
        exact ⟨.inr ⟨by omega, hp⟩, let ⟨rest, h1, h2⟩ := decode_of_decodeProgram hj; ⟨rest, js, h1, h2⟩⟩
  · next hf =>
    unfold turnIdle at h
    split at h
    · cases h
    · cases h
    · next js hj =>
      cases h
      exact ⟨.inl hf, let ⟨rest, h1, h2⟩ := decode_of_decodeProgram hj; ⟨rest, js, h1, h2⟩⟩

/-- The block's turn: no reset, and a command in flight with that opcode. -/
theorem State.turn_block {s : State} {op : BitVec 8} (h : s.turn = .block op) :
    s.env.resetLine = false ∧ ∃ f, s.block.inflight = some f ∧ f.op = op := by
  unfold State.turn at h
  cases hr : s.env.resetLine
  case true => simp [hr] at h
  simp only [hr, Bool.false_eq_true, if_false] at h
  refine ⟨rfl, ?_⟩
  split at h
  · next f hf =>
    refine ⟨f, hf, ?_⟩
    unfold turnInFlight at h
    split at h
    · cases h; rfl
    · split at h <;> cases h <;> rfl
  · unfold turnIdle at h
    split at h <;> cases h

/-- A rested run: no reset, nothing in flight, no program left. -/
theorem State.turn_idle {s : State} (h : s.turn = .idle) :
    s.env.resetLine = false ∧ s.block.inflight = none := by
  unfold State.turn at h
  cases hr : s.env.resetLine
  case true => simp [hr] at h
  simp only [hr, Bool.false_eq_true, if_false] at h
  refine ⟨rfl, ?_⟩
  split at h
  · unfold turnInFlight at h
    split at h
    · cases h
    · split at h <;> cases h
  · next hf => exact hf

theorem State.turn_reset {s : State} (h : s.turn = .reset) : s.env.resetLine = true := by
  unfold State.turn at h
  cases hr : s.env.resetLine
  case true => rfl
  simp only [hr, Bool.false_eq_true, if_false] at h
  split at h
  · unfold turnInFlight at h
    split at h
    · cases h
    · split at h <;> cases h
  · unfold turnIdle at h
    split at h <;> cases h

/-! ### Steps -/

/-- Every command of the opcode map is a command. -/
theorem decodeOpcode_form {op : BitVec 8} {i : Instr} (h : decodeOpcode op = some i) : i.form = .cmd8 := by
  have : ∀ op : BitVec 8, ∀ i ∈ decodeOpcode op, i.form = .cmd8 := by decide
  exact this op i h

/-- The ways a step answers a next state: the reset; the completion of the command in flight, known or not; a read, a
poll or a write of the host; a run that rests. -/
inductive SteppedAs (s : State) : State → Prop where
  | reset (h : s.env.resetLine = true) : SteppedAs s s.applyReset
  | completed (f : Inflight s.cfg) (i : Instr) (b : Block s.cfg) (h : s.env.resetLine = false)
      (hf : s.block.inflight = some f) (hi : decodeOpcode f.op = some i) (hb : CompletedAs s.block i b) :
      SteppedAs s (s.withBlock b)
  | unassigned (f : Inflight s.cfg) (h : s.env.resetLine = false) (hf : s.block.inflight = some f)
      (hi : decodeOpcode f.op = none) : SteppedAs s (s.withBlock (s.block.raise .illegalOpcode))
  | read (sel : Sel) (idx : BitVec 24) (h : s.turn = .host (.rd sel idx)) :
      SteppedAs s ((s.retire headerBytes).memRead sel idx)
  | waits (h : s.turn = .host .poll) (hb : s.block.status.busy = true) : SteppedAs s s
  | polled (h : s.turn = .host .poll) (hb : s.block.status.busy = false) :
      SteppedAs s ((s.retire headerBytes).memRead .status 0#24)
  | written (sel : Sel) (idx : BitVec 24) (data : BitVec 64) (t : State) (h : s.turn = .host (.wr sel idx data))
      (hw : WrittenAs (s.retire (headerBytes + s.cfg.wordSize.bytes)) sel idx (data.setWidth s.cfg.WB) t) :
      SteppedAs s t
  | rests (h : s.turn = .idle) : SteppedAs s s

theorem step_next {s t : State} (h : step s = .next t) : SteppedAs s t := by
  unfold step at h
  split at h
  · next ht => cases h; exact .reset (State.turn_reset ht)
  · next op ht =>
    obtain ⟨hr, f, hf, rfl⟩ := State.turn_block ht
    split at h
    · next i hi =>
      obtain ⟨b, he, hb⟩ := exec_command (decodeOpcode_form hi) hf
      rw [he] at h
      cases h
      exact .completed f i b hr hf hi hb
    · next hi =>
      rw [State.completeUnassigned, State.complete_of_inflight hf] at h
      cases h
      exact .unassigned f hr hf hi
  · next i ht =>
    obtain ⟨_, _, rest, _, hd, _⟩ := State.turn_host ht
    have hform := (decode_bus_ok hd).1
    cases i <;> first | (cases hform; done) | skip
    case rd => cases h; exact .read _ _ ht
    case wr => cases h; exact .written _ _ _ _ ht (State.memWrite_as _ _ _ _)
    case poll =>
      simp only [exec, execPoll] at h
      split at h
      · next hb => cases h; exact .waits ht hb
      · next hb => cases h; exact .polled ht (by simpa using hb)
  · next ht => cases h; exact .rests ht
  · cases h

end Sys2Proof.Machine
end

