-- ==== Sys2Proof/Laws/Words.lean ====
section
/-! SUPPORT. The word view of a register: what writing a word, loading a value and capturing an operand do to each word
and each bit. -/

namespace Sys2Proof.Machine

/-! ### Bits -/

theorem getLsbD_wordOf {n : Nat} (wb : Nat) (v : BitVec n) (j i : Nat) :
    (wordOf wb v j).getLsbD i = (decide (i < wb) && v.getLsbD (j * wb + i)) := by
  rw [wordOf, BitVec.getLsbD_extractLsb']

theorem getLsbD_wordField (wb n j i : Nat) :
    (wordField wb n j).getLsbD i = (decide (i < n) && decide (j * wb ≤ i) && decide (i < (j + 1) * wb)) := by
  rw [Bool.eq_iff_iff]
  have : (j + 1) * wb = j * wb + wb := by ring
  simp only [wordField, BitVec.getLsbD_shiftLeft, BitVec.getLsbD_setWidth, BitVec.getLsbD_allOnes, Bool.and_eq_true,
    Bool.not_eq_true', decide_eq_true_eq, decide_eq_false_iff_not]
  omega

/-- The mask of word `j` is the bits that the register has there (20_memory.md R72). -/
theorem getLsbD_wordMask {wb n j : Nat} (hwb : 0 < wb) (hj : j < nw wb n) (i : Nat) :
    (wordMask wb n j).getLsbD i = (decide (i < wb) && decide (j * wb + i < n)) := by
  unfold wordMask
  split
  · next h =>
    have h2 := succ_mul_le_of_lt hwb h
    have : (j + 1) * wb = j * wb + wb := by ring
    rw [Bool.eq_iff_iff]
    simp only [BitVec.getLsbD_allOnes, Bool.and_eq_true, decide_eq_true_eq]
    omega
  · next h =>
    obtain rfl : j = nw wb n - 1 := by omega
    have := mul_lt_of_lt_nw hwb hj
    rw [BitVec.getLsbD_ofNat, Nat.testBit_two_pow_sub_one, Bool.eq_iff_iff]
    simp only [Bool.and_eq_true, decide_eq_true_eq]
    omega

/-- What is cut to the mask of word `j` has no bit that the register does not have there. -/
theorem toNat_and_wordMask_lt {wb n j : Nat} (hwb : 0 < wb) (hj : j < nw wb n) (d : BitVec wb) :
    (d &&& wordMask wb n j).toNat < 2 ^ (n - j * wb) := by
  apply Nat.lt_pow_two_of_testBit
  intro i hi
  have h := getLsbD_wordMask hwb hj i
  rw [decide_eq_false (p := j * wb + i < n) (by omega), Bool.and_false] at h
  show (d &&& wordMask wb n j).getLsbD i = false
  rw [BitVec.getLsbD_and, h, Bool.and_false]

/-- Bit `i` of a register stands in word `i / wb`. -/
theorem getLsbD_of_word {wb n : Nat} (hwb : 0 < wb) (r : Reg wb n) (i : Nat) :
    r.val.getLsbD i = (r.word (i / wb)).getLsbD (i % wb) := by
  rw [Reg.word, getLsbD_wordOf, decide_eq_true (Nat.mod_lt _ hwb), Bool.true_and, Nat.mul_comm, Nat.div_add_mod]

/-! ### Writing a word -/

theorem Reg.getLsbD_setWord {wb n j : Nat} (hwb : 0 < wb) (hj : j < nw wb n) (r : Reg wb n) (d : BitVec wb) (i : Nat) :
    (r.setWord j d).val.getLsbD i =
      if j * wb ≤ i ∧ i < (j + 1) * wb then (decide (i < n) && d.getLsbD (i - j * wb)) else r.val.getLsbD i := by
  have he : (j + 1) * wb = j * wb + wb := by ring
  by_cases hn : i < n
  · simp only [Reg.setWord, BitVec.getLsbD_or, BitVec.getLsbD_and, BitVec.getLsbD_not, getLsbD_wordField,
      BitVec.getLsbD_shiftLeft, BitVec.getLsbD_setWidth, getLsbD_wordMask hwb hj]
    split
    · next h =>
      have h1 : i - j * wb < wb := by omega
      have h3 : i - j * wb < n := by omega
      have h4 : ¬ i < j * wb := by omega
      simp [hn, h.1, h.2, h1, h3, h4]
    · next h =>
      by_cases hb : i < j * wb
      · simp [hn, hb, show ¬ j * wb ≤ i by omega]
      · have h1 : ¬ i < (j + 1) * wb := by omega
        have h2 : ¬ i - j * wb < wb := by omega
        simp [hn, hb, h1, h2]
  · rw [BitVec.getLsbD_of_ge _ _ (Nat.le_of_not_lt hn), BitVec.getLsbD_of_ge _ _ (Nat.le_of_not_lt hn)]
    simp [hn]

/-- The word written is the data cut to the bits the register has there. -/
theorem Reg.getLsbD_setWord_word {wb n j : Nat} (hwb : 0 < wb) (hj : j < nw wb n) (r : Reg wb n) (d : BitVec wb)
    (i : Nat) : ((r.setWord j d).word j).getLsbD i = (decide (j * wb + i < n) && d.getLsbD i) := by
  rw [Reg.word, getLsbD_wordOf, Reg.getLsbD_setWord hwb hj]
  by_cases hi : i < wb
  · rw [if_pos ⟨by omega, by have : (j + 1) * wb = j * wb + wb := by ring
                             omega⟩]
    simp [hi]
  · rw [BitVec.getLsbD_of_ge d i (by omega)]; simp [hi]

/-- Every other word is as it was. -/
theorem Reg.setWord_word_of_ne {wb n j k : Nat} (hwb : 0 < wb) (hj : j < nw wb n) (h : k ≠ j) (r : Reg wb n)
    (d : BitVec wb) : (r.setWord j d).word k = r.word k := by
  apply BitVec.eq_of_getLsbD_eq
  intro i hi
  rw [Reg.word, Reg.word, getLsbD_wordOf, getLsbD_wordOf, Reg.getLsbD_setWord hwb hj, if_neg]
  rintro ⟨h1, h2⟩
  rcases Nat.lt_or_gt_of_ne h with hk | hk
  · have : (k + 1) * wb ≤ j * wb := Nat.mul_le_mul_right _ hk
    have : (k + 1) * wb = k * wb + wb := by ring
    omega
  · have : (j + 1) * wb ≤ k * wb := Nat.mul_le_mul_right _ hk
    omega

theorem Reg.isWritten_setWord {wb n j : Nat} (hj : j < nw wb n) (r : Reg wb n) (d : BitVec wb) (k : Nat) :
    (r.setWord j d).isWritten k = (r.isWritten k || decide (k = j)) := by
  simp only [Reg.setWord, Reg.isWritten, BitVec.getLsbD_or, BitVec.getLsbD_twoPow, hj, decide_true, Bool.true_and]
  rw [decide_eq_decide.mpr eq_comm]

theorem Reg.isWritten_load {n : Nat} (wb : Nat) (v : BitVec n) (j : Nat) :
    (Reg.load wb v).isWritten j = decide (j < nw wb n) := by
  simp [Reg.load, Reg.isWritten]

/-! ### Capturing an operand -/

theorem Reg.getLsbD_writtenBits {wb n : Nat} (hwb : 0 < wb) (r : Reg wb n) (k i : Nat) :
    (r.writtenBits k).getLsbD i = (decide (i < n) && decide (i / wb < k) && r.isWritten (i / wb)) := by
  induction k with
  | zero => simp [Reg.writtenBits]
  | succ k ih =>
    have hdiv : (k * wb ≤ i ∧ i < (k + 1) * wb) ↔ i / wb = k := by
      rw [Nat.div_eq_iff hwb, Nat.add_mul, Nat.one_mul]
      omega
    simp only [Reg.writtenBits, BitVec.getLsbD_or, ih]
    by_cases hk : i / wb = k
    · obtain ⟨h1, h2⟩ := hdiv.mpr hk
      rw [hk]
      split
      · next hw => simp [getLsbD_wordField, h1, h2, hw]
      · next hw => simp [Bool.eq_false_iff.mpr hw]
    · have hf : (if r.isWritten k then wordField wb n k else 0#n).getLsbD i = false := by
        split
        · rw [getLsbD_wordField]
          have := mt hdiv.mp hk
          simp only [Bool.and_eq_false_iff, decide_eq_false_iff_not]
          tauto
        · simp
      rw [hf, Bool.or_false]
      have : (i / wb < k + 1) ↔ i / wb < k := by omega
      simp [this]

/-- A written word is captured as it stands. -/
theorem Reg.wordOf_capture {wb n j : Nat} (hwb : 0 < wb) {r : Reg wb n} (h : r.isWritten j = true) (free : Nat) :
    wordOf wb (r.capture free) j = r.word j := by
  apply BitVec.eq_of_getLsbD_eq
  intro i hi
  rw [Reg.word, getLsbD_wordOf, getLsbD_wordOf]
  by_cases hn : j * wb + i < n
  · have hd : (j * wb + i) / wb = j := by rw [Nat.mul_comm, Nat.mul_add_div hwb, Nat.div_eq_of_lt hi, Nat.add_zero]
    have hj := div_lt_nw hwb hn
    rw [hd] at hj
    simp only [Reg.capture, BitVec.getLsbD_or, BitVec.getLsbD_and, BitVec.getLsbD_not, Reg.getLsbD_writtenBits hwb, hn,
      hd, hj, h]
    simp
  · rw [BitVec.getLsbD_of_ge _ _ (Nat.le_of_not_lt hn), BitVec.getLsbD_of_ge _ _ (Nat.le_of_not_lt hn)]

/-- A register with every word written is captured as its value. -/
theorem Reg.capture_of_full {wb n : Nat} (hwb : 0 < wb) {r : Reg wb n} (h : r.full = true) (free : Nat) :
    r.capture free = r.val := by
  apply BitVec.eq_of_getLsbD_eq
  intro i hi
  have hj := div_lt_nw hwb hi
  have hw : r.isWritten (i / wb) = true := by
    simp only [Reg.full, beq_iff_eq] at h
    rw [Reg.isWritten, h, BitVec.getLsbD_allOnes, decide_eq_true hj]
  simp only [Reg.capture, BitVec.getLsbD_or, BitVec.getLsbD_and, BitVec.getLsbD_not, Reg.getLsbD_writtenBits hwb, hi, hj,
    hw]
  simp

/-! ### STATUS -/

/-- The fields of STATUS at their bits (10_state.md R38). -/
theorem Status.toNat_bits (t : Status) : t.bits.toNat = t.number := by
  obtain ⟨b, d, c, z, n, e, o, a, y⟩ := t
  cases e <;> cases b <;> cases d <;> cases c <;> cases z <;> cases n <;> cases o <;> cases a <;> cases y <;> rfl

end Sys2Proof.Machine
end

