-- ==== Sys2Proof/Tests/Slice0.lean ====
section
/-! SUPPORT. Tests, each of one step on a small state; expected results are those of spec/95_test_vectors.md and of the
examples in the rules, and the words are written out from the tables of spec/30_encoding.md. After them, for each
obligation that has hypotheses, states and operands that meet them. -/

open Sys2Proof Sys2Proof.Machine

namespace Sys2Proof.Tests

/-! ### Instances and states -/

def i1 : Instance :=
  { W := 1, V := 1, wordSize := .w8, SW := 1, W_pos := by decide, V_pos := by decide
    SW_pos := by decide, SW_le := by decide, index_fits := by decide }

def i4 : Instance :=
  { W := 4, V := 4, wordSize := .w8, SW := 8, W_pos := by decide, V_pos := by decide
    SW_pos := by decide, SW_le := by decide, index_fits := by decide }

def i8 : Instance :=
  { W := 8, V := 8, wordSize := .w8, SW := 8, W_pos := by decide, V_pos := by decide
    SW_pos := by decide, SW_le := by decide, index_fits := by decide }

def i8x16 : Instance :=
  { W := 8, V := 8, wordSize := .w16, SW := 8, W_pos := by decide, V_pos := by decide
    SW_pos := by decide, SW_le := by decide, index_fits := by decide }

def i12 : Instance :=
  { W := 12, V := 12, wordSize := .w8, SW := 8, W_pos := by decide, V_pos := by decide
    SW_pos := by decide, SW_le := by decide, index_fits := by decide }

def i16 : Instance :=
  { W := 16, V := 16, wordSize := .w8, SW := 8, W_pos := by decide, V_pos := by decide
    SW_pos := by decide, SW_le := by decide, index_fits := by decide }

def i16x8 : Instance :=
  { W := 16, V := 8, wordSize := .w8, SW := 8, W_pos := by decide, V_pos := by decide
    SW_pos := by decide, SW_le := by decide, index_fits := by decide }

def i8by16 : Instance :=
  { W := 8, V := 16, wordSize := .w8, SW := 8, W_pos := by decide, V_pos := by decide
    SW_pos := by decide, SW_le := by decide, index_fits := by decide }

def i16w64 : Instance :=
  { W := 16, V := 16, wordSize := .w64, SW := 8, W_pos := by decide, V_pos := by decide
    SW_pos := by decide, SW_le := by decide, index_fits := by decide }

def i32 : Instance :=
  { W := 32, V := 32, wordSize := .w8, SW := 8, W_pos := by decide, V_pos := by decide
    SW_pos := by decide, SW_le := by decide, index_fits := by decide }

def i64 : Instance :=
  { W := 64, V := 64, wordSize := .w8, SW := 8, W_pos := by decide, V_pos := by decide
    SW_pos := by decide, SW_le := by decide, index_fits := by decide }

abbrev snap (c : Instance) (op : BitVec 8) (a b s k : Nat) : Inflight c :=
  { op := op, A := BitVec.ofNat _ a, B := BitVec.ofNat _ b, S := BitVec.ofNat _ s, CIN := BitVec.ofNat _ k }

/-- A block with R0 = 5, R1 = 6 and the flags given, idle after a completed command. -/
def resting (c : Instance) (fc fz fn : Bool) : Block c :=
  { Block.reset c with
    R0 := Reg.load _ (BitVec.ofNat _ 5), R1 := Reg.load _ (BitVec.ofNat _ 6)
    status := { Status.reset with done := true, c := fc, z := fz, n := fn } }

/-- The same block with every operand register written. -/
def ready (c : Instance) (a b s k : Nat) : Block c :=
  { resting c false false false with
    A := Reg.load _ (BitVec.ofNat _ a), B := Reg.load _ (BitVec.ofNat _ b), S := Reg.load _ (BitVec.ofNat _ s)
    CIN := Reg.load _ (BitVec.ofNat _ k) }

abbrev machine (c : Instance) (b : Block c) (program : List Byte) (delay : Nat) : State :=
  { cfg := c, block := b, host := { program := program, pos := 0, reads := [] }
    env := { fresh := 0, delay := delay, latencies := [], resetLine := false, modelFaults := [] } }

/-- A block with a command in flight. -/
def busy {c : Instance} (b : Block c) (f : Inflight c) : Block c :=
  { b with inflight := some f, status := { b.status with busy := true, done := false } }

/-- A command in flight with this snapshot, due, the flags set before it. -/
abbrev flying (c : Instance) (op : BitVec 8) (a b s k : Nat) : State :=
  machine c (busy (resting c true true false) (snap c op a b s k)) [] 0

abbrev idle (c : Instance) : State := machine c (ready c 0x1234 0x78 4 1) [] 0

/-- R0, R1, C, Z, N and ERR after a step. -/
def seen : Answer → Option (Nat × Nat × List Bool × ErrCode)
  | .next t =>
    some (t.block.R0.val.toNat, t.block.R1.val.toNat, [t.block.status.c, t.block.status.z, t.block.status.n],
      t.block.status.err)
  | _ => none

/-- STATUS after a step. -/
def statusAfter : Answer → Option Nat
  | .next t => some t.block.status.bits.toNat
  | _ => none

/-- The model faults recorded after a step. -/
def faultsAfter : Answer → Option (List ModelFault)
  | .next t => some t.env.modelFaults
  | _ => none

/-- The last word a read returned, by its number. -/
def lastRead : Answer → Option Nat
  | .next t => t.host.reads.getLast?.map BitVec.toNat
  | _ => none

/-! ### Well-formedness: what the check refuses -/

theorem test_wf_refuses_wide_data : Instr.wellFormed .w8 (.wr .a 0#24 0x100#64) = false := by decide
theorem test_wf_accepts_data : Instr.wellFormed .w8 (.wr .a 0#24 0xFF#64) = true := by decide
theorem test_program_refuses_command : programWellFormed .w8 [.poll, .add] = false := by decide
theorem test_program_refuses_wide_data : programWellFormed .w16 [.wr .b 1#24 0x10000#64] = false := by decide
theorem test_program_accepts : programWellFormed .w8 [.wr .cmd 0#24 0x10#64, .poll, .rd .r0 0#24] = true := by decide

/-! ### Decoding: words written out from 30_encoding.md R105 and R111 -/

theorem test_decode_nop : decode .cmd8 .w8 [0b00000000#8] = .ok .nop [] := by decide
theorem test_decode_clrerr : decode .cmd8 .w8 [0b00000001#8] = .ok .clrerr [] := by decide
theorem test_decode_add : decode .cmd8 .w8 [0b00010000#8] = .ok .add [] := by decide
theorem test_decode_sub : decode .cmd8 .w8 [0b00010001#8] = .ok .sub [] := by decide
theorem test_decode_neg : decode .cmd8 .w8 [0b00010010#8] = .ok .neg [] := by decide
theorem test_decode_eaddu : decode .cmd8 .w8 [0b00010100#8] = .ok .eaddu [] := by decide
theorem test_decode_eadds : decode .cmd8 .w8 [0b00010101#8] = .ok .eadds [] := by decide
theorem test_decode_esubu : decode .cmd8 .w8 [0b00010110#8] = .ok .esubu [] := by decide
theorem test_decode_esubs : decode .cmd8 .w8 [0b00010111#8] = .ok .esubs [] := by decide
theorem test_decode_mul : decode .cmd8 .w8 [0b00100000#8] = .ok .mul [] := by decide
theorem test_decode_smul : decode .cmd8 .w8 [0b00100001#8] = .ok .smul [] := by decide
theorem test_decode_kmul : decode .cmd8 .w8 [0b00100010#8] = .ok .kmul [] := by decide
theorem test_decode_bmul : decode .cmd8 .w8 [0b00100011#8] = .ok .bmul [] := by decide
theorem test_decode_bmuli : decode .cmd8 .w8 [0b00100100#8] = .ok .bmuli [] := by decide
theorem test_decode_divu : decode .cmd8 .w8 [0b00110000#8] = .ok .divu [] := by decide
theorem test_decode_divs : decode .cmd8 .w8 [0b00110001#8] = .ok .divs [] := by decide
theorem test_decode_sll : decode .cmd8 .w8 [0b01000000#8] = .ok .sll [] := by decide
theorem test_decode_srl : decode .cmd8 .w8 [0b01000001#8] = .ok .srl [] := by decide
theorem test_decode_sra : decode .cmd8 .w8 [0b01000010#8] = .ok .sra [] := by decide
theorem test_decode_rol : decode .cmd8 .w8 [0b01000100#8] = .ok .rol [] := by decide
theorem test_decode_ror : decode .cmd8 .w8 [0b01000101#8] = .ok .ror [] := by decide
theorem test_decode_rcl : decode .cmd8 .w8 [0b01000110#8] = .ok .rcl [] := by decide
theorem test_decode_rcr : decode .cmd8 .w8 [0b01000111#8] = .ok .rcr [] := by decide
theorem test_decode_rd : decode .bus .w8 [0x03#8, 0x00#8, 0x00#8, 0x04#8, 0xAA#8] = .ok (.rd .r0 3#24) [0xAA#8] := by
  decide
theorem test_decode_wr : decode .bus .w16 [0x01#8, 0x02#8, 0x00#8, 0x82#8, 0x34#8, 0x12#8] =
    .ok (.wr .s 0x201#24 0x1234#64) [] := by decide
theorem test_decode_poll : decode .bus .w8 [0x00#8, 0x00#8, 0x00#8, 0x46#8] = .ok .poll [] := by decide
theorem test_decode_reserved_select : decode .bus .w8 [0x00#8, 0x00#8, 0x00#8, 0x08#8] =
    .ok (.rd (.reserved 0#3) 0#24) [] := by decide
theorem test_refuse_unassigned : decode .cmd8 .w8 [0x13#8] = .reject .unassignedOpcode := by decide
theorem test_refuse_reserved_bits : decode .bus .w8 [0x00#8, 0x00#8, 0x00#8, 0x10#8] = .reject .reservedBits := by decide
theorem test_refuse_poll_of_other_word : decode .bus .w8 [0x01#8, 0x00#8, 0x00#8, 0x46#8] = .reject .badPoll := by decide
theorem test_refuse_polling_write : decode .bus .w8 [0x00#8, 0x00#8, 0x00#8, 0xC6#8, 0x00#8] = .reject .badPoll := by
  decide
theorem test_refuse_truncated_write : decode .bus .w16 [0x00#8, 0x00#8, 0x00#8, 0x80#8, 0x34#8] = .reject .truncated := by
  decide
theorem test_table_words :
    [decodeTableWord 8 0x47, decodeTableWord 32 0x06000002, decodeTableWord 32 0x87000000, decodeTableWord 32 0x46000000] =
      [some .rcr, some (.rd .status 2#24), some (.wr .cmd 0#24 0#64), some .poll] := by decide

/-! ### Commands: vectors of spec/95_test_vectors.md L2 -/

theorem test_nop_keeps_results : seen (exec .nop (flying i8 0x00#8 0x0 0x0 0 0)) =
    some (0x5, 6, [true, true, false], .none) := by decide
theorem test_clrerr_keeps_results : seen (exec .clrerr (flying i8 0x01#8 0x0 0x0 0 0)) =
    some (0x5, 6, [true, true, false], .none) := by decide
theorem test_add_carry_out : seen (exec .add (flying i16 0x10#8 0xffff 0x1 0 0)) =
    some (0x0, 6, [true, true, false], .none) := by decide
theorem test_add_other_widths : seen (exec .add (flying i16x8 0x10#8 0x1 0x1 0 0)) =
    some (0x5, 6, [true, true, false], .illegalOpcode) := by decide
theorem test_sub_wraps : seen (exec .sub (flying i16 0x11#8 0x5 0x7 0 0)) =
    some (0xfffe, 6, [false, false, true], .none) := by decide
theorem test_sub_borrow_across_words : seen (exec .sub (flying i16 0x11#8 0x100 0x1 0 0)) =
    some (0xff, 6, [false, false, false], .none) := by decide
theorem test_neg_most_negative : seen (exec .neg (flying i16 0x12#8 0x8000 0x0 0 0)) =
    some (0x8000, 6, [false, false, true], .none) := by decide
theorem test_neg_one : seen (exec .neg (flying i16 0x12#8 0x1 0x0 0 0)) =
    some (0xffff, 6, [false, false, true], .none) := by decide
theorem test_eaddu_largest : seen (exec .eaddu (flying i16x8 0x14#8 0xffff 0xff 0 1)) =
    some (0x100ff, 6, [true, false, true], .none) := by decide
theorem test_eaddu_ripple : seen (exec .eaddu (flying i16 0x14#8 0x80ff 0x7f01 0 1)) =
    some (0x10001, 6, [true, false, true], .none) := by decide
theorem test_eadds_most_negative : seen (exec .eadds (flying i16x8 0x15#8 0x8000 0x80 0 0)) =
    some (0x17f80, 6, [true, false, true], .none) := by decide
theorem test_eadds_sign_extends : seen (exec .eadds (flying i16x8 0x15#8 0x1 0xff 0 1)) =
    some (0x1, 6, [false, false, false], .none) := by decide
theorem test_esubu_zero_extends : seen (exec .esubu (flying i16x8 0x16#8 0x1 0xff 0 0)) =
    some (0xff02, 6, [false, false, true], .none) := by decide
theorem test_esubu_wraps : seen (exec .esubu (flying i16x8 0x16#8 0x1 0x2 0 0)) =
    some (0xffff, 6, [false, false, true], .none) := by decide
theorem test_esubs_sign_extends : seen (exec .esubs (flying i16x8 0x17#8 0x1 0xff 0 0)) =
    some (0x2, 6, [false, false, false], .none) := by decide
theorem test_esubs_wraps : seen (exec .esubs (flying i16x8 0x17#8 0x7fff 0xff 0 0)) =
    some (0x8000, 6, [false, false, true], .none) := by decide
theorem test_mul_wraps : seen (exec .mul (flying i8 0x20#8 0x80 0xff 0 0)) =
    some (0x80, 6, [false, false, true], .none) := by decide
theorem test_mul_low_half : seen (exec .mul (flying i16 0x20#8 0x1234 0x5678 0 0)) =
    some (0x60, 6, [false, false, false], .none) := by decide
theorem test_smul_largest : seen (exec .smul (flying i16x8 0x21#8 0xffff 0xff 0 0)) =
    some (0xfeff01, 6, [false, false, true], .none) := by decide
theorem test_smul_unsigned : seen (exec .smul (flying i8 0x21#8 0xff 0xff 0 0)) =
    some (0xfe01, 6, [false, false, true], .none) := by decide
theorem test_kmul_two_words : seen (exec .kmul (flying i16 0x22#8 0xffff 0xffff 0 0)) =
    some (0xfffe0001, 6, [false, false, true], .none) := by decide
theorem test_kmul_odd_split : seen (exec .kmul (flying i12 0x22#8 0xabc 0x123 0 0)) =
    some (0xc33b4, 6, [false, false, false], .none) := by decide
theorem test_bmul_guard_bit : seen (exec .bmul (flying i8 0x23#8 0x80 0xff 0 0)) =
    some (0x80, 6, [false, false, false], .none) := by decide
theorem test_bmul_negative : seen (exec .bmul (flying i4 0x23#8 0x3 0xe 0 0)) =
    some (0xfa, 6, [false, false, true], .none) := by decide
theorem test_bmuli_guard_bit : seen (exec .bmuli (flying i8 0x24#8 0x80 0xff 0 0)) =
    some (0x80, 6, [false, false, false], .none) := by decide
theorem test_bmuli_other_widths : seen (exec .bmuli (flying i16x8 0x24#8 0x3 0xfe 0 0)) =
    some (0xfffffa, 6, [false, false, true], .none) := by decide
theorem test_divu_remainder : seen (exec .divu (flying i8 0x30#8 0xff 0x10 0 0)) =
    some (0xf, 15, [false, false, false], .none) := by decide
theorem test_divu_by_zero : seen (exec .divu (flying i8 0x30#8 0x5 0x0 0 0)) =
    some (0x5, 6, [true, true, false], .divisionByZero) := by decide
theorem test_divs_truncates : seen (exec .divs (flying i8 0x31#8 0xf9 0x2 0 0)) =
    some (0xfd, 255, [false, false, true], .none) := by decide
theorem test_divs_wraps : seen (exec .divs (flying i8 0x31#8 0x80 0xff 0 0)) =
    some (0x80, 0, [false, false, true], .none) := by decide
theorem test_sll_merges : seen (exec .sll (flying i12 0x40#8 0xabc 0x0 4 0)) =
    some (0xbc0, 6, [false, false, true], .none) := by decide
theorem test_sll_by_width : seen (exec .sll (flying i12 0x40#8 0xabc 0x0 12 0)) =
    some (0x0, 6, [false, true, false], .none) := by decide
theorem test_srl_zero_fill : seen (exec .srl (flying i12 0x41#8 0xabc 0x0 4 0)) =
    some (0xab, 6, [false, false, false], .none) := by decide
theorem test_srl_by_width : seen (exec .srl (flying i12 0x41#8 0xabc 0x0 12 0)) =
    some (0x0, 6, [false, true, false], .none) := by decide
theorem test_sra_sign_fill : seen (exec .sra (flying i12 0x42#8 0xabc 0x0 4 0)) =
    some (0xfab, 6, [false, false, true], .none) := by decide
theorem test_sra_beyond_width : seen (exec .sra (flying i12 0x42#8 0xabc 0x0 100 0)) =
    some (0xfff, 6, [false, false, true], .none) := by decide
theorem test_rol : seen (exec .rol (flying i12 0x44#8 0xabc 0x0 4 0)) =
    some (0xbca, 6, [false, false, true], .none) := by decide
theorem test_rol_reduces : seen (exec .rol (flying i12 0x44#8 0xabc 0x0 16 0)) =
    some (0xbca, 6, [false, false, true], .none) := by decide
theorem test_ror : seen (exec .ror (flying i12 0x45#8 0xabc 0x0 4 0)) =
    some (0xcab, 6, [false, false, true], .none) := by decide
theorem test_ror_by_width : seen (exec .ror (flying i12 0x45#8 0xabc 0x0 12 0)) =
    some (0xabc, 6, [false, false, true], .none) := by decide
theorem test_rcl_carry_in : seen (exec .rcl (flying i12 0x46#8 0xabc 0x0 1 1)) =
    some (0x579, 6, [true, false, false], .none) := by decide
theorem test_rcl_by_ring : seen (exec .rcl (flying i12 0x46#8 0xabc 0x0 13 1)) =
    some (0xabc, 6, [true, false, true], .none) := by decide
theorem test_rcr_carry_in : seen (exec .rcr (flying i12 0x47#8 0xabc 0x0 4 1)) =
    some (0x9ab, 6, [true, false, true], .none) := by decide
theorem test_rcr_like_rcl : seen (exec .rcr (flying i12 0x47#8 0xabc 0x0 12 0)) =
    some (0x578, 6, [true, false, false], .none) := by decide

/-! ### The step and the register interface: spec/95_test_vectors.md L2, control commands and accesses -/

theorem test_unassigned_opcode : seen (step (flying i8 0x13#8 1 1 0 0)) = some (5, 6, [true, true, false], .illegalOpcode) := by
  decide
theorem test_divide_by_zero_with_other_widths :
    seen (step (flying i16x8 0x30#8 1 0 0 0)) = some (5, 6, [true, true, false], .illegalOpcode) := by decide
theorem test_rd_word : lastRead (exec (.rd .a 1#24) (idle i16)) = some 0x12 := by decide
theorem test_rd_beyond_register : statusAfter (exec (.rd .a 1#24) (idle i8)) = some 0x00010002 := by decide
theorem test_wr_masks_top_word :
    lastRead (match exec (.wr .a 0#24 0x1FF#64) (idle i8x16) with
      | .next t => exec (.rd .a 0#24) t
      | r => r) = some 0xFF := by decide
theorem test_wr_read_only : statusAfter (exec (.wr .r0 0#24 5#64) (idle i8)) = some 0x00020002 := by decide
theorem test_rd_cmd : statusAfter (exec (.rd .cmd 0#24) (idle i8)) = some 0x00020002 := by decide
theorem test_wr_invalid_address : statusAfter (exec (.wr .r0 99#24 5#64) (idle i8)) = some 0x00010002 := by decide
theorem test_busy_drop : statusAfter (exec (.wr .cmd 0#24 0x10#64) (flying i8 0x10#8 1 1 0 0)) = some 0x0004000D := by
  decide
theorem test_accepts_low_byte :
    (match exec (.wr .cmd 0#24 0x110#64) (idle i8x16) with
      | .next t => t.block.inflight.map Inflight.op
      | _ => none) = some 0x10#8 := by decide
theorem test_poll_reads_status : lastRead (exec .poll (idle i8)) = some 0x02 := by decide
theorem test_poll_waits : exec .poll (flying i8 0x10#8 1 1 0 0) = .next (flying i8 0x10#8 1 1 0 0) := by rfl
theorem test_unwritten_read_is_recorded : faultsAfter (exec (.rd .a 0#24) (State.resetOf i16)) =
    some [.unwrittenWord .a 0#24] := by decide
theorem test_unwritten_cin_high_bits (w : BitVec 8) :
    (w &&& wordMask 8 1 0).toNat < 2 := by revert w; decide
theorem test_unwritten_operand_is_recorded : faultsAfter (exec (.wr .cmd 0#24 0x10#64) (State.resetOf i16)) =
    some [.unwrittenOperand 0x10#8] := by decide
theorem test_illegal_opcode_reads_no_operand : faultsAfter (exec (.wr .cmd 0#24 0x13#64) (State.resetOf i16)) =
    some [] := by decide
theorem test_step_runs_placed_command :
    (match step (State.reset.withFetchWord 8 0x00) with
      | .next t => t.block.status.bits
      | _ => 0#32) = 0x2#32 := by decide
theorem test_step_runs_placed_write :
    (match step (State.reset.withFetchWord 32 0x80000000) with
      | .next t => t.block.A.written.toNat
      | _ => 0) = 1 := by decide

/-! ### Witnesses: for each obligation with hypotheses, a state and operands that meet them, clause by clause -/

def headerBytesOf (wr p : Bool) (sel : Sel) (idx : BitVec 24) : List Byte := toBytes 4 (header wr p sel idx).toNat

theorem witness_RefusedHeaders :
    decodeHeader .w8 0x10000000#32 [] = .reject .reservedBits ∧ decodeHeader .w8 0x46000001#32 [] = .reject .badPoll ∧
    decodeHeader .w8 0xFFFFFFFF#32 [] = .reject .reservedBits ∧ decodeHeader .w8 0x80000000#32 [] = .reject .truncated := by
  decide

theorem witness_DecodeOfEncode :
    (Instr.wr (.reserved 7#3) 0xFFFFFF#24 0xFF#64).wellFormed .w8 = true ∧
    (Instr.wr .cmd 0#24 0xFFFFFFFFFFFFFFFF#64).wellFormed .w64 = true ∧ Instr.rcr.wellFormed .w8 = true := by decide

theorem witness_EncodeOfDecode :
    decode .bus .w8 [0xFF#8, 0xFF#8, 0xFF#8, 0x8F#8, 0xFF#8, 0x01#8] =
      .ok (.wr (.reserved 7#3) 0xFFFFFF#24 0xFF#64) [0x01#8] ∧
    decode .cmd8 .w8 [0x47#8] = .ok .rcr [] := by decide

theorem witness_ProgramDecodeOfEncode : programWellFormed .w8 [.wr .a 0#24 0xFF#64, .poll, .rd .r0 3#24] = true := by
  decide

theorem witness_BadProgramNamesPosition :
    programWellFormed .w8 [.wr .a 0#24 0xFF#64, .poll] = true ∧ ([0x00#8] : List Byte) ≠ [] ∧
    decode .bus .w8 [0x00#8] = .reject .truncated ∧
    decode .bus .w8 [0x00#8, 0x00#8, 0x00#8, 0x10#8] = .reject .reservedBits := by decide

theorem witness_StepPerformsTransaction :
    (let s := machine i8 (ready i8 1 1 0 0) (headerBytesOf false true .status 0#24) 0;
      s.env.resetLine = false ∧ decode .bus s.cfg.wordSize s.host.program = .ok .poll [] ∧
      decodeProgram s.cfg.wordSize (s.host.pos + 1) [] = .ok [] ∧ s.block.inflight = none ∧ s.block.status.busy = false) ∧
    (let s := machine i8 (busy (ready i8 1 1 0 0) (snap i8 0x10#8 1 1 0 0)) (headerBytesOf false false .a 0#24) 1;
      s.env.resetLine = false ∧ decode .bus s.cfg.wordSize s.host.program = .ok (.rd .a 0#24) [] ∧
      0 < s.env.delay ∧ Instr.rd .a 0#24 ≠ .poll) := by decide

theorem witness_StepCompletesCommand :
    (let s := flying i16 0x10#8 1 2 0 0;
      s.env.resetLine = false ∧ s.block.inflight = some (snap i16 0x10#8 1 2 0 0) ∧ s.env.delay = 0 ∧
      decodeOpcode (snap i16 0x10#8 1 2 0 0).op = some .add) ∧
    (let s := machine i16 (busy (ready i16 1 2 0 0) (snap i16 0x10#8 1 2 0 0)) [] 7;
      decodeProgram s.cfg.wordSize s.host.pos s.host.program = .ok []) ∧
    (let s := machine i16 (busy (ready i16 1 2 0 0) (snap i16 0x10#8 1 2 0 0)) (headerBytesOf false true .status 0#24) 7;
      decodeProgram s.cfg.wordSize s.host.pos s.host.program = .ok [.poll]) ∧
    (Instr.add.form = .cmd8 ∧ (idle i16).block.inflight = none) := by decide

theorem witness_UnassignedOpcodeCompletes :
    let s := flying i16 0xFF#8 1 2 0 0;
    s.env.resetLine = false ∧ s.block.inflight = some (snap i16 0xFF#8 1 2 0 0) ∧ s.env.delay = 0 ∧
      decodeOpcode (snap i16 0xFF#8 1 2 0 0).op = none := by decide

theorem witness_ResetValues :
    let s : State := { flying i16 0x10#8 1 2 0 0 with
      env := { fresh := 0, delay := 3, latencies := [], resetLine := true, modelFaults := [] } };
    s.env.resetLine = true ∧ s.block.inflight = some (snap i16 0x10#8 1 2 0 0) := by decide

theorem witness_BadProgramRefusedAndFinishedRunRests :
    (let s := machine i8 (ready i8 1 1 0 0) [0x00#8, 0x00#8, 0x00#8, 0x10#8] 0;
      s.env.resetLine = false ∧ s.block.inflight = none ∧
      decodeProgram s.cfg.wordSize s.host.pos s.host.program = .bad 0 .reservedBits) ∧
    ((idle i8).env.resetLine = false ∧ (idle i8).over = true) := by decide

theorem witness_ControlCommandResults :
    (flying i16 0x01#8 0 0 0 0).block.inflight = some (snap i16 0x01#8 0 0 0 0) := by decide
theorem witness_AddResult : ((flying i16 0x10#8 0xFFFF 1 0 0).cfg.W = (flying i16 0x10#8 0xFFFF 1 0 0).cfg.V ∧
    (flying i16 0x10#8 0xFFFF 1 0 0).block.inflight = some (snap i16 0x10#8 0xFFFF 1 0 0)) ∧
    (flying i16x8 0x10#8 1 1 0 0).cfg.W ≠ (flying i16x8 0x10#8 1 1 0 0).cfg.V := by decide
theorem witness_SubResult : ((flying i16 0x11#8 0 0xFFFF 0 0).cfg.W = (flying i16 0x11#8 0 0xFFFF 0 0).cfg.V ∧
    (flying i16 0x11#8 0 0xFFFF 0 0).block.inflight = some (snap i16 0x11#8 0 0xFFFF 0 0)) ∧
    (flying i16x8 0x11#8 1 1 0 0).cfg.W ≠ (flying i16x8 0x11#8 1 1 0 0).cfg.V := by decide
theorem witness_NegResult : (flying i16 0x12#8 0x8000 0 0 0).block.inflight = some (snap i16 0x12#8 0x8000 0 0 0) := by
  decide
theorem witness_EaddResults : (flying i1 0x14#8 1 1 0 1).block.inflight = some (snap i1 0x14#8 1 1 0 1) := by decide
theorem witness_EsubResults : (flying i16x8 0x16#8 0 0xFF 0 0).block.inflight = some (snap i16x8 0x16#8 0 0xFF 0 0) := by
  decide
theorem witness_AdderIsAddition : 1 ≤ 1 ∧ 1 ≤ 17 ∧ 0 ≤ 1 ∧ 1 ≤ 1 := by decide
theorem witness_MulResult : ((flying i8 0x20#8 0x80 0xFF 0 0).cfg.W = (flying i8 0x20#8 0x80 0xFF 0 0).cfg.V ∧
    (flying i8 0x20#8 0x80 0xFF 0 0).block.inflight = some (snap i8 0x20#8 0x80 0xFF 0 0)) ∧
    (flying i16x8 0x20#8 1 1 0 0).cfg.W ≠ (flying i16x8 0x20#8 1 1 0 0).cfg.V := by decide
theorem witness_SmulResult : (flying i16x8 0x21#8 0xFFFF 0xFF 0 0).block.inflight =
    some (snap i16x8 0x21#8 0xFFFF 0xFF 0 0) := by decide
theorem witness_KmulResult : ((flying i64 0x22#8 0xFFFFFFFF 0xFFFFFFFF 0 0).cfg.W = 64 ∧
    (flying i64 0x22#8 0xFFFFFFFF 0xFFFFFFFF 0 0).cfg.V = 64 ∧
    (flying i64 0x22#8 0xFFFFFFFF 0xFFFFFFFF 0 0).block.inflight = some (snap i64 0x22#8 0xFFFFFFFF 0xFFFFFFFF 0 0)) ∧
    (flying i16x8 0x22#8 1 1 0 0).cfg.W ≠ (flying i16x8 0x22#8 1 1 0 0).cfg.V := by decide
theorem witness_BoothResult : (flying i16x8 0x23#8 0x8000 0x80 0 0).block.inflight =
    some (snap i16x8 0x23#8 0x8000 0x80 0 0) := by decide
theorem witness_StrategyAgreement :
    (flying i16 0x20#8 0x7FFF 0x7FFF 0 0).block.inflight = some (snap i16 0x20#8 0x7FFF 0x7FFF 0 0) ∧
    (flying i16 0x20#8 0x7FFF 0x7FFF 0 0).cfg.W = (flying i16 0x20#8 0x7FFF 0x7FFF 0 0).cfg.V ∧
    (snap i16 0x20#8 0x7FFF 0x7FFF 0 0).A.msb = false ∧ (snap i16 0x20#8 0x7FFF 0x7FFF 0 0).B.msb = false := by decide

theorem witness_ArithmeticLaws :
    (let f := snap i16x8 0x14#8 0xFFFF 0xFF 0 1;
      let g := snap i8by16 0x14#8 0xFF 0xFFFF 0 1;
      i8by16.W = i16x8.V ∧ i8by16.V = i16x8.W ∧ g.A.toNat = f.B.toNat ∧ g.B.toNat = f.A.toNat ∧ g.CIN = f.CIN) ∧
    i16.W = i16.V ∧ (snap i16 0x10#8 5 0 0 0).B.toNat = 0 ∧
    ((snap i16 0x10#8 0xFFFF 1 0 0).B.toNat = 1 ∧ (snap i16 0x10#8 0xFFFF 1 0 0).A.toNat = 2 ^ i16.W - 1 ∧
      (snap i16 0x10#8 0x7FFF 1 0 0).A.toNat = 2 ^ (i16.W - 1) - 1 ∧ (snap i16 0x10#8 0x7FFF 1 0 0).B.toInt = 1) ∧
    (let f := snap i16 0x10#8 0x8000 0x8000 0 0;
      f.B.toNat = r0Of (exec .neg ((flying i16 0x10#8 0 0 0 0).withInflight f)) ∧ f.CIN = 0#1) ∧
    (let f := snap i16 0x11#8 5 7 0 0;
      let g := snap i16 0x12#8 7 0 0 0;
      let h := snap i16 0x10#8 5 0xFFF9 0 0;
      g.A.toNat = f.B.toNat ∧ h.A = f.A ∧
        h.B.toNat = r0Of (exec .neg ((flying i16 0x10#8 0 0 0 0).withInflight g))) := by decide

theorem witness_DivuResult :
    ((flying i8 0x30#8 0xC8 1 0 0).block.inflight = some (snap i8 0x30#8 0xC8 1 0 0) ∧ i8.W = i8.V ∧
      (snap i8 0x30#8 0xC8 1 0 0).B.toNat ≠ 0) ∧
    (snap i8 0x30#8 5 0 0 0).B.toNat = 0 ∧ i16x8.W ≠ i16x8.V := by decide
theorem witness_DivsResult :
    ((flying i8 0x31#8 0x80 0xFF 0 0).block.inflight = some (snap i8 0x31#8 0x80 0xFF 0 0) ∧ i8.W = i8.V ∧
      (snap i8 0x31#8 0x80 0xFF 0 0).B.toNat ≠ 0) ∧
    (snap i8 0x31#8 0x80 0 0 0).B.toNat = 0 ∧ i16x8.W ≠ i16x8.V := by decide
theorem witness_RestoringDivides :
    ((0#8 : BitVec 8) ≠ 1#8 ∧ (1#8 : BitVec 8) ≠ 0#8 ∧ (0xFF#8 : BitVec 8) ≠ 0#8 ∧ (1#8 : BitVec 8).toNat = 1) ∧
    i8.W = i8.V ∧ (snap i8 0x30#8 5 0 0 0).B.toNat = 0 ∧
    (flying i8 0x30#8 5 0 0 0).block.inflight = some (snap i8 0x30#8 5 0 0 0) := by decide

theorem witness_DivisionLaws :
    (let f := snap i8 0x31#8 0xF9 2 0 0;
      let g := snap i8 0x20#8 0xFD 2 0 0;
      let h := snap i8 0x10#8 0xFA 0xFF 0 0;
      let s := flying i8 0x31#8 0 0 0 0;
      s.cfg.W = s.cfg.V ∧ f.B.toNat ≠ 0 ∧ g.A.toNat = r0Of (exec .divs (s.withInflight f)) ∧ g.B = f.B ∧
      h.A.toNat = r0Of (exec .mul (s.withInflight g)) ∧ h.B.toNat = r1Of (exec .divs (s.withInflight f)) ∧
      ¬ (f.A.toNat = 2 ^ (s.cfg.W - 1) ∧ f.B.toNat = 2 ^ s.cfg.V - 1)) ∧
    (snap i8 0x31#8 5 0 0 0).B.toNat = 0 := by decide

theorem witness_ShiftResults : (flying i12 0x42#8 0xABC 0 12 0).block.inflight = some (snap i12 0x42#8 0xABC 0 12 0) := by
  decide
theorem witness_RotateResult : (flying i1 0x44#8 1 0 1 0).block.inflight = some (snap i1 0x44#8 1 0 1 0) := by decide
theorem witness_RotateThroughCarryResult :
    (flying i12 0x46#8 0xABC 0 13 1).block.inflight = some (snap i12 0x46#8 0xABC 0 13 1) := by decide
theorem witness_BarrelShifterIsClosedForm : 1 ≤ 1 ∧ 1 ≤ 12 := by decide

theorem witness_ShiftLaws :
    (let f := snap i12 0x40#8 0xBC 0 4 0;
      let g := snap i12 0x41#8 0xBC0 0 4 0;
      let s := flying i12 0x40#8 0 0 0 0;
      g.S = f.S ∧ f.A.toNat * 2 ^ f.S.toNat < 2 ^ s.cfg.W ∧ f.S.toNat < s.cfg.W ∧
        g.A.toNat = r0Of (exec .sll (s.withInflight f))) ∧
    (snap i12 0x46#8 0xABC 0 0 1).S.toNat = 0 ∧
    (let f := snap i12 0x45#8 0xABC 0 16 0;
      let g := snap i12 0x44#8 0xCAB 0 16 0;
      let s := flying i12 0x40#8 0 0 0 0;
      g.S = f.S ∧ g.A.toNat = r0Of (exec .ror (s.withInflight f))) ∧
    (let f := snap i12 0x46#8 0xABC 0 1 1;
      let g := snap i12 0x47#8 0x579 0 1 1;
      let s := flying i12 0x40#8 0 0 0 0;
      g.S = f.S ∧ g.A.toNat = r0Of (exec .rcl (s.withInflight f)) ∧
        g.CIN.toNat = (carryOf (exec .rcl (s.withInflight f))).toNat) := by decide

theorem witness_OperandSetTable :
    Instr.add ∈ sameWidthCommands ∧ i16.W = i16.V ∧ i16x8.W ≠ i16x8.V ∧ decodeOpcode 0x13#8 = none := by decide

theorem witness_CommandAccepted :
    ((idle i16).block.status.busy = false ∧ (idle i16).block.A.full = true ∧ (idle i16).block.A.isWritten 1 = true ∧
      (idle i16).block.operandsWritten (operandSet i16 ((0x14#64 : BitVec 64).setWidth 8)) = true) ∧
    (State.resetOf i16).block.status.busy = false ∧
    (State.resetOf i16).block.operandsWritten (operandSet i16 ((0x14#64 : BitVec 64).setWidth 8)) = false := by decide

theorem witness_UnwrittenWords :
    (Sel.cin ∈ dataRegisters ∧ (0#24 : BitVec 24).toNat < selWords i16 .cin ∧
      (State.resetOf i16).block.writtenAt .cin 0 = false ∧ Sel.cin ∈ operandRegisters) ∧
    ((3#24 : BitVec 24).toNat < selWords i16 .r0 ∧ (State.resetOf i16).block.writtenAt .r0 3 = false ∧
      (State.resetOf i16).block.status.busy = false) ∧
    (State.resetOf i16).block.operandsWritten (operandSet i16 ((0x12#64 : BitVec 64).setWidth 8)) = false := by
  decide

theorem witness_UnwrittenWords_step :
    let s : State := { idle i8 with
      env := { fresh := 0, delay := 0, latencies := [], resetLine := false, modelFaults := [.unwrittenOperand 0#8] } };
    s.env.modelFaults ≠ [] ∧ ∃ t, step s = .next t := ⟨by decide, _, rfl⟩

theorem witness_BusyDrop : (flying i16 0x10#8 1 2 0 0).block.status.busy = true := by decide

theorem witness_SnapshotIsolation :
    Instr.divs.form = .cmd8 ∧ (flying i16 0x31#8 1 2 0 0).block.inflight = some (snap i16 0x31#8 1 2 0 0) := by decide

theorem witness_ResultIndependentOfWordSize :
    let s := flying i16 0x22#8 0xFFFF 0xFFFF 0 0;
    let u := flying i16w64 0x22#8 0xFFFF 0xFFFF 0 0;
    let f := snap i16 0x22#8 0xFFFF 0xFFFF 0 0;
    let g := snap i16w64 0x22#8 0xFFFF 0xFFFF 0 0;
    Instr.kmul ∈ flagWriters ∧ u.cfg.W = s.cfg.W ∧ u.cfg.V = s.cfg.V ∧ s.block.inflight = some f ∧
      u.block.inflight = some g ∧ g.A.toNat = f.A.toNat ∧ g.B.toNat = f.B.toNat ∧ g.S.toNat = f.S.toNat ∧
      g.CIN = f.CIN ∧ u.block.R0.val.toNat = s.block.R0.val.toNat ∧ u.block.R1.val.toNat = s.block.R1.val.toNat ∧
      u.block.status = s.block.status := by decide

theorem witness_CommandFrame :
    (∃ t, exec .divu (flying i8 0x30#8 0xFF 0x10 0 0) = .next t) ∧ (∃ t, exec .nop (flying i8 0 0 0 0 0) = .next t) ∧
    ∃ t, exec .clrerr (flying i8 1 0 0 0 0) = .next t := ⟨⟨_, rfl⟩, ⟨_, rfl⟩, ⟨_, rfl⟩⟩

theorem witness_ReadReturnsWord :
    ((1#24 : BitVec 24).toNat < selWords i12 .a ∧ (idle i12).block.writtenAt .a 1 = true ∧ Sel.a ∈ operandRegisters) ∧
    ((3#24 : BitVec 24).toNat < selWords i16 .r0 ∧ (idle i16).block.writtenAt .r0 3 = true ∧
      Sel.r0 ∈ [Sel.r0, .r1] ∧ (idle i16).block.status.busy = false) := by decide

theorem witness_ReadResultWhileBusy :
    (Sel.r0 ∈ [Sel.r0, .r1] ∧ (3#24 : BitVec 24).toNat < selWords i16 .r0 ∧
      (flying i16 0x10#8 1 2 0 0).block.status.busy = true ∧ (flying i16 0x10#8 1 2 0 0).block.writtenAt .r0 3 = true) ∧
    (busy (Block.reset i16) (snap i16 0x10#8 1 2 0 0)).writtenAt .r1 1 = false := by decide

theorem witness_StatusReads :
    (3#24 : BitVec 24).toNat < selWords i8 .status ∧ (0#24 : BitVec 24).toNat < selWords i16w64 .status ∧
    (idle i8).block.status.busy = false ∧ (flying i8 0x10#8 1 2 0 0).block.status.busy = true := by decide

theorem witness_WriteSetsWord :
    (Sel.a ∈ operandRegisters ∧ (1#24 : BitVec 24).toNat < selWords i12 .a) ∧
    (Sel.cin ∈ operandRegisters ∧ (0#24 : BitVec 24).toNat < selWords i12 .cin) := by decide

theorem witness_AccessErrors :
    selWords i12 .a ≤ (2#24 : BitVec 24).toNat ∧ selWords i12 (.reserved 0#3) ≤ (0#24 : BitVec 24).toNat ∧
    (0#24 : BitVec 24).toNat < selWords i12 .status ∧ Sel.status ∈ [Sel.r0, .r1, .status] ∧
    (0#24 : BitVec 24).toNat < selWords i12 .cmd := by decide

theorem witness_AccessErrorsExactly :
    (∃ t, exec (.rd .cmd 0#24) (idle i8) = .next t) ∧ (∃ t, exec (.wr .r0 99#24 5#64) (idle i8) = .next t) ∧
    ∃ t, exec (.wr .cmd 0#24 5#64) (flying i8 0x10#8 1 2 0 0) = .next t := ⟨⟨_, rfl⟩, ⟨_, rfl⟩, ⟨_, rfl⟩⟩

theorem witness_ReadFrame :
    (∃ t, exec .poll (idle i8) = .next t) ∧ ∃ t, exec (.rd .a 0xFFFFFF#24) (idle i8) = .next t := ⟨⟨_, rfl⟩, ⟨_, rfl⟩⟩

theorem witness_WriteFrame :
    (∃ t, exec (.wr .b 0#24 5#64) (idle i8) = .next t) ∧ ∃ t, exec (.wr .cmd 0#24 0x10#64) (idle i8) = .next t :=
  ⟨⟨_, rfl⟩, ⟨_, rfl⟩⟩

theorem witness_ValueIsSumOfWords : 1 ≤ 1 ∧ 1 ≤ 12 := by decide
theorem witness_LdLoadsRegister : Sel.a ∈ operandRegisters ∧ Sel.cin ∈ operandRegisters := by decide
theorem witness_RdvReadsRegister :
    Sel.r0 ∈ dataRegisters ∧ (idle i12).block.status.busy = false ∧
    ∀ j, j < selWords (idle i12).cfg .r0 → (idle i12).block.writtenAt .r0 j = true := by decide

/-- A state of the invariant with a command in flight, two transactions from its completion, and one transaction left. -/
abbrev waiting : State :=
  machine i8 (busy (ready i8 1 2 0 0) (snap i8 0x10#8 1 2 0 0)) (headerBytesOf false false .a 0#24) 2

theorem waiting_inv : waiting.Inv :=
  { busy_iff := by decide, not_both := by decide, err_done := by decide, r0_whole := by decide, r1_whole := by decide
    r1_after_r0 := by decide, flags_zero := by decide, zero_not_negative := by decide, fresh := by decide }

theorem witness_StepKeepsInvariant : waiting.Inv ∧ ∃ t, step waiting = .next t := ⟨waiting_inv, _, rfl⟩

theorem witness_WhoWritesWhat :
    (∃ t, step (machine i8 (ready i8 1 2 0 0) (encode .w8 (.wr .b 0#24 5#64)) 0) = .next t) ∧
    ∃ t, step (flying i8 0x30#8 7 2 0 0) = .next t := ⟨⟨_, rfl⟩, ⟨_, rfl⟩⟩

theorem witness_StickyBitsStay :
    (∃ t, step (flying i8 0x10#8 1 2 0 0) = .next t) ∧ (flying i8 0x10#8 1 2 0 0).env.resetLine = false ∧
    ∀ f, (flying i8 0x10#8 1 2 0 0).block.inflight = some f → f.op ≠ 0x01#8 :=
  ⟨⟨_, rfl⟩, rfl, fun f h => by cases h; decide⟩

theorem witness_InflightUntilCompletion :
    waiting.Inv ∧ waiting.block.inflight = some (snap i8 0x10#8 1 2 0 0) ∧ (∃ t, step waiting = .next t) ∧
      waiting.env.resetLine = false := ⟨waiting_inv, rfl, ⟨_, rfl⟩, rfl⟩

theorem witness_CommandCompletesInTime :
    waiting.Inv ∧ waiting.block.inflight = some (snap i8 0x10#8 1 2 0 0) ∧ waiting.env.resetLine = false ∧
      decodeProgram waiting.cfg.wordSize waiting.host.pos waiting.host.program = .ok [.rd .a 0#24] :=
  ⟨waiting_inv, rfl, rfl, by decide⟩

theorem witness_LatencyIndependence :
    let s := machine i8 (ready i8 1 2 0 0) (encodeProgram .w8 (asmRun .add ++ asmRdv i8 .r0)) 0;
    s.block.inflight = none ∧
      decodeProgram s.cfg.wordSize s.host.pos s.host.program =
        .ok [.wr .cmd 0#24 0x10#64, .poll, .rd .r0 0#24, .rd .r0 1#24] ∧
      waitsAtOnce [.wr .cmd 0#24 0x10#64, .poll, .rd .r0 0#24, .rd .r0 1#24] = true := by decide


end Sys2Proof.Tests
end

section
/-! The statements of spec/00_scope.md: the word view of a register (R12), and that results do not depend on the word
size (R8). -/

namespace Sys2Proof.Machine

/-! ### A value and its words -/

/-- Word `j` is the digit of the value at place `j`, base `2^wb` (00_scope.md R12). -/
theorem toNat_wordOf {n : Nat} (wb : Nat) (v : BitVec n) (j : Nat) :
    (wordOf wb v j).toNat = v.toNat / 2 ^ (j * wb) % 2 ^ wb := by
  rw [wordOf, BitVec.extractLsb'_toNat, Nat.shiftRight_eq_div_pow]

/-- The `k` words from word `j` on name the value's `k` digits from place `j` on. -/
theorem rdvValue_words_from {n : Nat} (wb : Nat) (v : BitVec n) (j k : Nat) :
    rdvValue ((List.range' j k).map (wordOf wb v)) = v.toNat / 2 ^ (j * wb) % 2 ^ (k * wb) := by
  induction k generalizing j with
  | zero => simp [rdvValue, Nat.mod_one]
  | succ k ih =>
    have hdiv : v.toNat / 2 ^ ((j + 1) * wb) = v.toNat / 2 ^ (j * wb) / 2 ^ wb := by
      rw [Nat.div_div_eq_div_mul, ← pow_add, ← Nat.succ_mul]
    have hpow : 2 ^ ((k + 1) * wb) = 2 ^ wb * 2 ^ (k * wb) := by rw [← pow_add, Nat.succ_mul, Nat.add_comm]
    rw [List.range'_succ, List.map_cons, rdvValue, uval, toNat_wordOf, ih, hdiv, hpow, Nat.mod_mul]

/-- All the words of a register name its value. -/
theorem rdvValue_words {wb n : Nat} (hwb : 0 < wb) (r : Reg wb n) :
    rdvValue ((List.range (nw wb n)).map r.word) = r.val.toNat := by
  have hlt : r.val.toNat < 2 ^ (nw wb n * wb) :=
    Nat.lt_of_lt_of_le r.val.isLt (Nat.pow_le_pow_right (by decide) (le_nw_mul hwb))
  have h := rdvValue_words_from wb r.val 0 (nw wb n)
  rwa [← List.range_eq_range', Nat.zero_mul, pow_zero, Nat.div_one, Nat.mod_eq_of_lt hlt] at h

/-- No word has a bit at or above the register's width (00_scope.md R12). -/
theorem Reg.toNat_word_lt {wb n : Nat} (r : Reg wb n) (j : Nat) : (r.word j).toNat < 2 ^ (n - j * wb) := by
  have hdigit : r.val.toNat / 2 ^ (j * wb) < 2 ^ (n - j * wb) := by
    rw [Nat.div_lt_iff_lt_mul (Nat.two_pow_pos _), ← pow_add]
    exact Nat.lt_of_lt_of_le r.val.isLt (Nat.pow_le_pow_right (by decide) (by omega))
  rw [Reg.word, toNat_wordOf]
  exact Nat.lt_of_le_of_lt (Nat.mod_le _ _) hdigit

/-! ### Results and the word size -/

/-- Two snapshots of instances with the same `W` and `V` that hold the same numbers. -/
structure Inflight.SameOperands {c d : Instance} (f : Inflight c) (g : Inflight d) : Prop where
  W : d.W = c.W
  V : d.V = c.V
  A : g.A.toNat = f.A.toNat
  B : g.B.toNat = f.B.toNat
  S : g.S.toNat = f.S.toNat
  CIN : g.CIN = f.CIN

/-- Two blocks with the same numbers in R0 and R1 and the same STATUS. -/
structure Block.SameResults {c d : Instance} (b : Block c) (e : Block d) : Prop where
  R0 : e.R0.val.toNat = b.R0.val.toNat
  R1 : e.R1.val.toNat = b.R1.val.toNat
  status : e.status = b.status

/-- A completion, given in every instance, that keeps the results of two instances the same. -/
def WordSizeFree (rule : (c : Instance) → Inflight c → Block c → Block c) : Prop :=
  ∀ ⦃c d : Instance⦄ ⦃f : Inflight c⦄ ⦃g : Inflight d⦄ ⦃b : Block c⦄ ⦃e : Block d⦄,
    f.SameOperands g → b.SameResults e → (rule c f b).SameResults (rule d g e)

/-- Any function of the widths and the operands' values has one value on snapshots that hold the same numbers. -/
theorem Inflight.SameOperands.apply_eq {c d : Instance} {f : Inflight c} {g : Inflight d} (h : f.SameOperands g)
    {α : Type} (F : (w v : Nat) → BitVec w → BitVec v → Nat → BitVec 1 → α) :
    F d.W d.V g.A g.B (uval g.S) g.CIN = F c.W c.V f.A f.B (uval f.S) f.CIN := by
  obtain ⟨W, V, _, _, _, _, _, _, _⟩ := c
  obtain ⟨W', V', _, _, _, _, _, _, _⟩ := d
  obtain ⟨hW, hV, hA, hB, hS, hCIN⟩ := h
  obtain rfl : W' = W := hW
  obtain rfl : V' = V := hV
  rw [BitVec.eq_of_toNat_eq hA, BitVec.eq_of_toNat_eq hB, uval, hS, hCIN, ← uval]

theorem Block.SameResults.finish {c d : Instance} {b : Block c} {e : Block d} (h : b.SameResults e) (err : ErrCode) :
    (b.finish err).SameResults (e.finish err) :=
  ⟨h.R0, h.R1, by simp only [Block.finish, h.status]⟩

/-- A result and a carry that are functions of the widths and the operands' values. -/
theorem wordSizeFree_succeed {rw : Nat → Nat → Nat}
    (F : (w v : Nat) → BitVec w → BitVec v → Nat → BitVec 1 → BitVec (rw w v) × Bool) :
    WordSizeFree fun c f b =>
      b.succeed (F c.W c.V f.A f.B (uval f.S) f.CIN).1 (F c.W c.V f.A f.B (uval f.S) f.CIN).2 := by
  intro c d f g b e ho hb
  have hx := ho.apply_eq fun w v x y n k => (F w v x y n k).1.toNat
  have hk := ho.apply_eq fun w v x y n k => (F w v x y n k).2
  refine ⟨?_, hb.R1, ?_⟩
  · simp only [Block.succeed_R0, Reg.load_val, toNat_zext, hx, ho.W, ho.V]
  · simp only [Block.succeed, Block.finish, flagZ_eq, flagN_eq, hx, hk, hb.status, ho.W, ho.V]

theorem wordSizeFree_divideBy (div : (w : Nat) → BitVec w → BitVec w → BitVec w × BitVec w) :
    WordSizeFree fun c f b => divideBy f b (div c.W) := by
  intro c d f g b e ho hb
  have hrem := ho.apply_eq fun w _ x y _ _ => (div w x (zext w y)).2.toNat
  have hquot := wordSizeFree_succeed (rw := fun w _ => w) (fun w _ x y _ _ => ((div w x (zext w y)).1, false)) ho hb
  by_cases h0 : f.B.toNat = 0
  · simp only [divideBy, uval, ho.B, h0, if_true]
    exact hb.finish _
  · simp only [divideBy, uval, ho.B, h0, if_false]
    exact ⟨hquot.R0, hrem, hquot.status⟩

theorem WordSizeFree.sameWidth {rule : (c : Instance) → Inflight c → Block c → Block c} (h : WordSizeFree rule) :
    WordSizeFree fun c => sameWidth (rule c) := by
  intro c d f g b e ho hb
  simp only [Machine.sameWidth, ho.W, ho.V]
  split
  · exact h ho hb
  · exact hb.finish _

/-- Every command completes by a rule that does not see the word size. Only KMUL's algorithm does, and its product does
not depend on it (`karatsuba_eq`). -/
theorem exec_eq_wordSizeFree {i : Instr} (hi : i.form = .cmd8) :
    ∃ rule, WordSizeFree rule ∧ ∀ s, exec i s = s.complete (rule s.cfg) := by
  cases i with
  | rd | wr | poll => cases hi
  | nop => exact ⟨fun _ _ b => b.finish .none, fun _ _ _ _ _ _ _ hb => hb.finish _, fun _ => rfl⟩
  | clrerr =>
    refine ⟨fun _ _ b => b.clearSticky.finish .none, fun _ _ _ _ _ _ _ hb => ⟨hb.R0, hb.R1, ?_⟩, fun _ => rfl⟩
    simp only [Block.clearSticky, Block.finish, hb.status]
  | add =>
    exact ⟨_, (wordSizeFree_succeed fun w _ x y _ _ =>
      (bitsOf w ((uval x + uval y : Nat) : Int), carryOut w (uval x + uval y))).sameWidth, fun _ => rfl⟩
  | sub =>
    exact ⟨_, (wordSizeFree_succeed fun w _ x y _ _ =>
      (bitsOf w (uval x + uval (bitsOf w (uval (~~~y) + 1))), false)).sameWidth, fun _ => rfl⟩
  | neg => exact ⟨_, wordSizeFree_succeed fun _ _ x _ _ _ => (negate x, false), fun _ => rfl⟩
  | eaddu =>
    exact ⟨_, wordSizeFree_succeed fun w v x y _ k =>
      let sum := addCarry (zext (max w v + 1) x) (zext (max w v + 1) y) k
      (sum, extraBit (max w v) sum), fun _ => rfl⟩
  | eadds =>
    exact ⟨_, wordSizeFree_succeed fun w v x y _ k =>
      let sum := addCarry (sext (max w v + 1) x) (sext (max w v + 1) y) k
      (sum, extraBit (max w v) sum), fun _ => rfl⟩
  | esubu =>
    exact ⟨_, wordSizeFree_succeed fun w v x y _ _ => (subtract (zext (max w v) x) (zext (max w v) y), false),
      fun _ => rfl⟩
  | esubs =>
    exact ⟨_, wordSizeFree_succeed fun w v x y _ _ => (subtract (sext (max w v) x) (sext (max w v) y), false),
      fun _ => rfl⟩
  | mul =>
    exact ⟨_, (wordSizeFree_succeed fun w _ x y _ _ => (bitsOf w (uval x * uval y), false)).sameWidth, fun _ => rfl⟩
  | smul => exact ⟨_, wordSizeFree_succeed fun _ v x y _ _ => (schoolbook x y v, false), fun _ => rfl⟩
  | kmul =>
    refine ⟨_, (wordSizeFree_succeed fun w _ x y _ _ =>
      (bitsOf (2 * w) ((uval x * uval y : Nat) : Int), false)).sameWidth, fun s => ?_⟩
    simp only [exec, execKmul, karatsuba_eq]
  | bmul => exact ⟨_, wordSizeFree_succeed fun _ _ x y _ _ => (booth x y, false), fun _ => rfl⟩
  | bmuli => exact ⟨_, wordSizeFree_succeed fun _ _ x y _ _ => (booth x y, false), fun _ => rfl⟩
  | divu => exact ⟨_, (wordSizeFree_divideBy fun _ => udiv).sameWidth, fun _ => rfl⟩
  | divs => exact ⟨_, (wordSizeFree_divideBy fun _ => sdiv).sameWidth, fun _ => rfl⟩
  | sll => exact ⟨_, wordSizeFree_succeed fun _ _ x _ n _ => (shl x n, false), fun _ => rfl⟩
  | srl => exact ⟨_, wordSizeFree_succeed fun _ _ x _ n _ => (shr x n, false), fun _ => rfl⟩
  | sra => exact ⟨_, wordSizeFree_succeed fun _ _ x _ n _ => (sar x n, false), fun _ => rfl⟩
  | rol => exact ⟨_, wordSizeFree_succeed fun _ _ x _ n _ => (rotateLeft x n, false), fun _ => rfl⟩
  | ror => exact ⟨_, wordSizeFree_succeed fun _ _ x _ n _ => (rotateRight x n, false), fun _ => rfl⟩
  | rcl =>
    exact ⟨_, wordSizeFree_succeed fun w _ x _ n k =>
      let turned := ringLeft (ring k x) n
      (zext w turned, extraBit w turned), fun _ => rfl⟩
  | rcr =>
    exact ⟨_, wordSizeFree_succeed fun w _ x _ n k =>
      let turned := ringRight (ring k x) n
      (zext w turned, extraBit w turned), fun _ => rfl⟩

/-- Every flag-writing instruction is a command. -/
theorem form_of_mem_flagWriters {i : Instr} (hi : i ∈ flagWriters) : i.form = .cmd8 := by
  have h : ∀ i ∈ flagWriters, i.form = .cmd8 := by decide
  exact h i hi

end Sys2Proof.Machine

open Sys2Proof Sys2Proof.Machine

/-- Settles O51: the words are the value's digits, base `2^WB`. -/
theorem valueIsSumOfWords : Obligations.ValueIsSumOfWords :=
  fun ws _ r _ => ⟨rdvValue_words ws.bits_pos r, r.toNat_word_lt⟩

/-- Settles O41: a command completes by a rule that is free of the word size. -/
theorem resultIndependentOfWordSize : Obligations.ResultIndependentOfWordSize := by
  intro s u f g i hi hW hV hf hg hA hB hS hCIN hR0 hR1 hst
  obtain ⟨rule, hfree, hexec⟩ := exec_eq_wordSizeFree (form_of_mem_flagWriters hi)
  have hr : (rule s.cfg f s.block).SameResults (rule u.cfg g u.block) :=
    hfree ⟨hW, hV, hA, hB, hS, hCIN⟩ ⟨hR0, hR1, hst⟩
  exact ⟨_, _, (hexec s).trans (State.complete_of_inflight hf _), (hexec u).trans (State.complete_of_inflight hg _),
    hr.R0, hr.R1, hr.status⟩

end

section
/-! The statements of spec/10_state.md: what a step, an access and a completion do to the block, who writes what, the
machine's invariant, the snapshot of a command in flight, and reads of STATUS and of unwritten words. -/

namespace Sys2Proof.Machine

/-! ### The reset and the host's turn -/

/-- With the reset input asserted the step is the reset, whatever else is due (70_reset_and_hazards.md R310). -/
theorem step_of_resetLine {s : State} (h : s.env.resetLine = true) : step s = .next s.applyReset := by
  simp only [step, State.turn, h, if_true]

@[simp] theorem Reg.isWritten_reset (wb n j : Nat) : (Reg.reset wb n).isWritten j = false :=
  BitVec.getLsbD_zero

theorem Block.writtenAt_reset (c : Instance) {sel : Sel} (h : sel ∈ dataRegisters) (j : Nat) :
    (Block.reset c).writtenAt sel j = false := by
  cases sel with
  | status | cmd | reserved => simp [dataRegisters, operandRegisters] at h
  | _ => exact Reg.isWritten_reset _ _ _

/-- While a command in flight has transactions of latency left, the host performs whatever does not wait. -/
theorem turnInFlight_of_pos {op : BitVec 8} {d : Nat} {i : Instr} (is : List Instr) (hd : 0 < d) (hi : i ≠ .poll) :
    turnInFlight op d (.ok (i :: is)) = .host i := by
  obtain ⟨d, rfl⟩ := Nat.exists_eq_add_of_lt hd
  cases i with
  | poll => exact absurd rfl hi
  | _ => simp only [turnInFlight]

/-- The converse of `State.turn_host`. -/
theorem State.turn_eq_host {s : State} {i : Instr} {rest : List Byte} {is : List Instr}
    (hr : s.env.resetLine = false) (hd : decode .bus s.cfg.wordSize s.host.program = .ok i rest)
    (hp : decodeProgram s.cfg.wordSize (s.host.pos + 1) rest = .ok is)
    (hm : s.block.inflight = none ∨ (0 < s.env.delay ∧ i ≠ .poll)) : s.turn = .host i := by
  have hprog : decodeProgram s.cfg.wordSize s.host.pos s.host.program = .ok (i :: is) := by
    rw [decodeProgram_of_ok hd, hp]
  simp only [State.turn, hr, Bool.false_eq_true, if_false, hprog]
  cases hf : s.block.inflight with
  | none => rfl
  | some f =>
    obtain ⟨hdelay, hpoll⟩ := hm.resolve_left (by simp [hf])
    exact turnInFlight_of_pos is hdelay hpoll

/-! ### What an access of the host leaves -/

/-- The second block has the result registers and the flags of the first (10_state.md R36, R37, R39). -/
structure Block.SameResultState {c : Instance} (b b' : Block c) : Prop where
  R0 : b'.R0 = b.R0
  R1 : b'.R1 = b.R1
  carry : b'.status.c = b.status.c
  zero : b'.status.z = b.status.z
  negative : b'.status.n = b.status.n

/-- The second block has all that the command cycle writes as in the first (40_command_cycle.md R131, R134). -/
structure Block.SameCommandState {c : Instance} (b b' : Block c) : Prop extends Block.SameResultState b b' where
  inflight : b'.inflight = b.inflight
  busy : b'.status.busy = b.status.busy
  done : b'.status.done = b.status.done
  err : b'.status.err = b.status.err

/-- The second block has the operand registers of the first. -/
structure Block.SameOperandRegisters {c : Instance} (b b' : Block c) : Prop where
  A : b'.A = b.A
  B : b'.B = b.B
  S : b'.S = b.S
  CIN : b'.CIN = b.CIN

/-- A read changes neither side of the block; it takes the host and the environment on. -/
theorem State.memRead_frame (s : State) (sel : Sel) (idx : BitVec 24) :
    ∃ (b : Block s.cfg) (rs : List (BitVec s.cfg.WB)) (k : Nat) (ms : List ModelFault),
      s.memRead sel idx = { s with
        block := b, host := { s.host with reads := rs }
        env := { s.env with fresh := k, modelFaults := s.env.modelFaults ++ ms } } ∧
      s.block.SameCommandState b ∧ s.block.SameOperandRegisters b := by
  obtain ⟨x, y, d, k, ms, he, -, -, -⟩ := s.memRead_as sel idx
  exact ⟨_, _, k, ms, he, ⟨⟨rfl, rfl, rfl, rfl, rfl⟩, rfl, rfl, rfl, rfl⟩, ⟨rfl, rfl, rfl, rfl⟩⟩

/-- A write takes the host no further than its transaction did. It leaves the operand registers unless it addresses one,
and what the command cycle writes unless it is an acceptance. -/
theorem WrittenAs.frame {s t : State} {sel : Sel} {idx : BitVec 24} {d : BitVec s.cfg.WB}
    (h : WrittenAs s sel idx d t) :
    ∃ (b : Block s.cfg) (e : Env), t = { s with block := b, env := e } ∧
      (sel ∉ operandRegisters → s.block.SameOperandRegisters b) ∧
      ((s.block.SameCommandState b ∧ e = s.env) ∨
        ∃ op, s.block.status.busy = false ∧ b = s.started op ∧
          e.modelFaults = s.env.modelFaults ++ s.operandFaults op) := by
  cases h with
  | a hsel | b hsel | s hsel | cin hsel =>
    exact ⟨_, _, rfl, fun hn => absurd (by rw [hsel]; decide) hn,
      .inl ⟨⟨⟨rfl, rfl, rfl, rfl, rfl⟩, rfl, rfl, rfl, rfl⟩, rfl⟩⟩
  | readOnly | invalid | dropped =>
    exact ⟨_, _, rfl, fun _ => ⟨rfl, rfl, rfl, rfl⟩, .inl ⟨⟨⟨rfl, rfl, rfl, rfl, rfl⟩, rfl, rfl, rfl, rfl⟩, rfl⟩⟩
  | accepted _ _ hb => exact ⟨_, _, rfl, fun _ => ⟨rfl, rfl, rfl, rfl⟩, .inr ⟨_, hb, rfl, rfl⟩⟩

/-- A transaction that takes effect moves the host past its bytes (20_memory.md R84). -/
theorem exec_transaction_host {s t : State} {i : Instr} (hi : i.form = .bus) (h : exec i s = .next t)
    (hp : i = .poll → s.block.status.busy = false) :
    t.host.program = s.host.program.drop (i.imageBytes s.cfg.wordSize) ∧ t.host.pos = s.host.pos + 1 := by
  have hread (sel : Sel) (idx : BitVec 24) : ((s.retire headerBytes).memRead sel idx).host.program =
      s.host.program.drop headerBytes ∧ ((s.retire headerBytes).memRead sel idx).host.pos = s.host.pos + 1 := by
    obtain ⟨_, _, _, _, he, -, -⟩ := (s.retire headerBytes).memRead_frame sel idx
    rw [he]
    exact ⟨rfl, rfl⟩
  cases i with
  | rd sel idx =>
    cases h
    exact hread sel idx
  | wr sel idx data =>
    cases h
    obtain ⟨_, _, he, -, -⟩ := (State.memWrite_as (s.retire (headerBytes + s.cfg.wordSize.bytes)) sel idx
      (data.setWidth s.cfg.WB)).frame
    rw [he]
    exact ⟨rfl, rfl⟩
  | poll =>
    simp only [exec, execPoll, hp rfl, Bool.false_eq_true, if_false] at h
    cases h
    exact hread .status 0#24
  | _ => cases hi

/-! ### What a step does to the block -/

/-- The ways a step without reset moves the block: the completion of the command in flight, of an opcode that is
assigned or not; an acceptance; or an access, which leaves what the command cycle writes, brings a command in flight
one transaction nearer to its completion, and changes an operand register only if it writes one. -/
inductive BlockMoved (s : State) (b : Block s.cfg) (e : Env) : Prop where
  | completed (f : Inflight s.cfg) (i : Instr) (hf : s.block.inflight = some f) (hi : decodeOpcode f.op = some i)
      (hb : CompletedAs s.block i b)
  | unassigned (f : Inflight s.cfg) (hf : s.block.inflight = some f) (hi : decodeOpcode f.op = none)
      (hb : b = s.block.finish .illegalOpcode)
  | accepted (op : BitVec 8) (idle : s.block.status.busy = false) (hb : b = s.started op)
  | accessed (hb : s.block.SameCommandState b)
      (hd : s.block.inflight.isSome = true → e.delay + 1 = s.env.delay)
      (ho : s.block.SameOperandRegisters b ∨ ∃ sel idx d, sel ∈ operandRegisters ∧ s.turn = .host (.wr sel idx d))

/-- On the host's turn a command in flight has transactions of latency left. -/
theorem State.delay_of_turn_host {s : State} {i : Instr} (h : s.turn = .host i)
    (hf : s.block.inflight.isSome = true) : s.env.delay - 1 + 1 = s.env.delay := by
  obtain ⟨-, hm, -⟩ := State.turn_host h
  obtain ⟨hd, -⟩ := hm.resolve_left fun hn => by simp [hn] at hf
  omega

/-- With nothing in flight, a step that changes nothing, a waiting poll or a rested run, is an access too. -/
theorem BlockMoved.refl_of_none {s : State} (h : s.block.inflight = none) : BlockMoved s s.block s.env :=
  .accessed ⟨⟨rfl, rfl, rfl, rfl, rfl⟩, rfl, rfl, rfl, rfl⟩ (fun hf => by simp [h] at hf) (.inl ⟨rfl, rfl, rfl, rfl⟩)

/-- A read on the host's turn is an access. -/
theorem State.memRead_moved {s : State} {i : Instr} (ht : s.turn = .host i) (sel : Sel) (idx : BitVec 24) :
    ∃ (b : Block s.cfg) (h : HostSide s.cfg) (e : Env),
      (s.retire headerBytes).memRead sel idx = { s with block := b, host := h, env := e } ∧ BlockMoved s b e := by
  obtain ⟨b, _, _, _, he, hb, ho⟩ := (s.retire headerBytes).memRead_frame sel idx
  exact ⟨b, _, _, he, .accessed hb (State.delay_of_turn_host ht) (.inl ho)⟩

/-- Every step without reset moves the block in one of the ways of `BlockMoved`. -/
theorem step_moved {s t : State} (h : step s = .next t) (hr : s.env.resetLine = false) :
    ∃ (b : Block s.cfg) (h : HostSide s.cfg) (e : Env),
      t = { s with block := b, host := h, env := e } ∧ BlockMoved s b e := by
  cases step_next h with
  | reset hr' => rw [hr] at hr'; cases hr'
  | completed f i b _ hf hi hb => exact ⟨b, _, _, rfl, .completed f i hf hi hb⟩
  | unassigned f _ hf hi => exact ⟨_, _, _, rfl, .unassigned f hf hi rfl⟩
  | read sel idx ht => exact State.memRead_moved ht sel idx
  | waits ht =>
    obtain ⟨-, hm, -⟩ := State.turn_host ht
    exact ⟨_, _, _, rfl, .refl_of_none (hm.resolve_right fun hp => hp.2 rfl)⟩
  | polled ht => exact State.memRead_moved ht .status 0#24
  | written sel idx data t ht hw =>
    obtain ⟨b, e, rfl, ho, ⟨hb, rfl⟩ | ⟨op, hidle, rfl, -⟩⟩ := hw.frame
    · refine ⟨b, _, _, rfl, .accessed hb (State.delay_of_turn_host ht) ?_⟩
      by_cases hsel : sel ∈ operandRegisters
      · exact .inr ⟨sel, idx, data, hsel, ht⟩
      · exact .inl (ho hsel)
    · exact ⟨_, _, _, rfl, .accepted op hidle rfl⟩
  | rests ht => exact ⟨_, _, _, rfl, .refl_of_none (State.turn_idle ht).2⟩

/-- No step drops a recorded model fault (60_exceptions.md R298 (a)). -/
theorem step_modelFaults {s t : State} (h : step s = .next t) :
    ∃ ms, t.env.modelFaults = s.env.modelFaults ++ ms := by
  have hread (sel : Sel) (idx : BitVec 24) :
      ∃ ms, ((s.retire headerBytes).memRead sel idx).env.modelFaults = s.env.modelFaults ++ ms := by
    obtain ⟨_, _, _, ms, he, -, -⟩ := (s.retire headerBytes).memRead_frame sel idx
    exact ⟨ms, by rw [he]; rfl⟩
  cases step_next h with
  | reset | completed | unassigned | waits | rests => exact ⟨[], (List.append_nil _).symm⟩
  | read sel idx => exact hread sel idx
  | polled => exact hread .status 0#24
  | written _ _ _ _ _ hw =>
    obtain ⟨_, e, rfl, -, ⟨-, rfl⟩ | ⟨op, -, -, hm⟩⟩ := hw.frame
    · exact ⟨[], (List.append_nil _).symm⟩
    · exact ⟨_, hm⟩

/-! ### What a completion writes -/

/-- After a completion nothing is in flight, BUSY = 0 and DONE = 1 (40_command_cycle.md R134). -/
theorem CompletedAs.idle {c : Instance} {b b' : Block c} {i : Instr} (h : CompletedAs b i b') :
    b'.inflight = none ∧ b'.status.busy = false ∧ b'.status.done = true := by
  cases h <;> exact ⟨rfl, rfl, rfl⟩

theorem CompletedAs.sameOperandRegisters {c : Instance} {b b' : Block c} {i : Instr} (h : CompletedAs b i b') :
    b.SameOperandRegisters b' := by
  cases h <;> exact ⟨rfl, rfl, rfl, rfl⟩

/-- A completion leaves the result registers and the flags, or it is a flag-writing command's without error
(10_state.md R39). -/
theorem CompletedAs.writes_results {c : Instance} {b b' : Block c} {i : Instr} (h : CompletedAs b i b') :
    b.SameResultState b' ∨ (i ∈ flagWriters ∧ b'.status.err = .none) := by
  cases h with
  | plain | cleared => exact .inl ⟨rfl, rfl, rfl, rfl, rfl⟩
  | result i _ _ _ _ hi => exact .inr ⟨by revert i; decide, rfl⟩
  | quotient i _ _ _ hi => exact .inr ⟨by revert i; decide, rfl⟩

/-- A completion leaves R1, or it is a division's without error. -/
theorem CompletedAs.writes_remainder {c : Instance} {b b' : Block c} {i : Instr} (h : CompletedAs b i b') :
    b'.R1 = b.R1 ∨ (i ∈ [Instr.divu, .divs] ∧ b'.status.err = .none) := by
  cases h with
  | plain | cleared | result => exact .inl rfl
  | quotient _ _ _ _ hi => exact .inr ⟨hi, rfl⟩

/-! ### Who writes what -/

theorem Block.SameOperandRegisters.not_changed {c : Instance} {b b' : Block c} (h : b.SameOperandRegisters b') :
    ¬ (b'.A ≠ b.A ∨ b'.B ≠ b.B ∨ b'.S ≠ b.S ∨ b'.CIN ≠ b.CIN) := by
  simp [h.A, h.B, h.S, h.CIN]

theorem Block.SameResultState.not_changed {c : Instance} {b b' : Block c} (h : b.SameResultState b') :
    ¬ (b'.R0 ≠ b.R0 ∨ b'.status.c ≠ b.status.c ∨ b'.status.z ≠ b.status.z ∨ b'.status.n ≠ b.status.n) := by
  simp [h.R0, h.carry, h.zero, h.negative]

section
variable {s : State} {b : Block s.cfg} {e : Env}

/-- Only a host write to an operand register changes one (10_state.md R31). -/
theorem BlockMoved.operandRegisters (hm : BlockMoved s b e) :
    s.block.SameOperandRegisters b ∨ ∃ sel idx d, sel ∈ operandRegisters ∧ s.turn = .host (.wr sel idx d) := by
  cases hm with
  | completed _ _ _ _ hb => exact .inl hb.sameOperandRegisters
  | unassigned _ _ _ hb | accepted _ _ hb => subst hb; exact .inl ⟨rfl, rfl, rfl, rfl⟩
  | accessed _ _ ho => exact ho

/-- Only a flag-writing command in flight that completes without error writes R0 and the flags (10_state.md R39). -/
theorem BlockMoved.results (hm : BlockMoved s b e) :
    s.block.SameResultState b ∨ ∃ f i, s.block.inflight = some f ∧ decodeOpcode f.op = some i ∧ i ∈ flagWriters ∧
      b.inflight = none ∧ b.status.err = .none := by
  cases hm with
  | completed f i hf hi hb =>
    exact hb.writes_results.imp_right fun ⟨hw, herr⟩ => ⟨f, i, hf, hi, hw, hb.idle.1, herr⟩
  | unassigned _ _ _ hb | accepted _ _ hb => subst hb; exact .inl ⟨rfl, rfl, rfl, rfl, rfl⟩
  | accessed hb => exact .inl hb.toSameResultState

/-- Only a division in flight that completes without error writes R1. -/
theorem BlockMoved.remainder (hm : BlockMoved s b e) :
    b.R1 = s.block.R1 ∨ ∃ f i, s.block.inflight = some f ∧ decodeOpcode f.op = some i ∧ i ∈ [Instr.divu, .divs] ∧
      b.inflight = none ∧ b.status.err = .none := by
  cases hm with
  | completed f i hf hi hb =>
    exact hb.writes_remainder.imp_right fun ⟨hw, herr⟩ => ⟨f, i, hf, hi, hw, hb.idle.1, herr⟩
  | unassigned _ _ _ hb | accepted _ _ hb => subst hb; exact .inl rfl
  | accessed hb => exact .inl hb.R1

end

/-! ### The invariant -/

theorem Reg.load_written_ne_zero {wb n : Nat} (hwb : 0 < wb) (hn : 1 ≤ n) (v : BitVec n) :
    (Reg.load wb v).written ≠ 0#(nw wb n) := by
  simpa [BitVec.allOnes_eq_zero_iff] using (nw_pos hwb hn).ne'

/-- A pattern of zeros has no top bit set (40_command_cycle.md R136). -/
theorem flagN_of_flagZ {rw : Nat} {x : BitVec rw} (h : flagZ x = true) : flagN x = false := by
  rw [flagZ_eq, decide_eq_true_eq] at h
  rw [flagN_eq, h, decide_eq_false_iff_not]
  exact Nat.not_le_of_lt (Nat.two_pow_pos _)

/-- The block after reset meets the invariant (10_state.md R48). -/
theorem Block.Inv.reset (c : Instance) : (Block.reset c).Inv where
  busy_iff := rfl
  not_both := nofun
  err_done h := absurd rfl h
  r0_whole := .inl rfl
  r1_whole := .inl rfl
  r1_after_r0 h := absurd rfl h
  flags_zero _ := ⟨rfl, rfl, rfl⟩
  zero_not_negative := nofun
  fresh _ _ := rfl

section
variable {c : Instance} {b b' : Block c}

/-- The invariant speaks only of what the command cycle writes. -/
theorem Block.Inv.of_sameCommandState (h : b.Inv) (hs : b.SameCommandState b') : b'.Inv where
  busy_iff := by rw [hs.busy, hs.inflight]; exact h.busy_iff
  not_both := by rw [hs.busy, hs.done]; exact h.not_both
  err_done := by rw [hs.err, hs.done]; exact h.err_done
  r0_whole := by rw [hs.R0]; exact h.r0_whole
  r1_whole := by rw [hs.R1]; exact h.r1_whole
  r1_after_r0 := by rw [hs.R0, hs.R1]; exact h.r1_after_r0
  flags_zero := by rw [hs.R0, hs.carry, hs.zero, hs.negative]; exact h.flags_zero
  zero_not_negative := by rw [hs.zero, hs.negative]; exact h.zero_not_negative
  fresh := by rw [hs.busy, hs.done, hs.R0]; exact h.fresh

theorem Block.Inv.finish (h : b.Inv) (e : ErrCode) : (b.finish e).Inv where
  busy_iff := rfl
  not_both := nofun
  err_done _ := rfl
  r0_whole := h.r0_whole
  r1_whole := h.r1_whole
  r1_after_r0 := h.r1_after_r0
  flags_zero := h.flags_zero
  zero_not_negative := h.zero_not_negative
  fresh _ := nofun

theorem Block.Inv.succeed (h : b.Inv) {rw : Nat} (x : BitVec rw) (k : Bool) : (b.succeed x k).Inv where
  busy_iff := rfl
  not_both := nofun
  err_done _ := rfl
  r0_whole := .inr rfl
  r1_whole := h.r1_whole
  r1_after_r0 _ := Reg.load_written_ne_zero c.WB_pos c.W_add_V_pos _
  flags_zero hz := absurd hz (Reg.load_written_ne_zero c.WB_pos c.W_add_V_pos _)
  zero_not_negative := flagN_of_flagZ
  fresh _ := nofun

theorem Block.Inv.succeedWithRemainder (h : b.Inv) (q r : BitVec c.W) (k : Bool) :
    (b.succeedWithRemainder q r k).Inv :=
  { h.succeed q k with
    r1_whole := .inr rfl
    r1_after_r0 := fun _ => Reg.load_written_ne_zero c.WB_pos c.W_add_V_pos _ }

/-- Every completion keeps the invariant (40_command_cycle.md R134, R136). -/
theorem CompletedAs.inv {i : Instr} (hb : CompletedAs b i b') (h : b.Inv) : b'.Inv := by
  cases hb with
  | plain _ e => exact h.finish e
  | cleared =>
    exact (h.of_sameCommandState ⟨⟨rfl, rfl, rfl, rfl, rfl⟩, rfl, rfl, rfl, rfl⟩ : b.clearSticky.Inv).finish _
  | result _ _ x k => exact h.succeed x k
  | quotient _ q r k => exact h.succeedWithRemainder q r k

end

/-- An acceptance keeps the invariant (40_command_cycle.md R131). -/
theorem State.Inv.started {s : State} (h : s.Inv) (op : BitVec 8) : (s.started op).Inv where
  busy_iff := rfl
  not_both _ := rfl
  err_done he := absurd rfl he
  r0_whole := h.r0_whole
  r1_whole := h.r1_whole
  r1_after_r0 := h.r1_after_r0
  flags_zero := h.flags_zero
  zero_not_negative := h.zero_not_negative
  fresh := nofun

theorem BlockMoved.inv {s : State} {b : Block s.cfg} {e : Env} (hm : BlockMoved s b e) (h : s.Inv) : b.Inv := by
  cases hm with
  | completed _ _ _ _ hb => exact hb.inv h
  | unassigned _ _ _ hb => rw [hb]; exact Block.Inv.finish h _
  | accepted op _ hb => rw [hb]; exact h.started op
  | accessed hb => exact Block.Inv.of_sameCommandState h hb

/-! ### Reads of STATUS -/

/-- A read of a valid word of STATUS returns that word of its number, the fields at their bits (10_state.md R38). -/
theorem State.memRead_status {s : State} {idx : BitVec 24} (h : idx.toNat < selWords s.cfg .status) :
    s.memRead .status idx =
      s.returned (BitVec.ofNat s.cfg.WB (s.block.status.number / 2 ^ (idx.toNat * s.cfg.WB))) := by
  have hword : wordOf s.cfg.WB s.block.status.bits idx.toNat =
      BitVec.ofNat s.cfg.WB (s.block.status.number / 2 ^ (idx.toNat * s.cfg.WB)) := by
    apply BitVec.eq_of_toNat_eq
    rw [toNat_wordOf, Status.toNat_bits, BitVec.toNat_ofNat]
  simp only [State.memRead, validAddr, decide_eq_true h, if_true, hword]

/-! ### Unwritten words -/

theorem nw_one {wb : Nat} (hwb : 0 < wb) : nw wb 1 = 1 := by
  rw [nw, Nat.add_sub_cancel_left, Nat.div_self hwb]

/-- A read of an unwritten word returns some value in the bits that the register has there (10_state.md R44, R46). -/
theorem State.access_of_unwritten {n : Nat} {s : State} {r : Reg s.cfg.WB n} {idx : BitVec 24} (sel : Sel)
    (hj : idx.toNat < nw s.cfg.WB n) (hw : r.isWritten idx.toNat = false) :
    ∃ d : BitVec s.cfg.WB, d.toNat < 2 ^ (n - idx.toNat * s.cfg.WB) ∧
      s.access r sel idx = ((s.returned d).useFresh 1).noted (.unwrittenWord sel idx) :=
  ⟨_, toNat_and_wordMask_lt s.cfg.WB_pos hj _, if_neg (by simp [hw])⟩

/-- The same of a read of any data register, of R0 or R1 with BUSY = 0. -/
theorem State.memRead_of_unwritten {s : State} {sel : Sel} {idx : BitVec 24} (hsel : sel ∈ dataRegisters)
    (hj : idx.toNat < selWords s.cfg sel) (hw : s.block.writtenAt sel idx.toNat = false)
    (hb : sel ∈ operandRegisters ∨ s.block.status.busy = false) :
    ∃ d : BitVec s.cfg.WB, d.toNat < 2 ^ (selWidth s.cfg sel - idx.toNat * s.cfg.WB) ∧
      s.memRead sel idx = ((s.returned d).useFresh 1).noted (.unwrittenWord sel idx) := by
  simp only [State.memRead, validAddr, decide_eq_true hj, if_true]
  cases sel with
  | status | cmd | reserved => simp [dataRegisters, operandRegisters] at hsel
  | a | b | s => exact State.access_of_unwritten _ hj hw
  | cin => exact State.access_of_unwritten .cin (hj.trans_eq (nw_one s.cfg.WB_pos).symm) hw
  | r0 | r1 =>
    simp only [State.accessResult, hb.resolve_left (by decide), Bool.false_eq_true, if_false]
    exact State.access_of_unwritten _ hj hw

/-- With BUSY = 0 a write to CMD is an acceptance of the low 8 bits of the data (40_command_cycle.md R131). -/
theorem exec_wr_cmd_of_idle {s : State} (d : BitVec 64) (hb : s.block.status.busy = false) :
    exec (.wr .cmd 0#24 d) s =
      .next ((s.retire (headerBytes + s.cfg.wordSize.bytes)).accept (d.setWidth 8)) := by
  have hbyte : (d.setWidth s.cfg.WB).setWidth 8 = d.setWidth 8 := BitVec.setWidth_setWidth_of_le d s.cfg.le_WB
  have hv : validAddr s.cfg .cmd 0#24 = true := rfl
  simp only [exec, execWr, State.memWrite, State.retire_cfg, hv, if_true, State.present, State.retire_block, hb,
    Bool.false_eq_true, if_false, hbyte]

/-- A run with a record of a model fault is never finished (60_exceptions.md R298). -/
theorem State.finished_eq_false {s : State} (h : s.env.modelFaults ≠ []) : s.finished = false := by
  rw [State.finished, List.isEmpty_eq_false_iff.mpr h, Bool.and_false]

/-! ### The snapshot decides -/

/-- A completion that takes nothing from the operand registers and keeps what they hold (10_state.md R43). -/
def SnapshotOnly {c : Instance} (rule : Inflight c → Block c → Block c) : Prop :=
  ∀ f b A B S CIN, rule f { b with A := A, B := B, S := S, CIN := CIN } =
    { rule f b with A := A, B := B, S := S, CIN := CIN }

theorem snapshotOnly_succeed {c : Instance} {rw : Nat} (x : Inflight c → BitVec rw) (k : Inflight c → Bool) :
    SnapshotOnly fun f b => b.succeed (x f) (k f) := fun _ _ _ _ _ _ => rfl

theorem snapshotOnly_divideBy {c : Instance} (div : BitVec c.W → BitVec c.W → BitVec c.W × BitVec c.W) :
    SnapshotOnly fun f b => divideBy f b div := by
  intro f b A B S CIN
  simp only [divideBy]
  split
  · rfl
  · rfl

theorem SnapshotOnly.sameWidth {c : Instance} {rule : Inflight c → Block c → Block c} (h : SnapshotOnly rule) :
    SnapshotOnly (sameWidth rule) := by
  intro f b A B S CIN
  simp only [Machine.sameWidth]
  split
  · exact h f b A B S CIN
  · rfl

/-- Every command completes by a rule that sees the operand registers only in its snapshot (40_command_cycle.md
R134). -/
theorem exec_eq_snapshotOnly (c : Instance) {i : Instr} (hi : i.form = .cmd8) :
    ∃ rule : Inflight c → Block c → Block c, SnapshotOnly rule ∧
      ∀ b h e, exec i ⟨c, b, h, e⟩ = State.complete ⟨c, b, h, e⟩ rule := by
  cases i
  case rd | wr | poll => cases hi
  case sub =>
    exact ⟨_, (snapshotOnly_succeed (fun f => bitsOf c.W (uval f.A + uval (bitsOf c.W (uval (~~~f.B) + 1))))
      fun _ => false).sameWidth, fun _ _ _ => rfl⟩
  all_goals
    refine ⟨_, ?_, fun b h e => by
      dsimp only [exec, execNop, execClrerr, execAdd, execNeg, execEaddu, execEadds, execEsubu, execEsubs, execMul,
        execSmul, execKmul, execBmul, execBmuli, execDivu, execDivs, execSll, execSrl, execSra, execRol, execRor,
        execRcl, execRcr]⟩
  case nop | clrerr => exact fun _ _ _ _ _ _ => rfl
  case divu | divs => exact (snapshotOnly_divideBy _).sameWidth
  case add | mul | kmul => exact (snapshotOnly_succeed _ _).sameWidth
  all_goals exact snapshotOnly_succeed _ _

end Sys2Proof.Machine

open Sys2Proof Sys2Proof.Machine

/-- Settles O55: the reset leaves a block of the invariant, and so does each way a step moves the block. -/
theorem stepKeepsInvariant : Obligations.StepKeepsInvariant := by
  intro s t hinv h
  cases hr : s.env.resetLine with
  | true =>
    rw [step_of_resetLine hr] at h
    cases h
    exact Block.Inv.reset s.cfg
  | false =>
    obtain ⟨b, _, _, rfl, hm⟩ := step_moved h hr
    exact hm.inv hinv

/-- Settles O38: an unwritten word is read as a masked free value, and records of model faults are only appended. -/
theorem unwrittenWords : Obligations.UnwrittenWords := by
  refine ⟨fun s sel idx hsel hj hw hb => ?_, fun s d hb hop => ?_, fun s t h => ?_⟩
  · obtain ⟨v, hv, he⟩ := State.memRead_of_unwritten (s := s.retire headerBytes) hsel hj hw hb
    exact ⟨v, hv, congrArg _ he⟩
  · refine ⟨_, exec_wr_cmd_of_idle d hb, rfl, ?_⟩
    have hfault : s.operandFaults (d.setWidth 8) = [.unwrittenOperand (d.setWidth 8)] := by
      simp only [State.operandFaults, hop, Bool.false_eq_true, if_false]
    exact congrArg (s.env.modelFaults ++ ·) hfault
  · obtain ⟨ms, hms⟩ := step_modelFaults h
    exact ⟨⟨ms, hms⟩, fun hm => State.finished_eq_false (by simp [hms, hm])⟩

/-- Settles O40: a command completes by a rule that sees the operand registers only in its snapshot. -/
theorem snapshotIsolation : Obligations.SnapshotIsolation := by
  intro s i f hi hf
  obtain ⟨rule, hrule, hexec⟩ := exec_eq_snapshotOnly s.cfg hi
  refine ⟨rule f s.block, (hexec _ _ _).trans (State.complete_of_inflight hf rule), fun a b n k => ?_⟩
  rw [← hrule]
  have hf' : (s.withBlock { s.block with A := a, B := b, S := n, CIN := k }).block.inflight = some f := hf
  exact (hexec _ _ _).trans (State.complete_of_inflight hf' rule)

/-- Settles O45: the words of STATUS are the digits of its number. -/
theorem statusReads : Obligations.StatusReads := by
  refine fun s => ⟨fun idx h => congrArg _ (State.memRead_status (s := s.retire headerBytes) h), fun hb => ?_,
    fun hb => by simp only [exec, execPoll, hb, if_true]⟩
  have h0 : (0#24).toNat < selWords (s.retire headerBytes).cfg .status := nw_pos s.cfg.WB_pos (by decide)
  simp only [exec, execPoll, hb, Bool.false_eq_true, if_false, State.memRead_status h0]
  simp [headerBytes]

/-- Settles O56: each way a step moves the block says who wrote what. -/
theorem whoWritesWhat : Obligations.WhoWritesWhat := by
  intro s t hst hr
  obtain ⟨b, h, e, rfl, hm⟩ := step_moved hst hr
  exact ⟨b, h, e, rfl, fun hne => hm.operandRegisters.resolve_left fun ho => ho.not_changed hne,
    fun hne => hm.results.resolve_left fun hres => hres.not_changed hne, hm.remainder.resolve_left⟩

/-- Settles O58: with BUSY = 1 a step completes the command or is an access, which leaves the command. -/
theorem inflightUntilCompletion : Obligations.InflightUntilCompletion := by
  intro s t f hinv hf hst hr
  obtain ⟨b, h, e, rfl, hm⟩ := step_moved hst hr
  have hbusy : s.block.status.busy = true := by rw [hinv.busy_iff, hf]; rfl
  have hdone : s.block.status.done = false := hinv.not_both hbusy
  refine ⟨b, h, e, rfl, ?_⟩
  cases hm with
  | completed _ _ _ _ hb => exact .inr hb.idle
  | unassigned _ _ _ hb => rw [hb]; exact .inr ⟨rfl, rfl, rfl⟩
  | accepted op hidle => rw [hbusy] at hidle; cases hidle
  | accessed hb hd =>
    have herr : s.block.status.err = .none := by
      by_contra hne
      rw [hinv.err_done hne] at hdone
      cases hdone
    exact .inl ⟨hb.inflight.trans hf, hb.busy.trans hbusy, hb.done.trans hdone, hb.err.trans herr,
      hd (by rw [hf]; rfl)⟩

/-- Settles O9: the turn is the host's, and a transaction moves the host past its bytes. -/
theorem stepPerformsTransaction : Obligations.StepPerformsTransaction := by
  intro s i rest is hr hd hp hm
  obtain ⟨hform, rfl, -⟩ := decode_bus_ok hd
  refine ⟨?_, exec_transaction hform, fun t ht hpoll => exec_transaction_host hform ht hpoll⟩
  simp only [step, State.turn_eq_host hr hd hp hm]

/-- Settles O12: the step is the reset, and the block after reset has the values of 10_state.md R48. -/
theorem resetValues : Obligations.ResetValues :=
  ⟨fun s h => ⟨_, _, step_of_resetLine h, rfl, rfl, rfl, fun _ hsel j => Block.writtenAt_reset s.cfg hsel j⟩,
    fun c => ⟨rfl, rfl, rfl, fun _ hsel j => Block.writtenAt_reset c hsel j⟩⟩

/-- Settles O54: the block after reset meets the invariant. -/
theorem invariantAtReset : Obligations.InvariantAtReset :=
  ⟨Block.Inv.reset _, fun c => Block.Inv.reset c⟩

end

section
/-! The statements of spec/20_memory.md: what a host read returns (R74), what a host write sets (R75) and leaves, and
the access errors (R77, R78). -/

namespace Sys2Proof.Machine

/-! ### Addresses -/

theorem validAddr_eq_true_iff {c : Instance} {sel : Sel} {idx : BitVec 24} :
    validAddr c sel idx = true ↔ idx.toNat < selWords c sel := decide_eq_true_iff

theorem validAddr_eq_false_iff {c : Instance} {sel : Sel} {idx : BitVec 24} :
    validAddr c sel idx = false ↔ selWords c sel ≤ idx.toNat := decide_eq_false_iff_not.trans Nat.not_lt

/-! ### Reads -/

/-- A `rd` is its bytes taken from the program and then the access (30_encoding.md R111). -/
theorem exec_rd {s t : State} {sel : Sel} {idx : BitVec 24} (h : (s.retire headerBytes).memRead sel idx = t) :
    exec (.rd sel idx) s = .next t := congrArg _ h

/-- A read of a written word returns it, of R0 or R1 with BUSY = 0 (20_memory.md R74). -/
theorem State.memRead_of_written {s : State} {sel : Sel} {idx : BitVec 24} (hj : idx.toNat < selWords s.cfg sel)
    (hw : s.block.writtenAt sel idx.toNat = true)
    (hsel : sel ∈ operandRegisters ∨ (sel ∈ [Sel.r0, .r1] ∧ s.block.status.busy = false)) :
    s.memRead sel idx = s.returned (s.block.wordAt sel idx.toNat) := by
  simp only [State.memRead, validAddr_eq_true_iff.mpr hj, if_true]
  cases sel with
  | status | cmd | reserved => simp [operandRegisters] at hsel
  | a | b | s | cin => exact if_pos hw
  | r0 | r1 =>
    obtain ⟨-, hb⟩ := hsel.resolve_left (by decide)
    simp only [State.accessResult, hb, Bool.false_eq_true, if_false]
    exact if_pos hw

/-- A read at an address that is not valid sets OOR and returns 0 (20_memory.md R77). -/
theorem State.memRead_of_invalid {s : State} {sel : Sel} {idx : BitVec 24} (h : selWords s.cfg sel ≤ idx.toNat) :
    s.memRead sel idx = (s.withBlock s.block.setOor).returned 0#s.cfg.WB := by
  simp only [State.memRead, validAddr_eq_false_iff.mpr h, Bool.false_eq_true, if_false]
  rfl

/-- A read of CMD sets ACC and returns 0 (20_memory.md R78). -/
theorem State.memRead_cmd {s : State} {idx : BitVec 24} (h : idx.toNat < selWords s.cfg .cmd) :
    s.memRead .cmd idx = (s.withBlock s.block.setAcc).returned 0#s.cfg.WB := by
  simp only [State.memRead, validAddr_eq_true_iff.mpr h, if_true]
  rfl

/-- A read that takes `n` bytes of the program changes nothing of the block but OOR and ACC, which stay 1 if they were;
it records a model fault only of an unwritten word (20_memory.md R74, R82). -/
theorem State.retire_memRead_leaves (s : State) (n : Nat) (sel : Sel) (idx : BitVec 24) :
    ∃ (x y : Bool) (h : HostSide s.cfg) (e : Env),
      (s.retire n).memRead sel idx = { s with
        block := { s.block with status := { s.block.status with oor := x, acc := y } }, host := h, env := e } ∧
      (s.block.status.oor = true → x = true) ∧ (s.block.status.acc = true → y = true) ∧
      e.resetLine = s.env.resetLine ∧ e.latencies = s.env.latencies ∧
      (e.modelFaults = s.env.modelFaults ∨
        (s.block.writtenAt sel idx.toNat = false ∧
          e.modelFaults = s.env.modelFaults ++ [.unwrittenWord sel idx])) := by
  obtain ⟨x, y, _, _, ms, he, hx, hy, hm⟩ := (s.retire n).memRead_as sel idx
  refine ⟨x, y, _, _, he, fun h => hx.mpr (.inl h), fun h => hy.mpr (.inl h), rfl, rfl, ?_⟩
  obtain rfl | ⟨hw, rfl⟩ := hm
  · exact .inl (List.append_nil _)
  · exact .inr ⟨hw, rfl⟩

/-! ### A written word -/

/-- Cut to `m` bits and then to `n`, a number is cut to the fewer. -/
theorem mod_two_pow_mod_two_pow (x m n : Nat) : x % 2 ^ m % 2 ^ n = x % 2 ^ min m n := by
  obtain h | h := Nat.le_total m n
  · rw [Nat.min_eq_left h, Nat.mod_eq_of_lt (Nat.lt_of_lt_of_le (Nat.mod_lt _ (Nat.two_pow_pos m))
      (Nat.pow_le_pow_right (by decide) h))]
  · rw [Nat.min_eq_right h, Nat.mod_mod_of_dvd _ (Nat.pow_dvd_pow 2 h)]

/-- The word written is the data modulo 2 to the number of bits the register has there (20_memory.md R72, R75). -/
theorem Reg.toNat_setWord_word {wb n j : Nat} (hwb : 0 < wb) (hj : j < nw wb n) (r : Reg wb n) (d : BitVec wb) :
    ((r.setWord j d).word j).toNat = d.toNat % 2 ^ (n - j * wb) := by
  apply Nat.eq_of_testBit_eq
  intro i
  have hplace : (j * wb + i < n) ↔ i < n - j * wb := by omega
  rw [Nat.testBit_mod_two_pow, ← decide_eq_decide.mpr hplace]
  exact Reg.getLsbD_setWord_word hwb hj r d i

/-- The block with word `j` of an operand register written (20_memory.md R75). -/
def Block.setAt {c : Instance} (b : Block c) (sel : Sel) (j : Nat) (d : BitVec c.WB) : Block c :=
  match sel with
  | .a => { b with A := b.A.setWord j d }
  | .b => { b with B := b.B.setWord j d }
  | .s => { b with S := b.S.setWord j d }
  | .cin => { b with CIN := b.CIN.setWord j d }
  | .r0 | .r1 | .status | .cmd | .reserved _ => b

/-- The word count of an operand register is that of its width. -/
theorem selWords_of_operand (c : Instance) {sel : Sel} (h : sel ∈ operandRegisters) :
    selWords c sel = nw c.WB (selWidth c sel) := by
  cases sel with
  | a | b | s => rfl
  | cin => exact (nw_one c.WB_pos).symm
  | _ => simp [operandRegisters] at h

@[simp] theorem Block.setAt_status {c : Instance} (b : Block c) (sel : Sel) (j : Nat) (d : BitVec c.WB) :
    (b.setAt sel j d).status = b.status := by cases sel <;> rfl

@[simp] theorem Block.setAt_inflight {c : Instance} (b : Block c) (sel : Sel) (j : Nat) (d : BitVec c.WB) :
    (b.setAt sel j d).inflight = b.inflight := by cases sel <;> rfl

section
variable {c : Instance} (b : Block c) {sel : Sel} {j : Nat} (d : BitVec c.WB)

/-- The word addressed is the data cut to its bits, and counts as written (20_memory.md R75). -/
theorem Block.setAt_self (hsel : sel ∈ operandRegisters) (hj : j < selWords c sel) :
    ((b.setAt sel j d).wordAt sel j).toNat = d.toNat % 2 ^ (selWidth c sel - j * c.WB) ∧
      (b.setAt sel j d).writtenAt sel j = true := by
  have hreg {n : Nat} (r : Reg c.WB n) (hn : j < nw c.WB n) :
      ((r.setWord j d).word j).toNat = d.toNat % 2 ^ (n - j * c.WB) ∧ (r.setWord j d).isWritten j = true :=
    ⟨Reg.toNat_setWord_word c.WB_pos hn r d, by simp [Reg.isWritten_setWord hn]⟩
  rw [selWords_of_operand c hsel] at hj
  cases sel with
  | a | b | s | cin => exact hreg _ hj
  | _ => simp [operandRegisters] at hsel

/-- No word but the one addressed changes (20_memory.md R75). -/
theorem Block.setAt_other (hj : j < selWords c sel) {r : Sel} {k : Nat} (h : ¬ (r = sel ∧ k = j)) :
    (b.setAt sel j d).wordAt r k = b.wordAt r k ∧ (b.setAt sel j d).writtenAt r k = b.writtenAt r k := by
  have hword {n : Nat} (q : Reg c.WB n) (hn : j < nw c.WB n) (hk : k ≠ j) :
      (q.setWord j d).word k = q.word k ∧ (q.setWord j d).isWritten k = q.isWritten k :=
    ⟨Reg.setWord_word_of_ne c.WB_pos hn hk q d, by simp [Reg.isWritten_setWord hn, hk]⟩
  cases sel with
  | a => cases r with
    | a => exact hword _ hj fun hk => h ⟨rfl, hk⟩
    | _ => exact ⟨rfl, rfl⟩
  | b => cases r with
    | b => exact hword _ hj fun hk => h ⟨rfl, hk⟩
    | _ => exact ⟨rfl, rfl⟩
  | s => cases r with
    | s => exact hword _ hj fun hk => h ⟨rfl, hk⟩
    | _ => exact ⟨rfl, rfl⟩
  | cin => cases r with
    | cin => exact hword _ (hj.trans_eq (nw_one c.WB_pos).symm) fun hk => h ⟨rfl, hk⟩
    | _ => exact ⟨rfl, rfl⟩
  | _ => exact ⟨rfl, rfl⟩

end

/-! ### Writes -/

/-- A `wr` is its bytes taken from the program and then the access (30_encoding.md R111). -/
theorem exec_wr {s t : State} {sel : Sel} {idx : BitVec 24} {d : BitVec 64}
    (h : (s.retire (headerBytes + s.cfg.wordSize.bytes)).memWrite sel idx (d.setWidth s.cfg.WB) = t) :
    exec (.wr sel idx d) s = .next t := congrArg _ h

/-- A write at a valid address of an operand register sets the word there, at any time (20_memory.md R75). -/
theorem State.memWrite_operand {s : State} {sel : Sel} {idx : BitVec 24} (hsel : sel ∈ operandRegisters)
    (hj : idx.toNat < selWords s.cfg sel) {d : BitVec s.cfg.WB} :
    s.memWrite sel idx d = s.withBlock (s.block.setAt sel idx.toNat d) := by
  simp only [State.memWrite, validAddr_eq_true_iff.mpr hj, if_true]
  cases sel with
  | a | b | s | cin => rfl
  | _ => simp [operandRegisters] at hsel

/-- A write at an address that is not valid sets OOR (20_memory.md R77). -/
theorem State.memWrite_of_invalid {s : State} {sel : Sel} {idx : BitVec 24} {d : BitVec s.cfg.WB}
    (h : selWords s.cfg sel ≤ idx.toNat) : s.memWrite sel idx d = s.withBlock s.block.setOor := by
  simp only [State.memWrite, validAddr_eq_false_iff.mpr h, Bool.false_eq_true, if_false]
  rfl

/-- A write to R0, R1 or STATUS sets ACC (20_memory.md R78). -/
theorem State.memWrite_readOnly {s : State} {sel : Sel} {idx : BitVec 24} (hsel : sel ∈ [Sel.r0, .r1, .status])
    (hj : idx.toNat < selWords s.cfg sel) {d : BitVec s.cfg.WB} :
    s.memWrite sel idx d = s.withBlock s.block.setAcc := by
  simp only [State.memWrite, validAddr_eq_true_iff.mpr hj, if_true]
  cases sel with
  | r0 | r1 | status => rfl
  | _ => simp at hsel

/-- Where no register has changed, no word of a data register has. -/
theorem Block.SameOperandRegisters.words {c : Instance} {b b' : Block c} (ho : b.SameOperandRegisters b')
    (hr : b.SameResultState b') {r : Sel} (h : r ∈ dataRegisters) (k : Nat) :
    b'.wordAt r k = b.wordAt r k ∧ b'.writtenAt r k = b.writtenAt r k := by
  cases r with
  | status | cmd | reserved => simp [dataRegisters, operandRegisters] at h
  | _ => simp only [Block.wordAt, Block.writtenAt, ho.A, ho.B, ho.S, ho.CIN, hr.R0, hr.R1, and_self]

/-- What every write leaves: R0, R1, the flags and every word of a data register but the one addressed; unless it is
to CMD, all that the command cycle writes, BSY and the environment (20_memory.md R75). -/
theorem WrittenAs.leaves {s t : State} {sel : Sel} {idx : BitVec 24} {d : BitVec s.cfg.WB}
    (h : WrittenAs s sel idx d t) :
    ∃ (b : Block s.cfg) (e : Env), t = { s with block := b, env := e } ∧ e.resetLine = s.env.resetLine ∧
      s.block.SameResultState b ∧
      (∀ r ∈ dataRegisters, ∀ k, ¬ (r = sel ∧ k = idx.toNat) →
        b.wordAt r k = s.block.wordAt r k ∧ b.writtenAt r k = s.block.writtenAt r k) ∧
      (sel ≠ .cmd → s.block.SameCommandState b ∧ b.status.bsy = s.block.status.bsy ∧ e = s.env) := by
  have hwords {b : Block s.cfg} (ho : s.block.SameOperandRegisters b) (hres : s.block.SameResultState b) :
      ∀ r ∈ dataRegisters, ∀ k, ¬ (r = sel ∧ k = idx.toNat) →
        b.wordAt r k = s.block.wordAt r k ∧ b.writtenAt r k = s.block.writtenAt r k :=
    fun _ hr k _ => ho.words hres hr k
  cases h with
  | a hsel hv | b hsel hv | s hsel hv | cin hsel hv =>
    subst hsel
    exact ⟨_, _, rfl, rfl, ⟨rfl, rfl, rfl, rfl, rfl⟩,
      fun _ _ _ hn => s.block.setAt_other d (validAddr_eq_true_iff.mp hv) hn,
      fun _ => ⟨⟨⟨rfl, rfl, rfl, rfl, rfl⟩, rfl, rfl, rfl, rfl⟩, rfl, rfl⟩⟩
  | readOnly | invalid =>
    exact ⟨_, _, rfl, rfl, ⟨rfl, rfl, rfl, rfl, rfl⟩, hwords ⟨rfl, rfl, rfl, rfl⟩ ⟨rfl, rfl, rfl, rfl, rfl⟩,
      fun _ => ⟨⟨⟨rfl, rfl, rfl, rfl, rfl⟩, rfl, rfl, rfl, rfl⟩, rfl, rfl⟩⟩
  | dropped hsel | accepted hsel =>
    exact ⟨_, _, rfl, rfl, ⟨rfl, rfl, rfl, rfl, rfl⟩, hwords ⟨rfl, rfl, rfl, rfl⟩ ⟨rfl, rfl, rfl, rfl, rfl⟩,
      fun hne => absurd hsel hne⟩

/-- Which sticky bits a write raises (20_memory.md R77, R78; 40_command_cycle.md R132). -/
theorem WrittenAs.sticky {s t : State} {sel : Sel} {idx : BitVec 24} {d : BitVec s.cfg.WB}
    (h : WrittenAs s sel idx d t) :
    (t.block.status.oor = true ↔ s.block.status.oor = true ∨ validAddr s.cfg sel idx = false) ∧
    (t.block.status.acc = true ↔
      s.block.status.acc = true ∨ (sel ∈ [Sel.r0, .r1, .status] ∧ validAddr s.cfg sel idx = true)) ∧
    (t.block.status.bsy = true ↔
      s.block.status.bsy = true ∨ (sel = .cmd ∧ validAddr s.cfg sel idx = true ∧ s.block.status.busy = true)) := by
  cases h with
  | a hsel hv | b hsel hv | s hsel hv | cin hsel hv =>
    subst hsel
    simp [hv]
  | readOnly hsel hv =>
    have hcmd : sel ≠ .cmd := fun h => by simp [h] at hsel
    simp [hsel, hv, hcmd]
  | invalid hv => simp [hv]
  | dropped hsel hv hb =>
    subst hsel
    simp [hv, hb]
  | accepted hsel hv hb =>
    subst hsel
    simp [hv, hb, State.started]

end Sys2Proof.Machine

open Sys2Proof Sys2Proof.Machine

/-- Settles O43: the access is the return of the word. -/
theorem readReturnsWord : Obligations.ReadReturnsWord :=
  fun _ _ _ hj hw hsel => exec_rd (State.memRead_of_written hj hw hsel)

/-- Settles O46: the block is the old one with one word of an operand register set. -/
theorem writeSetsWord : Obligations.WriteSetsWord := by
  intro s sel idx d hsel hj
  obtain ⟨hword, hwritten⟩ := s.block.setAt_self (d.setWidth s.cfg.WB) hsel hj
  refine ⟨_, exec_wr (State.memWrite_operand (s := s.retire _) hsel hj), hword.trans ?_, hwritten,
    fun _ _ hn => s.block.setAt_other _ hj hn, Block.setAt_status _ _ _ _, Block.setAt_inflight _ _ _ _⟩
  rw [BitVec.toNat_setWidth, mod_two_pow_mod_two_pow]

/-- Settles O48: a read, and each way of writing, raises the sticky bits the spec names. -/
theorem accessErrorsExactly : Obligations.AccessErrorsExactly := by
  intro s t sel idx d
  simp only [← validAddr_eq_true_iff, ← validAddr_eq_false_iff]
  refine ⟨fun h => ?_, fun h => ?_⟩
  · obtain ⟨x, y, _, _, _, he, hx, hy, -⟩ := (s.retire headerBytes).memRead_as sel idx
    rw [exec_rd he] at h
    cases h
    exact ⟨hx, hy, rfl⟩
  · cases h
    obtain ⟨hoor, hacc, hbsy⟩ := (State.memWrite_as (s.retire (headerBytes + s.cfg.wordSize.bytes)) sel idx
      (d.setWidth s.cfg.WB)).sticky
    have hword (hsel : sel = .cmd) : validAddr s.cfg sel idx = true ↔ idx.toNat = 0 := by
      rw [hsel, validAddr_eq_true_iff]
      exact Nat.lt_one_iff
    exact ⟨hoor, hacc, hbsy.trans (or_congr_right (and_congr_right fun hsel => and_congr_left' (hword hsel)))⟩

/-- Settles O49: `rd` and a `poll` that does not wait are one access; the word a `poll` reads is never unwritten. -/
theorem readFrame : Obligations.ReadFrame := by
  rintro s t i (rfl | ⟨sel, idx, rfl⟩) h
  · simp only [exec, execPoll] at h
    split at h
    · cases h
      exact ⟨_, _, _, _, rfl, id, id, rfl, rfl, .inl rfl⟩
    · obtain ⟨x, y, hs, e, he, hx, hy, hr, hl, hm⟩ := s.retire_memRead_leaves headerBytes .status 0#24
      rw [he] at h
      cases h
      exact ⟨x, y, hs, e, rfl, hx, hy, hr, hl, .inl (hm.resolve_right fun hn => by cases hn.1)⟩
  · obtain ⟨x, y, hs, e, he, hx, hy, hr, hl, hm⟩ := s.retire_memRead_leaves headerBytes sel idx
    rw [exec_rd he] at h
    cases h
    exact ⟨x, y, hs, e, rfl, hx, hy, hr, hl, hm.imp_right fun hn => ⟨sel, idx, rfl, hn⟩⟩

/-- Settles O50: by what each way of writing leaves. -/
theorem writeFrame : Obligations.WriteFrame := by
  intro s t sel idx d h
  cases h
  obtain ⟨b, e, he, hreset, hres, hwords, hcmd⟩ := (State.memWrite_as
    (s.retire (headerBytes + s.cfg.wordSize.bytes)) sel idx (d.setWidth s.cfg.WB)).leaves
  refine ⟨b, _, e, he, rfl, hreset, hres.R0, hres.R1, hres.carry, hres.zero, hres.negative, hwords, fun hne => ?_⟩
  obtain ⟨hcs, hbsy, rfl⟩ := hcmd hne
  exact ⟨hcs.inflight, hcs.busy, hcs.done, hcs.err, hbsy, rfl⟩

/-- Settles O47: an access that is not valid, or not allowed, only sets its sticky bit. -/
theorem accessErrors : Obligations.AccessErrors := by
  intro s sel idx d
  refine ⟨fun h => ⟨exec_rd (State.memRead_of_invalid h), exec_wr (State.memWrite_of_invalid h)⟩,
    fun hj => ⟨fun hsel => exec_wr (State.memWrite_readOnly (s := s.retire _) hsel hj), fun hsel => ?_⟩⟩
  subst hsel
  exact exec_rd (State.memRead_cmd hj)

end

section
/-! The statements of spec/30_encoding.md: the command byte and the header by their fields, decode and encode as
inverses (R101, R103, R108, R109), program images (R109, R110), and the pseudo-instructions `ld` and `rdv` (R114). -/

namespace Sys2Proof

/-! ### Headers -/

/-- A header's fields at their places (30_encoding.md R103, R111). -/
theorem toNat_header (wr p : Bool) (sel : Sel) (idx : BitVec 24) :
    (header wr p sel idx).toNat = wr.toNat * 2 ^ 31 + p.toNat * 2 ^ 30 + sel.code.toNat * 2 ^ 24 + idx.toNat := by
  simp only [header, BitVec.toNat_append, BitVec.toNat_ofBool, BitVec.toNat_ofNat, Nat.zero_mod, Nat.or_zero]
  rw [← Nat.shiftLeft_add_eq_or_of_lt idx.isLt, ← Nat.shiftLeft_add_eq_or_of_lt sel.code.isLt,
    ← Nat.shiftLeft_add_eq_or_of_lt p.toNat_lt]
  simp only [Nat.shiftLeft_eq]
  omega

/-- A bit field of a header, of `n` bits from bit `k` on, as a number. -/
theorem toNat_field (h : BitVec 32) (k n : Nat) : (h.extractLsb' k n).toNat = h.toNat / 2 ^ k % 2 ^ n := by
  rw [BitVec.extractLsb'_toNat, Nat.shiftRight_eq_div_pow]

theorem field_eq_iff {n : Nat} (h : BitVec 32) (k : Nat) (x : BitVec n) :
    h.extractLsb' k n = x ↔ h.toNat / 2 ^ k % 2 ^ n = x.toNat := by
  rw [← BitVec.toNat_inj, toNat_field]

theorem Sel.eq_status_iff {sel : Sel} : sel = .status ↔ sel.code = 6#4 := by
  refine ⟨fun h => h ▸ rfl, fun h => ?_⟩
  rw [← Sel.ofCode_code sel, h]
  rfl

section
variable (wr p : Bool) (sel : Sel) (idx : BitVec 24)

theorem header_wr : (header wr p sel idx).getLsbD 31 = wr := by
  simp only [header, BitVec.getLsbD_append]
  cases wr <;> rfl

theorem header_p : (header wr p sel idx).getLsbD 30 = p := by
  simp only [header, BitVec.getLsbD_append]
  cases p <;> rfl

theorem header_reserved : (header wr p sel idx).extractLsb' 28 2 = 0#2 := by
  have hsel := sel.code.isLt
  apply BitVec.eq_of_toNat_eq
  rw [toNat_field, toNat_header, BitVec.toNat_ofNat]
  omega

theorem header_code : (header wr p sel idx).extractLsb' 24 4 = sel.code := by
  have hsel := sel.code.isLt
  apply BitVec.eq_of_toNat_eq
  rw [toNat_field, toNat_header]
  omega

theorem header_idx : (header wr p sel idx).extractLsb' 0 24 = idx :=
  BitVec.extractLsb'_append_eq_right

end

/-- A header with the reserved bits 0 is made of its fields: no bit is ignored (30_encoding.md R103). -/
theorem exists_header_fields {h : BitVec 32} (hr : h.extractLsb' 28 2 = 0#2) :
    ∃ wr p sel idx, h = header wr p sel idx := by
  refine ⟨h.getLsbD 31, h.getLsbD 30, Sel.ofCode (h.extractLsb' 24 4), h.extractLsb' 0 24, ?_⟩
  have hzero : h.toNat / 2 ^ 28 % 2 ^ 2 = 0 := by rw [← toNat_field, hr]; rfl
  have hlt := h.isLt
  apply BitVec.eq_of_toNat_eq
  rw [toNat_header, Sel.code_ofCode, toNat_field, toNat_field, BitVec.getLsbD, BitVec.getLsbD, Nat.toNat_testBit,
    Nat.toNat_testBit]
  omega

/-! ### Decoding a header -/

theorem decodeHeader_reserved (ws : WordSize) {h : BitVec 32} (rest : List Byte) (hr : h.extractLsb' 28 2 ≠ 0#2) :
    decodeHeader ws h rest = .reject .reservedBits := by
  simp only [decodeHeader, if_pos hr]

/-- What a header decodes to, by its fields (30_encoding.md R108, R111). -/
theorem decodeHeader_header (ws : WordSize) (wr p : Bool) (sel : Sel) (idx : BitVec 24) (rest : List Byte) :
    decodeHeader ws (header wr p sel idx) rest =
      if p then if wr = false ∧ sel = .status ∧ idx = 0#24 then .ok .poll rest else .reject .badPoll
      else if wr then
        if rest.length < ws.bytes then .reject .truncated
        else .ok (.wr sel idx (BitVec.ofNat 64 (ofBytes (rest.take ws.bytes)))) (rest.drop ws.bytes)
      else .ok (.rd sel idx) rest := by
  simp only [decodeHeader, header_reserved, header_wr, header_p, header_code, Sel.ofCode_code, header_idx, ne_eq,
    not_true_eq_false, if_false]

/-- A header is refused for what it says itself exactly if it polls anything but STATUS word 0. -/
theorem decodeHeader_refuses_iff {ws : WordSize} {wr p : Bool} {sel : Sel} {idx : BitVec 24} {rest : List Byte} :
    (∃ why, decodeHeader ws (header wr p sel idx) rest = .reject why ∧ why ≠ .truncated) ↔
      p = true ∧ (wr = true ∨ sel ≠ .status ∨ idx ≠ 0#24) := by
  rw [decodeHeader_header]
  split_ifs with hp hpoll hwr hl
  · obtain ⟨rfl, rfl, rfl⟩ := hpoll
    simp
  · have hnot : wr = true ∨ sel ≠ .status ∨ idx ≠ 0#24 := by
      rwa [not_and_or, not_and_or, Bool.not_eq_false] at hpoll
    simp [hp, hnot]
  all_goals simp [hp]

/-! ### Words of an image -/

theorem WordSize.pow_bytes (ws : WordSize) : 256 ^ ws.bytes = 2 ^ ws.bits := by cases ws <;> rfl

theorem ofBytes_take_lt (k : Nat) (bytes : List Byte) : ofBytes (bytes.take k) < 256 ^ k :=
  (ofBytes_lt _).trans_le (Nat.pow_le_pow_right (by decide) (List.length_take_le k bytes))

/-- A word wide enough for `k` bytes holds them. -/
theorem toNat_word_take {k w : Nat} (hw : 256 ^ k ≤ 2 ^ w) (bytes : List Byte) :
    (BitVec.ofNat w (ofBytes (bytes.take k))).toNat = ofBytes (bytes.take k) := by
  rw [BitVec.toNat_ofNat, Nat.mod_eq_of_lt ((ofBytes_take_lt k bytes).trans_le hw)]

/-- The first `k` bytes of an image are the bytes of the word they make. -/
theorem toBytes_word_take {k w : Nat} {bytes : List Byte} (hw : 256 ^ k ≤ 2 ^ w) (hk : k ≤ bytes.length) :
    toBytes k (BitVec.ofNat w (ofBytes (bytes.take k))).toNat = bytes.take k := by
  have hbytes := toBytes_ofBytes (bytes.take k)
  rwa [List.length_take_of_le hk, ← toNat_word_take hw] at hbytes

/-- A word that fits in `k` bytes is the word of its bytes. -/
theorem ofNat_ofBytes_toBytes {k w : Nat} {x : BitVec w} (h : x.toNat < 256 ^ k) :
    BitVec.ofNat w (ofBytes (toBytes k x.toNat)) = x := by
  rw [ofBytes_toBytes, Nat.mod_eq_of_lt h, BitVec.ofNat_toNat, BitVec.setWidth_eq]

theorem WordSize.pow_bytes_le (ws : WordSize) : 256 ^ ws.bytes ≤ 2 ^ 64 := by
  rw [ws.pow_bytes]
  exact Nat.pow_le_pow_right (by decide) ws.bits_le

/-! ### Transactions -/

/-- The transaction at the front of an image is the one of its header (30_encoding.md R109). -/
theorem decode_bus_header (ws : WordSize) (h : BitVec 32) (rest : List Byte) :
    decode .bus ws (toBytes headerBytes h.toNat ++ rest) = decodeHeader ws h rest := by
  have hlen := length_toBytes headerBytes h.toNat
  simp only [decode, List.take_left' hlen, List.drop_left' hlen, ofNat_ofBytes_toBytes (k := headerBytes) h.isLt]
  rw [if_neg (by rw [List.length_append, hlen]; omega)]

theorem decode_bus_short (ws : WordSize) {bytes : List Byte} (hl : bytes.length < headerBytes) :
    decode .bus ws bytes = .reject .truncated := if_pos hl

/-- Bytes that are enough for a header start with one. -/
theorem exists_header {bytes : List Byte} (hl : headerBytes ≤ bytes.length) :
    ∃ (h : BitVec 32) (rest : List Byte), bytes = toBytes headerBytes h.toNat ++ rest :=
  ⟨_, bytes.drop headerBytes, by rw [toBytes_word_take (w := 32) (by decide) hl, List.take_append_drop]⟩

/-- What a header decodes to is well formed, and its encoding is the header and the data word after it. -/
theorem encode_of_decodeHeader {ws : WordSize} {h : BitVec 32} {rest rest' : List Byte} {i : Instr}
    (hd : decodeHeader ws h rest = .ok i rest') :
    i.wellFormed ws = true ∧ encode ws i ++ rest' = toBytes headerBytes h.toNat ++ rest := by
  by_cases hr : h.extractLsb' 28 2 = 0#2
  · obtain ⟨wr, p, sel, idx, rfl⟩ := exists_header_fields hr
    rw [decodeHeader_header] at hd
    split_ifs at hd with hp hpoll hwr hl
    · obtain ⟨rfl, rfl, rfl⟩ := hpoll
      subst hp
      cases hd
      exact ⟨rfl, rfl⟩
    · subst hwr
      obtain rfl := Bool.eq_false_of_not_eq_true hp
      cases hd
      refine ⟨decide_eq_true ?_, ?_⟩
      · rw [toNat_word_take ws.pow_bytes_le, ← ws.pow_bytes]
        exact ofBytes_take_lt _ _
      · rw [encode, toBytes_word_take ws.pow_bytes_le (Nat.le_of_not_lt hl), List.append_assoc, List.take_append_drop]
    · obtain rfl := Bool.eq_false_of_not_eq_true hp
      obtain rfl := Bool.eq_false_of_not_eq_true hwr
      cases hd
      exact ⟨rfl, rfl⟩
  · rw [decodeHeader_reserved ws rest hr] at hd
    cases hd

section
variable (ws : WordSize) (sel : Sel) (idx : BitVec 24) (rest : List Byte)

theorem decode_encode_rd : decode .bus ws (encode ws (.rd sel idx) ++ rest) = .ok (.rd sel idx) rest := by
  rw [encode, decode_bus_header, decodeHeader_header]
  rfl

theorem decode_encode_poll : decode .bus ws (encode ws .poll ++ rest) = .ok .poll rest := by
  rw [encode, decode_bus_header, decodeHeader_header]
  rfl

theorem decode_encode_wr {data : BitVec 64} (h : data.toNat < 2 ^ ws.bits) :
    decode .bus ws (encode ws (.wr sel idx data) ++ rest) = .ok (.wr sel idx data) rest := by
  have hlen := length_toBytes ws.bytes data.toNat
  rw [← ws.pow_bytes] at h
  rw [encode, List.append_assoc, decode_bus_header, decodeHeader_header, List.take_left' hlen, List.drop_left' hlen,
    ofNat_ofBytes_toBytes h, List.length_append, hlen]
  simp

end

/-! ### Command bytes -/

section
variable {i : Instr} (ws : WordSize)

theorem decodeOpcode_opcode (hi : i.form = .cmd8) : decodeOpcode (opcode i) = some i := by
  cases i with
  | rd | wr | poll => cases hi
  | _ => rfl

theorem encode_of_cmd8 (hi : i.form = .cmd8) : encode ws i = [opcode i] := by
  cases i with
  | rd | wr | poll => cases hi
  | _ => rfl

theorem wellFormed_of_cmd8 (hi : i.form = .cmd8) : i.wellFormed ws = true := by
  cases i with
  | rd | wr | poll => cases hi
  | _ => rfl

theorem opcode_of_decodeOpcode {op : BitVec 8} (h : decodeOpcode op = some i) : opcode i = op := by
  have hmap : ∀ op : BitVec 8, ∀ i ∈ decodeOpcode op, opcode i = op := by decide
  exact hmap op i h

/-- What the decoder of command bytes accepts starts with an opcode of the map (30_encoding.md R101). -/
theorem decode_cmd8_ok {bytes rest : List Byte} (h : decode .cmd8 ws bytes = .ok i rest) :
    ∃ op, bytes = op :: rest ∧ decodeOpcode op = some i := by
  simp only [decode] at h
  split at h
  · cases h
  split at h
  · next hop =>
    cases h
    exact ⟨_, rfl, hop⟩
  · cases h

theorem decode_encode_of_cmd8 (hi : i.form = .cmd8) (rest : List Byte) :
    decode .cmd8 ws (encode ws i ++ rest) = .ok i rest := by
  simp only [encode_of_cmd8 ws hi, List.singleton_append, decode, decodeOpcode_opcode hi]

end

theorem decode_encode {ws : WordSize} {i : Instr} (rest : List Byte) (h : i.wellFormed ws = true) :
    decode i.form ws (encode ws i ++ rest) = .ok i rest := by
  cases i with
  | rd sel idx => exact decode_encode_rd ws sel idx rest
  | wr sel idx data => exact decode_encode_wr ws sel idx rest (of_decide_eq_true h)
  | poll => exact decode_encode_poll ws rest
  | _ => exact decode_encode_of_cmd8 ws rfl rest

/-! ### Programs -/

/-- A program's decoding with transactions put before it. -/
def Program.after (is : List Instr) : Program → Program
  | .ok js => .ok (is ++ js)
  | .bad pos why => .bad pos why

theorem Program.after_nil (p : Program) : p.after [] = p := by cases p <;> rfl

theorem Program.after_cons (i : Instr) (is : List Instr) (p : Program) :
    (p.after is).after [i] = p.after (i :: is) := by cases p <;> rfl

theorem decodeProgram_after {ws : WordSize} {bytes rest : List Byte} {i : Instr} (pos : Nat)
    (h : decode .bus ws bytes = .ok i rest) :
    decodeProgram ws pos bytes = (decodeProgram ws (pos + 1) rest).after [i] := by
  rw [decodeProgram_of_ok h]
  cases decodeProgram ws (pos + 1) rest <;> rfl

/-- An image with other bytes after it decodes to its transactions and then to what those bytes decode to
(30_encoding.md R109). -/
theorem decodeProgram_encodeProgram_append {ws : WordSize} {is : List Instr} (h : programWellFormed ws is = true)
    (pos : Nat) (bytes : List Byte) :
    decodeProgram ws pos (encodeProgram ws is ++ bytes) = (decodeProgram ws (pos + is.length) bytes).after is := by
  induction is generalizing pos with
  | nil => exact (Program.after_nil _).symm
  | cons i is ih =>
    simp only [programWellFormed, List.all_cons, Bool.and_eq_true, decide_eq_true_eq] at h
    obtain ⟨⟨hform, hwf⟩, his⟩ := h
    have hd := decode_encode (encodeProgram ws is ++ bytes) hwf
    rw [hform] at hd
    rw [encodeProgram, List.flatMap_cons, List.append_assoc, ← encodeProgram, decodeProgram_after pos hd, ih his,
      Program.after_cons, List.length_cons, Nat.add_right_comm, Nat.add_assoc]

end Sys2Proof

namespace Sys2Proof.Machine

/-! ### The block's turn -/

/-- The converse of `State.turn_block`: a due command is completed next. -/
theorem State.turn_eq_block {s : State} {f : Inflight s.cfg} (hr : s.env.resetLine = false)
    (hf : s.block.inflight = some f) (hdue : s.commandDue) : s.turn = .block f.op := by
  simp only [State.turn, hr, Bool.false_eq_true, if_false, hf]
  cases hd : s.env.delay with
  | zero => rfl
  | succ d =>
    obtain hp | ⟨is, hp⟩ := hdue.resolve_left (by simp [hd])
    · rw [hp]; rfl
    · rw [hp]; rfl

/-! ### The words of a register, one after the other -/

/-- Word `j` of the register has been written and is that of the value. -/
def Reg.HoldsWord {wb n : Nat} (r : Reg wb n) (v : BitVec n) (j : Nat) : Prop :=
  r.word j = wordOf wb v j ∧ r.isWritten j = true

/-- `k` words of a value written from word `j` on, in index order (30_encoding.md R114). -/
def Reg.setWords {wb n : Nat} (r : Reg wb n) (v : BitVec n) : Nat → Nat → Reg wb n
  | _, 0 => r
  | j, k + 1 => (r.setWord j (wordOf wb v j)).setWords v (j + 1) k

section
variable {wb n : Nat} {r : Reg wb n} {v : BitVec n} {i j : Nat}

theorem Reg.setWord_holdsWord_self (hwb : 0 < wb) (hj : j < nw wb n) :
    (r.setWord j (wordOf wb v j)).HoldsWord v j := by
  refine ⟨BitVec.eq_of_getLsbD_eq fun i _ => ?_, by simp [Reg.isWritten_setWord hj]⟩
  rw [Reg.getLsbD_setWord_word hwb hj, getLsbD_wordOf]
  by_cases hn : j * wb + i < n
  · rw [decide_eq_true hn, Bool.true_and]
  · rw [BitVec.getLsbD_of_ge v _ (Nat.le_of_not_lt hn), Bool.and_false, Bool.and_false]

theorem Reg.HoldsWord.setWord (h : r.HoldsWord v i) (hwb : 0 < wb) (hj : j < nw wb n) :
    (r.setWord j (wordOf wb v j)).HoldsWord v i := by
  by_cases hi : i = j
  · rw [hi]
    exact Reg.setWord_holdsWord_self hwb hj
  · obtain ⟨hword, hwritten⟩ := h
    exact ⟨(Reg.setWord_word_of_ne hwb hj hi r _).trans hword, by simp [Reg.isWritten_setWord hj, hwritten]⟩

theorem Reg.setWords_holdsWord (hwb : 0 < wb) {k : Nat} (hj : j + k ≤ nw wb n)
    (h : r.HoldsWord v i ∨ (j ≤ i ∧ i < j + k)) : (r.setWords v j k).HoldsWord v i := by
  induction k generalizing r j with
  | zero => exact h.resolve_right (by omega)
  | succ k ih =>
    apply ih (by omega)
    obtain h | ⟨hle, hlt⟩ := h
    · exact .inl (h.setWord hwb (by omega))
    · obtain rfl | hne := Nat.eq_or_lt_of_le hle
      · exact .inl (Reg.setWord_holdsWord_self hwb (by omega))
      · exact .inr (by omega)

theorem Reg.eq_load_of_holdsWord (hwb : 0 < wb) (h : ∀ i < nw wb n, r.HoldsWord v i) : r = Reg.load wb v := by
  have hval : r.val = v := by
    refine BitVec.eq_of_getLsbD_eq fun i hi => ?_
    rw [getLsbD_of_word hwb r, (h _ (div_lt_nw hwb hi)).1]
    exact (getLsbD_of_word hwb (Reg.load wb v) i).symm
  have hwritten : r.written = BitVec.allOnes (nw wb n) := by
    refine BitVec.eq_of_getLsbD_eq fun i hi => ?_
    rw [BitVec.getLsbD_allOnes, decide_eq_true hi]
    exact (h i hi).2
  rw [Reg.load, ← hval, ← hwritten]

/-- Once every word has been written, nothing of what the register held is left. -/
theorem Reg.setWords_all (hwb : 0 < wb) (r : Reg wb n) (v : BitVec n) :
    r.setWords v 0 (nw wb n) = Reg.load wb v :=
  Reg.eq_load_of_holdsWord hwb fun i hi => Reg.setWords_holdsWord hwb (by omega) (.inr (by omega))

end

theorem Reg.holding_residue (wb n : Nat) (x : Int) : Reg.holding wb n (residue n x) = Reg.load wb (bitsOf n x) := by
  rw [Reg.holding, Reg.load, ← toNat_bitsOf, BitVec.ofNat_toNat, BitVec.setWidth_eq]

/-- The block after the writes of `ld` to `k` words from word `j` on (30_encoding.md R114). -/
def Block.loadedFrom {c : Instance} (b : Block c) (sel : Sel) (x : Int) (j k : Nat) : Block c :=
  match sel with
  | .a => { b with A := b.A.setWords (bitsOf c.W x) j k }
  | .b => { b with B := b.B.setWords (bitsOf c.V x) j k }
  | .s => { b with S := b.S.setWords (bitsOf c.SW x) j k }
  | .cin => { b with CIN := b.CIN.setWords (bitsOf 1 x) j k }
  | .r0 | .r1 | .status | .cmd | .reserved _ => b

section
variable {c : Instance} (b : Block c) {sel : Sel} (x : Int)

theorem Block.loadedFrom_zero (j : Nat) : b.loadedFrom sel x j 0 = b := by cases sel <;> rfl

theorem Block.loadedFrom_succ (j k : Nat) :
    b.loadedFrom sel x j (k + 1) =
      (b.setAt sel j (wordOf c.WB (bitsOf (selWidth c sel) x) j)).loadedFrom sel x (j + 1) k := by
  cases sel <;> rfl

theorem Block.loadedFrom_all (hsel : sel ∈ operandRegisters) :
    b.loadedFrom sel x 0 (selWords c sel) = b.loaded sel x := by
  rw [selWords_of_operand c hsel]
  cases sel with
  | a | b | s | cin =>
    simp only [Block.loadedFrom, Block.loaded, selWidth, Reg.setWords_all c.WB_pos, Reg.holding_residue]
  | _ => simp [operandRegisters] at hsel

end

/-! ### Word indices -/

theorem nw_mono {wb m n : Nat} (h : m ≤ n) : nw wb m ≤ nw wb n := Nat.div_le_div_right (by omega)

theorem nw_le_self {wb n : Nat} (hwb : 0 < wb) : nw wb n ≤ n := by
  rw [nw, ← Nat.lt_succ_iff, Nat.div_lt_iff_lt_mul hwb, Nat.succ_mul]
  have := Nat.le_mul_of_pos_right n hwb
  omega

/-- Every word of a data register has an index of 24 bits (30_encoding.md R104). -/
theorem selWords_le_of_data (c : Instance) {sel : Sel} (h : sel ∈ dataRegisters) : selWords c sel ≤ 2 ^ 24 := by
  have hfits : nw c.WB (c.W + c.V) ≤ 2 ^ 24 := c.index_fits
  cases sel with
  | a | b | r1 => exact (nw_mono (by omega)).trans hfits
  | r0 => exact hfits
  | s => exact (nw_le_self c.WB_pos).trans (c.SW_le.trans (by decide))
  | cin => exact Nat.one_le_two_pow
  | _ => simp [dataRegisters, operandRegisters] at h

theorem toNat_index {c : Instance} {sel : Sel} (h : sel ∈ dataRegisters) {j : Nat} (hj : j < selWords c sel) :
    (BitVec.ofNat 24 j).toNat = j := by
  rw [BitVec.toNat_ofNat, Nat.mod_eq_of_lt (hj.trans_le (selWords_le_of_data c h))]

/-! ### `ld` and `rdv` -/

theorem performAll_cons {i : Instr} {s t : State} (h : exec i s = .next t) (is : List Instr) :
    performAll (i :: is) s = performAll is t := by
  simp only [performAll, h]

/-- A data word carried by a `wr` reaches the register as it is (30_encoding.md R103). -/
theorem setWidth_dataWord (c : Instance) (d : BitVec c.WB) : (d.setWidth 64).setWidth c.WB = d := by
  rw [BitVec.setWidth_setWidth_of_le _ c.WB_le, BitVec.setWidth_eq]

/-- The write of word `j` that `ld` does (30_encoding.md R114). -/
theorem exec_wr_word {s : State} {sel : Sel} {j : Nat} (hsel : sel ∈ operandRegisters) (hj : j < selWords s.cfg sel)
    (d : BitVec s.cfg.WB) :
    exec (.wr sel (BitVec.ofNat 24 j) (d.setWidth 64)) s =
      .next ((s.retire (headerBytes + s.cfg.wordSize.bytes)).withBlock (s.block.setAt sel j d)) := by
  have hidx := toNat_index (List.mem_append_left _ hsel) hj
  refine exec_wr ((State.memWrite_operand (s := s.retire _) hsel (hidx.symm ▸ hj)).trans ?_)
  rw [hidx, setWidth_dataWord]
  rfl

/-- The read of word `j` that `rdv` does (30_encoding.md R114). -/
theorem exec_rd_word {s : State} {sel : Sel} {j : Nat} (hsel : sel ∈ dataRegisters) (hj : j < selWords s.cfg sel)
    (hbusy : s.block.status.busy = false) (hw : s.block.writtenAt sel j = true) :
    exec (.rd sel (BitVec.ofNat 24 j)) s = .next ((s.retire headerBytes).returned (s.block.wordAt sel j)) := by
  have hidx := toNat_index hsel hj
  refine exec_rd ((State.memRead_of_written (s := s.retire headerBytes) (hidx.symm ▸ hj) (hidx.symm ▸ hw)
    ((List.mem_append.mp hsel).imp_right fun h => ⟨h, hbusy⟩)).trans ?_)
  rw [hidx]
  rfl

theorem performAll_asmLdFrom {sel : Sel} (hsel : sel ∈ operandRegisters) (x : Int) {j k : Nat} (s : State)
    (hk : j + k ≤ selWords s.cfg sel) :
    ∃ (h : HostSide s.cfg) (e : Env), performAll (asmLdFrom s.cfg sel x j k) s =
        .next { s with block := s.block.loadedFrom sel x j k, host := h, env := e } ∧
      h.reads = s.host.reads := by
  induction k generalizing j s with
  | zero => exact ⟨s.host, s.env, by rw [Block.loadedFrom_zero]; rfl, rfl⟩
  | succ k ih =>
    rw [asmLdFrom, performAll_cons (exec_wr_word hsel (by omega) _), Block.loadedFrom_succ]
    exact ih (State.withBlock (s.retire _) _) (by rwa [Nat.add_right_comm, Nat.add_assoc])

theorem performAll_asmRdvFrom {sel : Sel} (hsel : sel ∈ dataRegisters) {j k : Nat} (s : State)
    (hbusy : s.block.status.busy = false)
    (hw : ∀ j, j < selWords s.cfg sel → s.block.writtenAt sel j = true) (hk : j + k ≤ selWords s.cfg sel) :
    ∃ (h : HostSide s.cfg) (e : Env), performAll (asmRdvFrom sel j k) s = .next { s with host := h, env := e } ∧
      h.reads = s.host.reads ++ (List.range' j k).map (s.block.wordAt sel) := by
  induction k generalizing j s with
  | zero => exact ⟨s.host, s.env, rfl, (List.append_nil _).symm⟩
  | succ k ih =>
    have hj : j < selWords s.cfg sel := by omega
    rw [asmRdvFrom, performAll_cons (exec_rd_word hsel hj hbusy (hw j hj)), List.range'_succ, List.map_cons,
      ← List.singleton_append, ← List.append_assoc]
    exact ih (State.returned (s.retire _) _) hbusy hw (by rwa [Nat.add_right_comm, Nat.add_assoc])

/-- The words of a data register name its number. -/
theorem rdvValue_wordAt {c : Instance} (b : Block c) {sel : Sel} (h : sel ∈ dataRegisters) :
    rdvValue ((List.range (selWords c sel)).map (b.wordAt sel)) = b.number sel := by
  cases sel with
  | a | b | s | r0 | r1 => exact rdvValue_words c.WB_pos _
  | cin => rw [selWords_of_operand c (by decide)]; exact rdvValue_words c.WB_pos _
  | _ => simp [dataRegisters, operandRegisters] at h

end Sys2Proof.Machine

open Sys2Proof Sys2Proof.Machine

/-- Settles O5: each form's decoder reads back what the encoder wrote. -/
theorem decodeOfEncode : Obligations.DecodeOfEncode :=
  fun _ _ rest h => decode_encode rest h

/-- Settles O7: the image with no bytes after it. -/
theorem programDecodeOfEncode : Obligations.ProgramDecodeOfEncode := by
  intro ws pos is h
  have hd := decodeProgram_encodeProgram_append h pos []
  rwa [List.append_nil, decodeProgram_nil, Program.after, List.append_nil] at hd

/-- Settles O8: the bytes after the image are refused with the number of the transaction they would be. -/
theorem badProgramNamesPosition : Obligations.BadProgramNamesPosition := by
  intro ws pos is bad why h hne hbad
  rw [decodeProgram_encodeProgram_append h, decodeProgram_of_reject hne hbad, Program.after]

/-- Settles O6: an opcode is that of its command, and a header is made of its fields. -/
theorem encodeOfDecode : Obligations.EncodeOfDecode := by
  intro form ws bytes i rest h
  cases form with
  | cmd8 =>
    obtain ⟨op, rfl, hop⟩ := decode_cmd8_ok ws h
    have hi := decodeOpcode_form hop
    exact ⟨hi, wellFormed_of_cmd8 ws hi, by rw [encode_of_cmd8 ws hi, opcode_of_decodeOpcode hop]; rfl⟩
  | bus =>
    obtain hl | hl := Nat.lt_or_ge bytes.length headerBytes
    · rw [decode_bus_short ws hl] at h
      cases h
    · obtain ⟨hdr, tail, rfl⟩ := exists_header hl
      have hform := (decode_bus_ok h).1
      rw [decode_bus_header] at h
      exact ⟨hform, encode_of_decodeHeader h⟩

/-- Settles O3: a header with the reserved bits 0 is made of its fields, which say what it decodes to. -/
theorem refusedHeaders : Obligations.RefusedHeaders := by
  intro ws h rest
  have hreserved : h.extractLsb' 28 2 = 0#2 ↔ h.toNat / 2 ^ 28 % 4 = 0 := field_eq_iff h 28 0#2
  by_cases hr : h.extractLsb' 28 2 = 0#2
  · obtain ⟨wr, p, sel, idx, rfl⟩ := exists_header_fields hr
    have hp : (header wr p sel idx).toNat.testBit 30 = p := header_p wr p sel idx
    have hwr : (header wr p sel idx).toNat.testBit 31 = wr := header_wr wr p sel idx
    have hsel : sel = .status ↔ (header wr p sel idx).toNat / 2 ^ 24 % 16 = 6 := by
      rw [Sel.eq_status_iff, ← header_code wr p sel idx]
      exact field_eq_iff _ 24 6#4
    have hidx : idx = 0#24 ↔ (header wr p sel idx).toNat % 2 ^ 24 = 0 := by
      conv_lhs => rw [← header_idx wr p sel idx, field_eq_iff, pow_zero, Nat.div_one]
      rfl
    rw [decodeHeader_refuses_iff, hp, hwr, ne_eq sel, hsel, ne_eq idx, hidx, hreserved.mp hr]
    simp
  · rw [decodeHeader_reserved ws rest hr]
    exact iff_of_true ⟨_, rfl, by decide⟩ (.inl (mt hreserved.mpr hr))

/-- Settles O1: by evaluation. -/
theorem sampleWordsDecode : Obligations.SampleWordsDecode := by
  unfold Obligations.SampleWordsDecode
  decide

/-- Settles O2: by evaluation of the 256 opcodes. -/
theorem unassignedOpcodes : Obligations.UnassignedOpcodes := by
  unfold Obligations.UnassignedOpcodes
  exact ⟨by decide, by decide +kernel⟩

/-- Settles O4: a header is the sum of its fields at their places. -/
theorem assemblerHeaders : Obligations.AssemblerHeaders :=
  ⟨fun sel idx => by simp [toNat_header], rfl, rfl, by decide⟩

/-- Settles O11: the turn is the block's, and an opcode outside the map completes with the error. -/
theorem unassignedOpcodeCompletes : Obligations.UnassignedOpcodeCompletes := by
  intro s f hr hf hdue hop
  simp only [step, State.turn_eq_block hr hf hdue, hop]
  exact State.complete_of_inflight hf _

/-- Settles O52: once every word has been written, the register is the pattern of `x`. -/
theorem ldLoadsRegister : Obligations.LdLoadsRegister := by
  intro s sel x hsel
  rw [← Block.loadedFrom_all s.block x hsel]
  exact performAll_asmLdFrom hsel x s (Nat.zero_add _).le

/-- Settles O53: the words returned are the register's, in index order. -/
theorem rdvReadsRegister : Obligations.RdvReadsRegister := by
  intro s sel hsel hbusy hw
  obtain ⟨h, e, he, hreads⟩ := performAll_asmRdvFrom hsel s hbusy hw (Nat.zero_add _).le
  refine ⟨h, e, _, he, hreads, by simp, ?_⟩
  rw [← List.range_eq_range']
  exact rdvValue_wordAt s.block hsel

end

section
/-! The statements of spec/40_command_cycle.md: the acceptance and the drop of a command, its operand set, what its
completion leaves, that it completes in time, and that no result depends on its latency. -/

namespace Sys2Proof.Machine

/-! ### A write to CMD -/

/-- With BUSY = 1 a write to CMD is dropped and sets BSY (40_command_cycle.md R132). -/
theorem exec_wr_cmd_of_busy {s : State} (d : BitVec 64) (hb : s.block.status.busy = true) :
    exec (.wr .cmd 0#24 d) s =
      .next ((s.retire (headerBytes + s.cfg.wordSize.bytes)).withBlock s.block.setBsy) := by
  have hv : validAddr s.cfg .cmd 0#24 = true := rfl
  refine exec_wr ?_
  simp only [State.memWrite, State.retire_cfg, hv, if_true, State.present, State.retire_block, hb]
  rfl

/-! ### Polls -/

/-- A `poll` while BUSY = 1 waits (30_encoding.md R113). -/
theorem exec_poll_of_busy {s : State} (hb : s.block.status.busy = true) : exec .poll s = .next s := if_pos hb

/-- A `poll` with BUSY = 0 reads STATUS word 0 (30_encoding.md R113). -/
theorem exec_poll_of_idle {s : State} (hb : s.block.status.busy = false) :
    exec .poll s = .next ((s.retire headerBytes).memRead .status 0#24) := if_neg (by simp [hb])

/-! ### Operand sets -/

/-- A command's opcode reads what the command does (40_command_cycle.md R133). -/
theorem operandSet_opcode (c : Instance) {i : Instr} (hi : i.form = .cmd8) :
    operandSet c (opcode i) = operandSetOf c i := by
  simp only [operandSet, decodeOpcode_opcode hi]

/-- An unassigned opcode reads nothing (40_command_cycle.md R133). -/
theorem operandSet_of_unassigned (c : Instance) {op : BitVec 8} (h : decodeOpcode op = none) :
    operandSet c op = ⟨false, false, false, false⟩ := by
  simp only [operandSet, h]

/-- Commands that read the same have one operand set. -/
theorem operandSet_of_forall_mem {c : Instance} {is : List Instr} {o : OperandSet}
    (h : ∀ i ∈ is, i.form = .cmd8 ∧ operandSetOf c i = o) : ∀ i ∈ is, operandSet c (opcode i) = o :=
  fun i hi => (operandSet_opcode c (h i hi).1).trans (h i hi).2

/-- The commands that need `W = V` share one operand set (40_command_cycle.md R133). -/
theorem operandSet_of_sameWidth (c : Instance) :
    ∀ i ∈ sameWidthCommands, operandSet c (opcode i) = sameWidthOperands c :=
  operandSet_of_forall_mem (by simp [sameWidthCommands, Instr.form, operandSetOf])

/-! ### What a completion leaves -/

/-- A command that answers a next state has changed nothing but the block, in one of the ways of `CompletedAs`. -/
theorem exec_command_next {s t : State} {i : Instr} (hi : i.form = .cmd8) (h : exec i s = .next t) :
    ∃ b, t = s.withBlock b ∧ CompletedAs s.block i b := by
  cases hf : s.block.inflight with
  | none =>
    rw [exec_command_of_none hi hf] at h
    cases h
  | some f =>
    obtain ⟨b, he, hb⟩ := exec_command hi hf
    rw [he] at h
    cases h
    exact ⟨b, rfl, hb⟩

/-- A command that does not divide leaves R1 (10_state.md R37). -/
theorem CompletedAs.keeps_R1 {c : Instance} {b b' : Block c} {i : Instr} (h : CompletedAs b i b')
    (hi : i ∉ [Instr.divu, .divs]) : b'.R1 = b.R1 :=
  h.writes_remainder.resolve_right fun hw => hi hw.1

/-- A control command, and a command that fails, leaves R0, R1 and the flags (40_command_cycle.md R135, R140, R141). -/
theorem CompletedAs.keeps_results {c : Instance} {b b' : Block c} {i : Instr} (h : CompletedAs b i b')
    (hi : i ∈ [Instr.nop, .clrerr] ∨ b'.status.err ≠ .none) : b.SameResultState b' := by
  refine h.writes_results.resolve_right fun ⟨hw, herr⟩ => ?_
  have hcontrol : ∀ i ∈ flagWriters, i ∉ [Instr.nop, .clrerr] := by decide
  exact hi.elim (hcontrol i hw) fun hne => hne herr

/-- Only CLRERR changes the sticky bits (40_command_cycle.md R141). -/
theorem CompletedAs.keeps_sticky {c : Instance} {b b' : Block c} {i : Instr} (h : CompletedAs b i b')
    (hi : i ≠ .clrerr) :
    b'.status.oor = b.status.oor ∧ b'.status.acc = b.status.acc ∧ b'.status.bsy = b.status.bsy := by
  cases h with
  | cleared => exact absurd rfl hi
  | plain | result | quotient => exact ⟨rfl, rfl, rfl⟩

/-! ### Steps and the program before the host -/

/-- What is left of the host's program, decoded (30_encoding.md R109). -/
def State.programLeft (s : State) : Program := decodeProgram s.cfg.wordSize s.host.pos s.host.program

/-- No step asserts the reset input, and the reset releases it. -/
theorem step_resetLine {s t : State} (h : step s = .next t) : t.env.resetLine = false := by
  have hread (sel : Sel) (idx : BitVec 24) :
      ((s.retire headerBytes).memRead sel idx).env.resetLine = s.env.resetLine := by
    obtain ⟨_, _, _, _, he, -, -⟩ := (s.retire headerBytes).memRead_frame sel idx
    rw [he]
    rfl
  cases step_next h with
  | reset => rfl
  | completed _ _ _ hr | unassigned _ hr => exact hr
  | read sel idx ht => exact (hread sel idx).trans (State.turn_host ht).1
  | waits ht => exact (State.turn_host ht).1
  | polled ht => exact (hread .status 0#24).trans (State.turn_host ht).1
  | written _ _ _ _ ht hw =>
    obtain ⟨_, _, rfl, hr, -⟩ := hw.leaves
    exact hr.trans (State.turn_host ht).1
  | rests ht => exact (State.turn_idle ht).1

/-- With a command in flight, a program that decodes is not refused. -/
theorem turnInFlight_ne_bad (op : BitVec 8) (d : Nat) (is : List Instr) (pos : Nat) (why : Reject) :
    turnInFlight op d (.ok is) ≠ .bad pos why := by
  cases d with
  | zero => exact nofun
  | succ d =>
    cases is with
    | nil => exact nofun
    | cons i is =>
      by_cases hi : i = .poll
      · subst hi
        exact nofun
      · rw [turnInFlight_of_pos is d.succ_pos hi]
        exact nofun

section
variable {s : State} {is : List Instr}

/-- On the host's turn the transaction is the first of the program. -/
theorem State.programLeft_of_turn_host (hp : s.programLeft = .ok is) {i : Instr} (ht : s.turn = .host i) :
    ∃ rest js, is = i :: js ∧ decode .bus s.cfg.wordSize s.host.program = .ok i rest ∧
      decodeProgram s.cfg.wordSize (s.host.pos + 1) rest = .ok js := by
  obtain ⟨-, -, rest, js, hd, hj⟩ := State.turn_host ht
  rw [State.programLeft, decodeProgram_of_ok hd, hj] at hp
  cases hp
  exact ⟨rest, js, rfl, hd, hj⟩

/-- A program that decodes is not refused. -/
theorem State.turn_ne_bad (hp : s.programLeft = .ok is) (pos : Nat) (why : Reject) : s.turn ≠ .bad pos why := by
  rw [State.programLeft] at hp
  simp only [State.turn, hp]
  split
  · exact nofun
  split
  · exact turnInFlight_ne_bad _ _ is pos why
  · cases is <;> exact nofun

/-- A step from a state whose program decodes answers a next state. -/
theorem exists_step (hp : s.programLeft = .ok is) : ∃ t, step s = .next t := by
  unfold step
  split
  · exact ⟨_, rfl⟩
  · next op ht =>
    obtain ⟨-, f, hf, -⟩ := State.turn_block ht
    split
    · next i hi =>
      obtain ⟨b, he, -⟩ := exec_command (decodeOpcode_form hi) hf
      exact ⟨_, he⟩
    · exact ⟨_, State.complete_of_inflight hf _⟩
  · next i ht =>
    obtain ⟨rest, js, -, hd, -⟩ := State.programLeft_of_turn_host hp ht
    exact exec_transaction (decode_bus_ok hd).1
  · exact ⟨_, rfl⟩
  · next pos why ht => exact absurd ht (State.turn_ne_bad hp pos why)

/-- A transaction that takes effect on the host's turn leaves the program after it. -/
theorem exec_programLeft (hp : s.programLeft = .ok is) {i : Instr} {t : State} (ht : s.turn = .host i)
    (h : exec i s = .next t) (hpoll : i = .poll → s.block.status.busy = false) :
    ∃ js, is = i :: js ∧ t.programLeft = .ok js := by
  obtain ⟨rest, js, rfl, hd, hj⟩ := State.programLeft_of_turn_host hp ht
  obtain ⟨hform, rfl, -⟩ := decode_bus_ok hd
  obtain ⟨hprog, hpos⟩ := exec_transaction_host hform h hpoll
  have hstep : step s = .next t := by simp only [step, ht, h]
  obtain ⟨_, _, _, rfl, -⟩ := step_moved hstep (State.turn_host ht).1
  refine ⟨js, rfl, ?_⟩
  exact (congrArg₂ (decodeProgram s.cfg.wordSize) hpos hprog).trans hj

/-- A step leaves nothing in flight and the program as it is, or the host performs the program's first transaction. -/
theorem step_programLeft (hp : s.programLeft = .ok is) {t : State} (h : step s = .next t) :
    (t.block.inflight = none ∧ t.programLeft = .ok is) ∨
      ∃ i js, is = i :: js ∧ s.turn = .host i ∧ exec i s = .next t ∧ t.programLeft = .ok js := by
  have hperformed {i : Instr} (ht : s.turn = .host i) (hpoll : i = .poll → s.block.status.busy = false) :
      ∃ i js, is = i :: js ∧ s.turn = .host i ∧ exec i s = .next t ∧ t.programLeft = .ok js := by
    simp only [step, ht] at h
    obtain ⟨js, rfl, hj⟩ := exec_programLeft hp ht h hpoll
    exact ⟨i, js, rfl, ht, h, hj⟩
  cases step_next h with
  | reset | unassigned => exact .inl ⟨rfl, hp⟩
  | completed _ _ _ _ _ _ hb => exact .inl ⟨hb.idle.1, hp⟩
  | read _ _ ht => exact .inr (hperformed ht nofun)
  | waits ht =>
    obtain ⟨-, hm, -⟩ := State.turn_host ht
    exact .inl ⟨hm.resolve_right fun hw => hw.2 rfl, hp⟩
  | polled ht hb => exact .inr (hperformed ht fun _ => hb)
  | written _ _ _ _ ht => exact .inr (hperformed ht nofun)
  | rests ht => exact .inl ⟨(State.turn_idle ht).2, hp⟩

/-- After a step a program that decoded still does. -/
theorem step_programLeft_ok (hp : s.programLeft = .ok is) {t : State} (h : step s = .next t) :
    ∃ js, t.programLeft = .ok js := by
  obtain ⟨-, ht⟩ | ⟨_, js, -, -, -, ht⟩ := step_programLeft hp h
  · exact ⟨is, ht⟩
  · exact ⟨js, ht⟩

end

/-! ### Runs -/

theorem run_succ {s t : State} (h : step s = .next t) (k : Nat) :
    Sys2Proof.core.run (k + 1) s = Sys2Proof.core.run k t := by
  have hcore : Sys2Proof.core.step s = .next t := h
  simp only [Host.Core.run, hcore]

/-- A state of the invariant with a command in flight, a program before the host and no reset. -/
structure State.AwaitsCompletion (s : State) : Prop where
  inv : s.Inv
  inflight : ∃ f, s.block.inflight = some f
  resetLine : s.env.resetLine = false
  program : ∃ is, s.programLeft = .ok is

/-- A step completes the command in flight or takes one of the transactions its latency has left. -/
theorem State.AwaitsCompletion.step {s : State} (hs : s.AwaitsCompletion) :
    ∃ t, step s = .next t ∧ ((t.block.inflight = none ∧ t.block.status.done = true) ∨
      (t.AwaitsCompletion ∧ t.env.delay + 1 = s.env.delay)) := by
  obtain ⟨hinv, ⟨f, hf⟩, hr, is, hp⟩ := hs
  obtain ⟨t, ht⟩ := exists_step hp
  have hinv' := stepKeepsInvariant s t hinv ht
  have hr' := step_resetLine ht
  have hp' := step_programLeft_ok hp ht
  refine ⟨t, ht, ?_⟩
  obtain ⟨b, h, e, rfl, ⟨hf', -, -, -, hdelay⟩ | ⟨hnone, -, hdone⟩⟩ := inflightUntilCompletion s t f hinv hf ht hr
  · exact .inr ⟨⟨hinv', ⟨f, hf'⟩, hr', hp'⟩, hdelay⟩
  · exact .inl ⟨hnone, hdone⟩

/-- The command in flight completes within one step more than its latency has transactions left. -/
theorem State.AwaitsCompletion.run {s : State} (hs : s.AwaitsCompletion) :
    ∃ k t, k ≤ s.env.delay + 1 ∧ Sys2Proof.core.run k s = .next t ∧ t.block.inflight = none ∧
      t.block.status.done = true := by
  induction hd : s.env.delay using Nat.strong_induction_on generalizing s with
  | _ n ih =>
    obtain ⟨t, ht, hdone | ⟨hwaits, hdelay⟩⟩ := hs.step
    · exact ⟨1, t, by omega, run_succ ht 0, hdone⟩
    · obtain ⟨k, u, hk, hrun, hu⟩ := ih t.env.delay (by omega) hwaits rfl
      exact ⟨k + 1, u, by omega, (run_succ ht k).trans hrun, hu⟩

/-! ### Latencies -/

/-- The state with another choice of latencies (40_command_cycle.md R138). -/
def State.withLatency (s : State) (d : Nat) (ls : List Nat) : State :=
  { s with env := { s.env with delay := d, latencies := ls } }

@[simp] theorem State.withLatency_cfg (s : State) (d : Nat) (ls : List Nat) : (s.withLatency d ls).cfg = s.cfg := rfl
@[simp] theorem State.withLatency_block (s : State) (d : Nat) (ls : List Nat) :
    (s.withLatency d ls).block = s.block := rfl
@[simp] theorem State.withLatency_resetLine (s : State) (d : Nat) (ls : List Nat) :
    (s.withLatency d ls).env.resetLine = s.env.resetLine := rfl

section
variable {s t : State} (d : Nat) (ls : List Nat)

theorem State.withLatency_ite {p : Prop} [Decidable p] (t u : State) :
    (if p then t else u).withLatency d ls = if p then t.withLatency d ls else u.withLatency d ls :=
  apply_ite (State.withLatency · d ls) p t u

theorem State.access_withLatency {n : Nat} (r : Reg s.cfg.WB n) (sel : Sel) (idx : BitVec 24) :
    (s.withLatency d ls).access r sel idx = (s.access r sel idx).withLatency d ls := by
  simp only [State.access, State.withLatency_ite]
  rfl

theorem State.accessResult_withLatency {n : Nat} (r : Reg s.cfg.WB n) (sel : Sel) (idx : BitVec 24) :
    (s.withLatency d ls).accessResult r sel idx = (s.accessResult r sel idx).withLatency d ls := by
  cases hb : s.block.status.busy with
  | true =>
    simp only [State.accessResult, State.withLatency_block, hb, if_true, State.withLatency_ite]
    rfl
  | false =>
    simp only [State.accessResult, State.withLatency_block, hb, Bool.false_eq_true, if_false]
    exact State.access_withLatency d ls r sel idx

/-- A read does not see the latencies. -/
theorem State.memRead_withLatency (sel : Sel) (idx : BitVec 24) :
    (s.withLatency d ls).memRead sel idx = (s.memRead sel idx).withLatency d ls := by
  cases hv : validAddr s.cfg sel idx with
  | true =>
    simp only [State.memRead, State.withLatency_cfg, hv, if_true]
    cases sel with
    | a | b | s | cin => exact State.access_withLatency d ls _ _ idx
    | r0 | r1 => exact State.accessResult_withLatency d ls _ _ idx
    | status | cmd | reserved => rfl
  | false =>
    simp only [State.memRead, State.withLatency_cfg, hv, Bool.false_eq_true, if_false]
    rfl

/-- A write sees the latencies only where it takes one, in an acceptance. -/
theorem State.memWrite_withLatency (sel : Sel) (idx : BitVec 24) (x : BitVec s.cfg.WB) :
    ∃ d' ls', (s.withLatency d ls).memWrite sel idx x = (s.memWrite sel idx x).withLatency d' ls' := by
  cases hv : validAddr s.cfg sel idx with
  | true =>
    simp only [State.memWrite, State.withLatency_cfg, hv, if_true]
    cases sel with
    | cmd =>
      cases hb : s.block.status.busy with
      | true =>
        simp only [State.present, State.withLatency_block, hb, if_true]
        exact ⟨d, ls, rfl⟩
      | false =>
        simp only [State.present, State.withLatency_block, hb, Bool.false_eq_true, if_false]
        exact ⟨_, _, rfl⟩
    | a | b | s | cin | r0 | r1 | status | reserved => exact ⟨d, ls, rfl⟩
  | false =>
    simp only [State.memWrite, State.withLatency_cfg, hv, Bool.false_eq_true, if_false]
    exact ⟨d, ls, rfl⟩

/-- A completion does not see the latencies. -/
theorem State.complete_withLatency {rule : Inflight s.cfg → Block s.cfg → Block s.cfg}
    (h : s.complete rule = .next t) : (s.withLatency d ls).complete rule = .next (t.withLatency d ls) := by
  obtain ⟨f, hf, rfl⟩ := State.complete_next h
  exact State.complete_of_inflight (s := s.withLatency d ls) hf rule

/-- No instruction's effect depends on the latencies, but for what is left of them. -/
theorem exec_withLatency {i : Instr} (h : exec i s = .next t) :
    ∃ d' ls', exec i (s.withLatency d ls) = .next (t.withLatency d' ls') := by
  cases hi : i.form with
  | cmd8 =>
    obtain ⟨rule, -, hexec⟩ := exec_eq_snapshotOnly s.cfg hi
    exact ⟨d, ls, (hexec _ _ _).trans (State.complete_withLatency d ls ((hexec _ _ _).symm.trans h))⟩
  | bus =>
    cases i with
    | rd sel idx =>
      cases h
      exact ⟨d - 1, ls, congrArg _ (State.memRead_withLatency (s := s.retire headerBytes) (d - 1) ls sel idx)⟩
    | wr sel idx data =>
      cases h
      obtain ⟨d', ls', hw⟩ := State.memWrite_withLatency (s := s.retire (headerBytes + s.cfg.wordSize.bytes)) (d - 1) ls
        sel idx (data.setWidth s.cfg.WB)
      exact ⟨d', ls', congrArg _ hw⟩
    | poll =>
      cases hb : s.block.status.busy with
      | true =>
        rw [exec_poll_of_busy hb] at h
        cases h
        exact ⟨d, ls, exec_poll_of_busy (s := s.withLatency d ls) hb⟩
      | false =>
        rw [exec_poll_of_idle hb] at h
        cases h
        exact ⟨d - 1, ls, (exec_poll_of_idle (s := s.withLatency d ls) hb).trans
          (congrArg _ (State.memRead_withLatency (s := s.retire headerBytes) (d - 1) ls .status 0#24))⟩
    | _ => cases hi

end

/-! ### Programs that wait at once -/

/-- The host waits at once for every command: so does the program left, and while a command is in flight its next
transaction is a `poll`. -/
def State.WaitsAtOnce (s : State) : Prop :=
  ∃ is, s.programLeft = .ok is ∧ waitsAtOnce is = true ∧ (s.block.inflight = none ∨ is.head? = some .poll)

/-- What follows a transaction of a program that waits at once: after a write to CMD a `poll`. -/
theorem waitsAtOnce_cons {i : Instr} {is : List Instr} (h : waitsAtOnce (i :: is) = true) :
    waitsAtOnce is = true ∧ ((∃ idx x, i = .wr .cmd idx x) → is.head? = some .poll) := by
  unfold waitsAtOnce at h
  split at h
  · next hnil => cases hnil
  · next hcons =>
    cases hcons
    exact ⟨by simpa [waitsAtOnce] using h, fun _ => rfl⟩
  · cases h
  · next hcmd hcons =>
    cases hcons
    exact ⟨h, fun ⟨idx, x, hi⟩ => absurd hi (hcmd idx x)⟩

/-- Only a write to CMD puts a command in flight (40_command_cycle.md R131). -/
theorem exec_transaction_inflight {s t : State} {i : Instr} (hi : i.form = .bus) (h : exec i s = .next t)
    (hcmd : ¬ ∃ idx x, i = .wr .cmd idx x) (hf : s.block.inflight = none) : t.block.inflight = none := by
  have hread (sel : Sel) (idx : BitVec 24) :
      ((s.retire headerBytes).memRead sel idx).block.inflight = none := by
    obtain ⟨_, _, _, _, he, hb, -⟩ := (s.retire headerBytes).memRead_frame sel idx
    rw [he]
    exact hb.inflight.trans hf
  cases i with
  | rd sel idx =>
    cases h
    exact hread sel idx
  | wr sel idx x =>
    cases h
    obtain ⟨_, _, he, -, -, -, hb⟩ := (State.memWrite_as (s.retire (headerBytes + s.cfg.wordSize.bytes)) sel idx
      (x.setWidth s.cfg.WB)).leaves
    obtain ⟨hc, -, -⟩ := hb fun hsel => hcmd ⟨idx, x, by rw [hsel]⟩
    rw [he]
    exact hc.inflight.trans hf
  | poll =>
    cases hb : s.block.status.busy with
    | true =>
      rw [exec_poll_of_busy hb] at h
      cases h
      exact hf
    | false =>
      rw [exec_poll_of_idle hb] at h
      cases h
      exact hread .status 0#24
  | _ => cases hi

section
variable {s : State} (hs : s.WaitsAtOnce) (d : Nat) (ls : List Nat)
include hs

/-- The next turn does not depend on the latency: while a command is in flight the host waits for it. -/
theorem State.WaitsAtOnce.turn_withLatency : (s.withLatency d ls).turn = s.turn := by
  obtain ⟨is, hp, -, hw⟩ := hs
  cases hr : s.env.resetLine with
  | true => simp only [State.turn, State.withLatency_resetLine, hr, if_true]
  | false =>
    cases hf : s.block.inflight with
    | none =>
      simp only [State.turn, State.withLatency_resetLine, hr, State.withLatency_block, hf]
      rfl
    | some f =>
      obtain ⟨js, rfl⟩ := List.head?_eq_some_iff.mp (hw.resolve_left (by simp [hf]))
      rw [State.turn_eq_block hr hf (.inr (.inr ⟨js, hp⟩)),
        State.turn_eq_block (s := s.withLatency d ls) hr hf (.inr (.inr ⟨js, hp⟩))]

/-- A step does the same under every choice of latencies, but for what is left of them. -/
theorem State.WaitsAtOnce.step_withLatency {t : State} (h : step s = .next t) :
    ∃ d' ls', step (s.withLatency d ls) = .next (t.withLatency d' ls') := by
  simp only [step, hs.turn_withLatency d ls] at h ⊢
  generalize s.turn = turn at h ⊢
  cases turn with
  | reset =>
    cases h
    exact ⟨0, ls, rfl⟩
  | block op =>
    cases hop : decodeOpcode op with
    | some i =>
      simp only [hop] at h ⊢
      exact exec_withLatency d ls h
    | none =>
      simp only [hop] at h ⊢
      exact ⟨d, ls, State.complete_withLatency d ls h⟩
  | host i => exact exec_withLatency d ls h
  | idle =>
    cases h
    exact ⟨d, ls, rfl⟩
  | bad => cases h

/-- The host goes on waiting at once. -/
theorem State.WaitsAtOnce.next {t : State} (h : step s = .next t) : t.WaitsAtOnce := by
  obtain ⟨is, hp, his, hw⟩ := hs
  obtain ⟨hnone, hp'⟩ | ⟨i, js, rfl, ht, he, hp'⟩ := step_programLeft hp h
  · exact ⟨is, hp', his, .inl hnone⟩
  · obtain ⟨-, hm, rest, -, hd, -⟩ := State.turn_host ht
    obtain ⟨hjs, hpoll⟩ := waitsAtOnce_cons his
    refine ⟨js, hp', hjs, ?_⟩
    by_cases hcmd : ∃ idx x, i = .wr .cmd idx x
    · exact .inr (hpoll hcmd)
    · have hnone : s.block.inflight = none :=
        hw.elim id fun hhead => hm.resolve_right fun hwaits => hwaits.2 (Option.some.inj hhead)
      exact .inl (exec_transaction_inflight (decode_bus_ok hd).1 he hcmd hnone)

end

/-- Any number of steps does the same under every choice of latencies, but for what is left of them. -/
theorem State.WaitsAtOnce.run_sameButLatency {s : State} (hs : s.WaitsAtOnce) (d : Nat) (ls : List Nat) (k : Nat) :
    SameButLatency (Sys2Proof.core.run k s) (Sys2Proof.core.run k (s.withLatency d ls)) := by
  induction k generalizing s d ls with
  | zero => exact ⟨d, ls, rfl⟩
  | succ k ih =>
    have ⟨is, hp, _, _⟩ := hs
    obtain ⟨t, ht⟩ := exists_step hp
    obtain ⟨d', ls', ht'⟩ := hs.step_withLatency d ls ht
    rw [run_succ ht, run_succ ht']
    exact ih (hs.next ht) d' ls'

end Sys2Proof.Machine

open Sys2Proof Sys2Proof.Machine

/-- Settles O37: acceptance captures the operand registers, and a written word is captured as it stands. -/
theorem commandAccepted : Obligations.CommandAccepted := by
  intro s d hb
  have hwb := s.cfg.WB_pos
  exact ⟨_, _, _, exec_wr_cmd_of_idle d hb, rfl, fun _ h => Reg.wordOf_capture hwb h _,
    fun _ h => Reg.wordOf_capture hwb h _, fun _ h => Reg.wordOf_capture hwb h _,
    fun _ h => Reg.wordOf_capture hwb h _, fun h => Reg.capture_of_full hwb h _,
    fun h => Reg.capture_of_full hwb h _, fun h => Reg.capture_of_full hwb h _,
    fun h => Reg.capture_of_full hwb h _, rfl, rfl, rfl⟩

/-- Settles O42: each way a command completes leaves what it does not write. -/
theorem commandFrame : Obligations.CommandFrame := by
  intro s t i hi h
  obtain ⟨b, rfl, hb⟩ := exec_command_next hi h
  have ho := hb.sameOperandRegisters
  refine ⟨b, rfl, ho.A, ho.B, ho.S, ho.CIN, hb.keeps_R1, fun hc => ?_, hb.keeps_sticky⟩
  have hr := hb.keeps_results hc
  exact ⟨hr.R0, hr.R1, hr.carry, hr.zero, hr.negative⟩

/-- Settles O59: each step completes the command or takes one of the transactions its latency has left. -/
theorem commandCompletesInTime : Obligations.CommandCompletesInTime :=
  fun _ f is hinv hf hr hp => State.AwaitsCompletion.run ⟨hinv, ⟨f, hf⟩, hr, is, hp⟩

/-- Settles O60: a host that waits at once takes its turns alike, and no instruction sees the latencies. -/
theorem latencyIndependence : Obligations.LatencyIndependence :=
  fun _ is d ls k hf hp hw => State.WaitsAtOnce.run_sameButLatency ⟨is, hp, hw, .inl hf⟩ d ls k

/-- Settles O10: the turn is the block's, and a command with nothing in flight has no step. -/
theorem stepCompletesCommand : Obligations.StepCompletesCommand := by
  refine ⟨fun s f i hr hf hdue hop => ?_, fun s i hi hf => exec_command_of_none hi hf⟩
  simp only [step, State.turn_eq_block hr hf hdue, hop]

/-- Settles O14: each is one completion of the command in flight. -/
theorem controlCommandResults : Obligations.ControlCommandResults :=
  ⟨rfl, rfl, fun _ _ hf => ⟨State.complete_of_inflight hf fun _ b => b.finish .none,
    State.complete_of_inflight hf fun _ b => b.clearSticky.finish .none⟩⟩

/-- Settles O36: an opcode's operand set is that of its command. -/
theorem operandSetTable : Obligations.OperandSetTable := by
  intro c
  refine ⟨operandSet_of_forall_mem ?_, fun i hi h => ?_, operandSet_opcode c rfl, operandSet_of_forall_mem ?_,
    operandSet_of_forall_mem ?_, operandSet_of_forall_mem ?_, operandSet_of_forall_mem ?_, fun i hi h => ?_,
    fun op h => operandSet_of_unassigned c h⟩
  case refine_2 => rw [operandSet_of_sameWidth c i hi, sameWidthOperands, if_pos h]
  case refine_7 => rw [operandSet_of_sameWidth c i hi, sameWidthOperands, if_neg h]
  all_goals simp [Instr.form, operandSetOf]

/-- Settles O39: a write to CMD while BUSY = 1 is dropped. -/
theorem busyDrop : Obligations.BusyDrop :=
  fun _ d hb => exec_wr_cmd_of_busy d hb

end

section
/-! The statements of spec/41_add_sub.md: the results of the seven commands, the word-by-word adder, and the laws of
addition, subtraction and multiplication (with 42_multiply.md R196). -/

namespace Sys2Proof

theorem Instance.W_le_M (c : Instance) : c.W ≤ c.M := le_max_left _ _

theorem Instance.V_le_M (c : Instance) : c.V ≤ c.M := le_max_right _ _

/-- A result `W` bits wide fits R0. -/
theorem Instance.pow_W_le_R0 (c : Instance) : 2 ^ c.W ≤ 2 ^ (c.W + c.V) :=
  Nat.pow_le_pow_right (by decide) (Nat.le_add_right _ _)

/-- An expanding addition's result fits R0. -/
theorem Instance.pow_M_le_R0 (c : Instance) : 2 ^ (c.M + 1) ≤ 2 ^ (c.W + c.V) := by
  have := c.W_pos
  have := c.V_pos
  exact Nat.pow_le_pow_right (by decide) (by unfold Instance.M; omega)

end Sys2Proof

namespace Sys2Proof.Machine

/-! ### Completion with a result -/

/-- A command that needs `W = V` has, where they are equal, the rule itself. -/
theorem sameWidth_eq {c : Instance} (h : c.W = c.V) (rule : Inflight c → Block c → Block c) :
    sameWidth rule = rule := funext₂ (sameWidth_of_eq h rule)

section
variable {s : State} {f : Inflight s.cfg}

/-- The completion of a flag-writing command, from the number its primary result is and the carry (R134). -/
theorem State.complete_succeed (hf : s.block.inflight = some f) {rw x : Nat} {carry : Bool}
    (res : Inflight s.cfg → BitVec rw) (k : Inflight s.cfg → Bool) (hx : (res f).toNat = x) (hk : k f = carry) :
    s.complete (fun f b => b.succeed (res f) (k f)) = .next (s.withBlock (s.block.afterResult rw x carry)) := by
  rw [State.complete_of_inflight hf, Block.succeed_eq_afterResult, hx, hk]

/-- Where `W ≠ V` a command that needs them equal is illegal (30_encoding.md R107). -/
theorem State.complete_sameWidth_of_ne (hf : s.block.inflight = some f) (h : s.cfg.W ≠ s.cfg.V)
    (rule : Inflight s.cfg → Block s.cfg → Block s.cfg) :
    s.complete (sameWidth rule) = .next (s.withBlock (s.block.afterError .illegalOpcode)) := by
  rw [State.complete_of_inflight hf, sameWidth_of_ne h, Block.afterError_eq_finish]

end

/-! ### Residues and signed readings -/

/-- A residue below a shorter width is the residue there. -/
theorem residue_add_mod (m k : Nat) (x : Int) : residue (m + k) x % 2 ^ m = residue m x := by
  rw [← residue_natCast]
  exact residue_eq_of_modEq ((residue_modEq (m + k) x).of_dvd (pow_dvd_pow 2 (Nat.le_add_right m k)))

/-- A pattern's number is its own residue. -/
theorem residue_toNat {n : Nat} (v : BitVec n) : residue n v.toNat = v.toNat := by
  rw [residue_natCast, Nat.mod_eq_of_lt v.isLt]

/-- A wider pattern, sign-extended, is congruent to the signed reading of the narrower. -/
theorem toNat_sext_modEq {n m : Nat} (v : BitVec n) (h : n ≤ m) :
    ((sext m v).toNat : Int) ≡ v.toInt [ZMOD 2 ^ m] := by
  rw [← toInt_sext v h]
  exact (toInt_modEq_toNat _).symm

/-- The signed reading does not depend on how the width is written. -/
theorem toInt_eq_of_toNat_eq {m n : Nat} {x : BitVec m} {y : BitVec n} (hmn : m = n) (h : x.toNat = y.toNat) :
    x.toInt = y.toInt := by
  subst hmn
  rw [BitVec.eq_of_toNat_eq h]

/-- The pattern of an integer in the range of the width reads, signed, as that integer. -/
theorem toInt_bitsOf {n : Nat} {x : Int} (hn : 0 < n) (lo : -2 ^ (n - 1) ≤ x) (hi : x < 2 ^ (n - 1)) :
    (bitsOf n x).toInt = x := BitVec.toInt_ofInt_eq_self hn lo hi

/-- Bit `m` of an `m + 1`-bit pattern is the sign of its signed reading. -/
theorem extraBit_eq_neg {m : Nat} (x : BitVec (m + 1)) : extraBit m x = decide (x.toInt < 0) := by
  rw [← BitVec.msb_eq_toInt, BitVec.msb_eq_getLsbD_last]
  rfl

/-- `signedOf` is the signed reading of a pattern. -/
theorem signedOf_toNat {n : Nat} (hn : 0 < n) (v : BitVec n) : signedOf n v.toNat = v.toInt := by
  obtain ⟨k, rfl⟩ : ∃ k, n = k + 1 := ⟨n - 1, by omega⟩
  rw [signedOf, BitVec.toInt_eq_toNat_cond, Nat.add_sub_cancel, pow_succ]
  push_cast
  split <;> split <;> omega

/-- The signed reading of the residue of an integer in range is that integer. -/
theorem signedOf_residue {n : Nat} {x : Int} (hn : 0 < n) (lo : -2 ^ (n - 1) ≤ x) (hi : x < 2 ^ (n - 1)) :
    signedOf n (residue n x) = x := by
  rw [← toNat_bitsOf, signedOf_toNat hn, toInt_bitsOf hn lo hi]

theorem abs_toInt_le {n : Nat} (v : BitVec n) : |v.toInt| ≤ 2 ^ (n - 1) :=
  abs_le.mpr ⟨v.le_toInt, v.toInt_lt.le⟩

/-- The product of two signed readings is in the range of the sum of the widths (42_multiply.md R194). -/
theorem abs_toInt_mul_lt {w v : Nat} (hw : 1 ≤ w) (hv : 1 ≤ v) (a : BitVec w) (b : BitVec v) :
    |a.toInt * b.toInt| < 2 ^ (w + v - 1) := by
  calc |a.toInt * b.toInt|
      ≤ 2 ^ (w - 1) * 2 ^ (v - 1) := by
        rw [abs_mul]
        exact mul_le_mul (abs_toInt_le a) (abs_toInt_le b) (abs_nonneg _) (by positivity)
    _ = 2 ^ (w + v - 2) := by rw [← pow_add]; congr 1; omega
    _ < 2 ^ (w + v - 1) := pow_lt_pow_right₀ (by decide) (by omega)

/-! ### The functions of the commands, as residues -/

/-- The complement plus one is the negation (R163). -/
theorem toNat_negate {n : Nat} (v : BitVec n) : (negate v).toNat = residue n (-(v.toNat : Int)) := by
  rw [negate, toNat_bitsOf]
  exact residue_eq_of_modEq (compl_add_one_modEq v)

/-- `subtract` gives the difference of any integers the two patterns are congruent to (R166, R167). -/
theorem toNat_subtract {n : Nat} {x y : BitVec n} {a b : Int} (ha : (x.toNat : Int) ≡ a [ZMOD 2 ^ n])
    (hb : (y.toNat : Int) ≡ b [ZMOD 2 ^ n]) : (subtract x y).toNat = residue n (a - b) := by
  rw [subtract, toNat_bitsOf, uval_eq_toNat, uval_eq_toNat, add_assoc, sub_eq_add_neg]
  exact residue_eq_of_modEq (ha.add ((compl_add_one_modEq y).trans hb.neg))

/-- `addCarry` gives the sum, with the carry, of any integers the two patterns are congruent to (R164, R165). -/
theorem addCarry_eq_bitsOf {n : Nat} {x y : BitVec n} {a b : Int} (cin : BitVec 1)
    (ha : (x.toNat : Int) ≡ a [ZMOD 2 ^ n]) (hb : (y.toNat : Int) ≡ b [ZMOD 2 ^ n]) :
    addCarry x y cin = bitsOf n (a + b + cin.toNat) := by
  apply BitVec.eq_of_toNat_eq
  rw [addCarry, toNat_bitsOf, toNat_bitsOf]
  exact residue_eq_of_modEq ((ha.add hb).add_right _)

/-- SUB's second operand, negated at width `W`, is subtracted (R162). -/
theorem residue_add_negated {w v : Nat} (hwv : w = v) (a : Int) (b : BitVec v) :
    residue w (a + (bitsOf w ((~~~b).toNat + 1)).toNat) = residue w (a - b.toNat) := by
  subst hwv
  rw [toNat_bitsOf, sub_eq_add_neg]
  exact residue_eq_of_modEq (((residue_modEq w _).trans (compl_add_one_modEq b)).add_left a)

/-! ### Sums and products of the operands -/

section
variable {c : Instance} (f : Inflight c)

/-- The exact unsigned sum with the carry fits `M + 1` bits (R164). -/
theorem Inflight.unsigned_sum_lt : f.A.toNat + f.B.toNat + f.CIN.toNat < 2 ^ (c.M + 1) := by
  have hA : f.A.toNat < 2 ^ c.M := f.A.isLt.trans_le (Nat.pow_le_pow_right (by decide) c.W_le_M)
  have hB : f.B.toNat < 2 ^ c.M := f.B.isLt.trans_le (Nat.pow_le_pow_right (by decide) c.V_le_M)
  have hC := f.CIN.isLt
  rw [pow_succ]
  omega

/-- The exact signed sum with the carry is in the range of `M + 1`-bit two's complement (R165). -/
theorem Inflight.signed_sum_bounds :
    -2 ^ c.M ≤ f.A.toInt + f.B.toInt + f.CIN.toNat ∧ f.A.toInt + f.B.toInt + f.CIN.toNat < 2 ^ c.M := by
  have hM : (2 : Int) ^ c.M = 2 * 2 ^ (c.M - 1) := by rw [← pow_succ', Nat.sub_add_cancel c.M_pos]
  have hA : (2 : Int) ^ (c.W - 1) ≤ 2 ^ (c.M - 1) := pow_le_pow_right₀ (by decide) (Nat.sub_le_sub_right c.W_le_M 1)
  have hB : (2 : Int) ^ (c.V - 1) ≤ 2 ^ (c.M - 1) := pow_le_pow_right₀ (by decide) (Nat.sub_le_sub_right c.V_le_M 1)
  have := f.A.le_toInt
  have := f.A.toInt_lt
  have := f.B.le_toInt
  have := f.B.toInt_lt
  have := f.CIN.isLt
  omega

/-- The exact unsigned product fits R0. -/
theorem Inflight.unsigned_product_lt : f.A.toNat * f.B.toNat < 2 ^ (c.W + c.V) := by
  rw [pow_add]
  exact Nat.mul_lt_mul'' f.A.isLt f.B.isLt

/-- EADD.U's sum is exact (R164). -/
theorem Inflight.toNat_eaddu :
    (addCarry (zext (c.M + 1) f.A) (zext (c.M + 1) f.B) f.CIN).toNat = f.A.toNat + f.B.toNat + f.CIN.toNat := by
  have hA := toNat_zext_of_le f.A (Nat.le_succ_of_le c.W_le_M)
  have hB := toNat_zext_of_le f.B (Nat.le_succ_of_le c.V_le_M)
  simp only [addCarry, uval_eq_toNat, hA, hB]
  norm_cast
  rw [toNat_bitsOf_natCast, Nat.mod_eq_of_lt f.unsigned_sum_lt]

/-- EADD.S's sum is that of the signed operands (R165). -/
theorem Inflight.eadds_eq :
    addCarry (sext (c.M + 1) f.A) (sext (c.M + 1) f.B) f.CIN =
      bitsOf (c.M + 1) (f.A.toInt + f.B.toInt + f.CIN.toNat) :=
  addCarry_eq_bitsOf f.CIN (toNat_sext_modEq f.A (Nat.le_succ_of_le c.W_le_M))
    (toNat_sext_modEq f.B (Nat.le_succ_of_le c.V_le_M))

end

/-! ### The commands' completions -/

section
variable {s : State} {f : Inflight s.cfg} (hf : s.block.inflight = some f)
include hf

theorem exec_add (hW : s.cfg.W = s.cfg.V) :
    exec .add s = .next (s.withBlock (s.block.afterResult s.cfg.W ((f.A.toNat + f.B.toNat) % 2 ^ s.cfg.W)
      (decide (2 ^ s.cfg.W ≤ f.A.toNat + f.B.toNat)))) := by
  rw [exec, execAdd, sameWidth_eq hW]
  exact State.complete_succeed hf _ _ (toNat_bitsOf_natCast _ _) carryOut_eq

theorem exec_sub (hW : s.cfg.W = s.cfg.V) :
    exec .sub s = .next (s.withBlock (s.block.afterResult s.cfg.W
      (residue s.cfg.W (f.A.toNat - f.B.toNat)) false)) := by
  rw [exec, execSub, sameWidth_eq hW]
  exact State.complete_succeed hf _ _ ((toNat_bitsOf _ _).trans (residue_add_negated hW _ _)) rfl

theorem exec_neg :
    exec .neg s = .next (s.withBlock (s.block.afterResult s.cfg.W (residue s.cfg.W (-(f.A.toNat : Int))) false)) :=
  State.complete_succeed hf (fun f => negate f.A) _ (toNat_negate f.A) rfl

theorem exec_eaddu :
    exec .eaddu s = .next (s.withBlock (s.block.afterResult (s.cfg.M + 1) (f.A.toNat + f.B.toNat + f.CIN.toNat)
      (decide (2 ^ s.cfg.M ≤ f.A.toNat + f.B.toNat + f.CIN.toNat)))) := by
  refine State.complete_succeed hf (fun f => addCarry (zext (s.cfg.M + 1) f.A) (zext (s.cfg.M + 1) f.B) f.CIN)
    (fun f => extraBit s.cfg.M _) f.toNat_eaddu ?_
  rw [extraBit_eq, f.toNat_eaddu]

theorem exec_eadds :
    exec .eadds s = .next (s.withBlock (s.block.afterResult (s.cfg.M + 1)
      (residue (s.cfg.M + 1) (f.A.toInt + f.B.toInt + f.CIN.toNat))
      (decide (f.A.toInt + f.B.toInt + f.CIN.toNat < 0)))) := by
  obtain ⟨lo, hi⟩ := f.signed_sum_bounds
  refine State.complete_succeed hf (fun f => addCarry (sext (s.cfg.M + 1) f.A) (sext (s.cfg.M + 1) f.B) f.CIN)
    (fun f => extraBit s.cfg.M _) ?_ ?_
  · rw [f.eadds_eq, toNat_bitsOf]
  · rw [extraBit_eq_neg, f.eadds_eq, toInt_bitsOf s.cfg.M.succ_pos lo hi]

theorem exec_esubu :
    exec .esubu s = .next (s.withBlock (s.block.afterResult s.cfg.M
      (residue s.cfg.M (f.A.toNat - f.B.toNat)) false)) := by
  refine State.complete_succeed hf (fun f => subtract (zext s.cfg.M f.A) (zext s.cfg.M f.B)) _
    (toNat_subtract ?_ ?_) rfl
  · rw [toNat_zext_of_le _ s.cfg.W_le_M]
  · rw [toNat_zext_of_le _ s.cfg.V_le_M]

theorem exec_esubs :
    exec .esubs s = .next (s.withBlock (s.block.afterResult s.cfg.M
      (residue s.cfg.M (f.A.toInt - f.B.toInt)) false)) :=
  State.complete_succeed hf (fun f => subtract (sext s.cfg.M f.A) (sext s.cfg.M f.B)) _
    (toNat_subtract (toNat_sext_modEq f.A s.cfg.W_le_M) (toNat_sext_modEq f.B s.cfg.V_le_M)) rfl

theorem exec_mul (hW : s.cfg.W = s.cfg.V) :
    exec .mul s = .next (s.withBlock (s.block.afterResult s.cfg.W (f.A.toNat * f.B.toNat % 2 ^ s.cfg.W) false)) := by
  rw [exec, execMul, sameWidth_eq hW]
  exact State.complete_succeed hf _ _ (toNat_bitsOf_natCast _ _) rfl

theorem exec_smul :
    exec .smul s =
      .next (s.withBlock (s.block.afterResult (s.cfg.W + s.cfg.V) (f.A.toNat * f.B.toNat) false)) := by
  refine State.complete_succeed hf (fun f => schoolbook f.A f.B s.cfg.V) _ ?_ rfl
  rw [toNat_schoolbook f.A f.B s.cfg.V le_rfl, Nat.mod_eq_of_lt f.B.isLt]

/-- KMUL's product fits its `2 W` bits, so cutting it there loses nothing (42_multiply.md R193). -/
theorem exec_kmul (hW : s.cfg.W = s.cfg.V) :
    exec .kmul s = .next (s.withBlock (s.block.afterResult (2 * s.cfg.W) (f.A.toNat * f.B.toNat) false)) := by
  have hB : f.B.toNat < 2 ^ s.cfg.W := f.B.isLt.trans_eq (congrArg (2 ^ ·) hW.symm)
  rw [exec, execKmul, sameWidth_eq hW]
  refine State.complete_succeed hf _ _ ?_ rfl
  rw [toNat_bitsOf_natCast, karatsuba_eq, Nat.two_mul, pow_add]
  exact Nat.mod_eq_of_lt (Nat.mul_lt_mul'' f.A.isLt hB)

theorem exec_bmul :
    exec .bmul s = .next (s.withBlock (s.block.afterResult (s.cfg.W + s.cfg.V)
      (residue (s.cfg.W + s.cfg.V) (f.A.toInt * f.B.toInt)) false)) :=
  State.complete_succeed hf (fun f => booth f.A f.B) _ (toNat_booth f.A f.B s.cfg.V_pos) rfl

end

/-- BMULI is BMUL: its accumulator in place cannot be observed (42_multiply.md R195). -/
theorem exec_bmuli (s : State) : exec .bmuli s = exec .bmul s := rfl

/-! ### The word-by-word adder -/

/-- The value below word `j + 1` is the value below word `j` and the word. -/
theorem mod_succ_word {n : Nat} (wb : Nat) (x : BitVec n) (j : Nat) :
    x.toNat % 2 ^ ((j + 1) * wb) = x.toNat % 2 ^ (j * wb) + (wordOf wb x j).toNat * 2 ^ (j * wb) := by
  rw [toNat_wordOf, Nat.succ_mul, pow_add, Nat.mod_mul, Nat.mul_comm (2 ^ (j * wb))]

/-- One turn of the loop: to a sum `S` whose part below `p` stands and whose carry is `S / p`, a digit sum `d` at
place `p` is added, `q` being the digit's base. -/
theorem add_digit (S d q : Nat) {p : Nat} (hp : 0 < p) :
    (S + d * p) % (p * q) = S % p + (d + S / p) % q * p ∧ (S + d * p) / (p * q) = (d + S / p) / q := by
  have hdiv : (S + d * p) / p = d + S / p := by rw [Nat.add_mul_div_right _ _ hp, Nat.add_comm]
  rw [Nat.mod_mul, ← Nat.div_div_eq_div_mul, hdiv, Nat.add_mul_mod_self_right, Nat.mul_comm p]
  exact ⟨rfl, rfl⟩

/-- The sum of the words of two patterns below word `j`, with the carry into word 0. -/
def lowSum {n : Nat} (wb : Nat) (x y : BitVec n) (c0 j : Nat) : Nat :=
  x.toNat % 2 ^ (j * wb) + y.toNat % 2 ^ (j * wb) + c0

section
variable {n wb : Nat} (x y : BitVec n) (c0 : Nat)

theorem lowSum_succ (j : Nat) :
    lowSum wb x y c0 (j + 1) =
      lowSum wb x y c0 j + ((wordOf wb x j).toNat + (wordOf wb y j).toNat) * 2 ^ (j * wb) := by
  rw [lowSum, lowSum, mod_succ_word, mod_succ_word]
  ring

/-- All the words are the whole patterns. -/
theorem lowSum_nw (hwb : 0 < wb) : lowSum wb x y c0 (nw wb n) = x.toNat + y.toNat + c0 := by
  have hle : 2 ^ n ≤ 2 ^ (nw wb n * wb) := Nat.pow_le_pow_right (by decide) (le_nw_mul hwb)
  rw [lowSum, Nat.mod_eq_of_lt (x.isLt.trans_le hle), Nat.mod_eq_of_lt (y.isLt.trans_le hle)]

/-- The loop's invariant: the words written and the carry are the sum so far, cut at word `j` (R160). -/
theorem adderWords_eq (j : Nat) :
    adderWords wb x y c0 j = (lowSum wb x y c0 j % 2 ^ (j * wb), lowSum wb x y c0 j / 2 ^ (j * wb)) := by
  induction j with
  | zero => simp [adderWords, lowSum, Nat.mod_one]
  | succ j ih =>
    obtain ⟨hmod, hdiv⟩ := add_digit (lowSum wb x y c0 j) ((wordOf wb x j).toNat + (wordOf wb y j).toNat) (2 ^ wb)
      (Nat.two_pow_pos (j * wb))
    rw [lowSum_succ, Nat.succ_mul, pow_add, hmod, hdiv, adderWords, ih]
    rfl

/-- The last word, `top` bits wide, closes the sum at the whole width (R160). -/
theorem adder_isAddition (hwb : 0 < wb) (hn : 1 ≤ n) :
    (adder wb x y c0).1.toNat = (x.toNat + y.toNat + c0) % 2 ^ n ∧
      (adder wb x y c0).2 = (x.toNat + y.toNat + c0) / 2 ^ n := by
  obtain ⟨last, hlast⟩ : ∃ last, nw wb n = last + 1 := ⟨nw wb n - 1, by have := nw_pos hwb hn; omega⟩
  have htop : last * wb + (n - last * wb) = n := by
    have := mul_lt_of_lt_nw (n := n) (j := last) hwb (by omega)
    omega
  obtain ⟨hmod, hdiv⟩ := add_digit (lowSum wb x y c0 last) ((wordOf wb x last).toNat + (wordOf wb y last).toNat)
    (2 ^ (n - last * wb)) (Nat.two_pow_pos (last * wb))
  rw [← lowSum_succ, ← hlast, lowSum_nw x y c0 hwb, ← pow_add, htop] at hmod hdiv
  simp only [adder, hlast, Nat.add_sub_cancel, adderWords_eq, uval_eq_toNat]
  rw [← hmod, ← hdiv, BitVec.toNat_ofNat, Nat.mod_mod]
  exact ⟨rfl, rfl⟩

end

/-! ### R0 after a command -/

@[simp] theorem State.withInflight_inflight (s : State) (f : Inflight s.cfg) :
    (s.withInflight f).block.inflight = some f := rfl

/-- R0 after a completion with a result that fits it. -/
theorem r0Of_eq_of_afterResult {s : State} {a : Answer} {rw x : Nat} {carry : Bool}
    (h : a = .next (s.withBlock (s.block.afterResult rw x carry))) (hx : x < 2 ^ (s.cfg.W + s.cfg.V)) :
    r0Of a = x := by
  rw [h]
  exact (BitVec.toNat_ofNat x _).trans (Nat.mod_eq_of_lt hx)

section
variable {s : State} {f : Inflight s.cfg}

theorem r0Of_add (hW : s.cfg.W = s.cfg.V) :
    r0Of (exec .add (s.withInflight f)) = (f.A.toNat + f.B.toNat) % 2 ^ s.cfg.W :=
  r0Of_eq_of_afterResult (exec_add (s.withInflight_inflight f) hW)
    ((Nat.mod_lt _ (Nat.two_pow_pos _)).trans_le s.cfg.pow_W_le_R0)

theorem r0Of_sub (hW : s.cfg.W = s.cfg.V) :
    r0Of (exec .sub (s.withInflight f)) = residue s.cfg.W (f.A.toNat - f.B.toNat) :=
  r0Of_eq_of_afterResult (exec_sub (s.withInflight_inflight f) hW) ((residue_lt _ _).trans_le s.cfg.pow_W_le_R0)

theorem r0Of_neg : r0Of (exec .neg (s.withInflight f)) = residue s.cfg.W (-(f.A.toNat : Int)) :=
  r0Of_eq_of_afterResult (exec_neg (s.withInflight_inflight f)) ((residue_lt _ _).trans_le s.cfg.pow_W_le_R0)

theorem r0Of_eaddu : r0Of (exec .eaddu (s.withInflight f)) = f.A.toNat + f.B.toNat + f.CIN.toNat :=
  r0Of_eq_of_afterResult (exec_eaddu (s.withInflight_inflight f)) (f.unsigned_sum_lt.trans_le s.cfg.pow_M_le_R0)

theorem r0Of_eadds :
    r0Of (exec .eadds (s.withInflight f)) = residue (s.cfg.M + 1) (f.A.toInt + f.B.toInt + f.CIN.toNat) :=
  r0Of_eq_of_afterResult (exec_eadds (s.withInflight_inflight f)) ((residue_lt _ _).trans_le s.cfg.pow_M_le_R0)

theorem r0Of_mul (hW : s.cfg.W = s.cfg.V) :
    r0Of (exec .mul (s.withInflight f)) = f.A.toNat * f.B.toNat % 2 ^ s.cfg.W :=
  r0Of_eq_of_afterResult (exec_mul (s.withInflight_inflight f) hW)
    ((Nat.mod_lt _ (Nat.two_pow_pos _)).trans_le s.cfg.pow_W_le_R0)

theorem r0Of_smul : r0Of (exec .smul (s.withInflight f)) = f.A.toNat * f.B.toNat :=
  r0Of_eq_of_afterResult (exec_smul (s.withInflight_inflight f)) f.unsigned_product_lt

theorem r0Of_kmul (hW : s.cfg.W = s.cfg.V) : r0Of (exec .kmul (s.withInflight f)) = f.A.toNat * f.B.toNat :=
  r0Of_eq_of_afterResult (exec_kmul (s.withInflight_inflight f) hW) f.unsigned_product_lt

theorem r0Of_bmul :
    r0Of (exec .bmul (s.withInflight f)) = residue (s.cfg.W + s.cfg.V) (f.A.toInt * f.B.toInt) :=
  r0Of_eq_of_afterResult (exec_bmul (s.withInflight_inflight f)) (residue_lt _ _)

end

/-! ### Commutativity -/

/-- The second snapshot holds the operands of the first swapped, their widths with them (R168). -/
structure Inflight.Swapped {c d : Instance} (f : Inflight c) (g : Inflight d) : Prop where
  W : d.W = c.V
  V : d.V = c.W
  A : g.A.toNat = f.B.toNat
  B : g.B.toNat = f.A.toNat
  CIN : g.CIN = f.CIN

section
variable {s u : State} {f : Inflight s.cfg} {g : Inflight u.cfg} (h : f.Swapped g)
include h

theorem Inflight.Swapped.A_toInt : g.A.toInt = f.B.toInt := toInt_eq_of_toNat_eq h.W h.A

theorem Inflight.Swapped.B_toInt : g.B.toInt = f.A.toInt := toInt_eq_of_toNat_eq h.V h.B

theorem Inflight.Swapped.M : u.cfg.M = s.cfg.M := by
  rw [Instance.M, Instance.M, h.W, h.V, max_comm]

/-- The commands legal at all widths whose operation is symmetric (R168, R196). -/
theorem Inflight.Swapped.r0Of_eq {i : Instr} (hi : i ∈ [Instr.eaddu, .eadds, .smul, .bmul, .bmuli]) :
    r0Of (exec i (u.withInflight g)) = r0Of (exec i (s.withInflight f)) := by
  have hbmul : r0Of (exec .bmul (u.withInflight g)) = r0Of (exec .bmul (s.withInflight f)) := by
    rw [r0Of_bmul, r0Of_bmul, h.A_toInt, h.B_toInt, h.W, h.V, Nat.add_comm s.cfg.V, Int.mul_comm]
  simp only [List.mem_cons, List.not_mem_nil, or_false] at hi
  obtain rfl | rfl | rfl | rfl | rfl := hi
  · rw [r0Of_eaddu, r0Of_eaddu, h.A, h.B, h.CIN, Nat.add_comm f.A.toNat]
  · rw [r0Of_eadds, r0Of_eadds, h.A_toInt, h.B_toInt, h.CIN, h.M, Int.add_comm f.A.toInt]
  · rw [r0Of_smul, r0Of_smul, h.A, h.B, Nat.mul_comm]
  · exact hbmul
  · exact hbmul

/-- The commands that need `W = V` whose operation is symmetric (R168, R196). -/
theorem Inflight.Swapped.r0Of_eq_of_sameWidth (hW : s.cfg.W = s.cfg.V) {i : Instr}
    (hi : i ∈ [Instr.add, .mul, .kmul]) :
    r0Of (exec i (u.withInflight g)) = r0Of (exec i (s.withInflight f)) := by
  have hWu : u.cfg.W = s.cfg.W := h.W.trans hW.symm
  have hu : u.cfg.W = u.cfg.V := hWu.trans h.V.symm
  simp only [List.mem_cons, List.not_mem_nil, or_false] at hi
  obtain rfl | rfl | rfl := hi
  · rw [r0Of_add hu, r0Of_add hW, h.A, h.B, hWu, Nat.add_comm]
  · rw [r0Of_mul hu, r0Of_mul hW, h.A, h.B, hWu, Nat.mul_comm]
  · rw [r0Of_kmul hu, r0Of_kmul hW, h.A, h.B, Nat.mul_comm]

end

/-! ### The laws of one machine -/

section
variable {s : State} {f : Inflight s.cfg}

/-- Adding what NEG leaves of a number is subtracting the number (R168). -/
theorem r0Of_add_neg (hW : s.cfg.W = s.cfg.V) {x : Int} (hB : f.B.toNat = residue s.cfg.W (-x)) :
    r0Of (exec .add (s.withInflight f)) = residue s.cfg.W (f.A.toNat - x) := by
  rw [r0Of_add hW, hB, ← residue_natCast, Nat.cast_add, sub_eq_add_neg]
  exact residue_eq_of_modEq ((residue_modEq _ (-x)).add_left _)

theorem r0Of_add_zero (hW : s.cfg.W = s.cfg.V) (hB : f.B.toNat = 0) :
    r0Of (exec .add (s.withInflight f)) = f.A.toNat := by
  rw [r0Of_add hW, hB, Nat.add_zero, Nat.mod_eq_of_lt f.A.isLt]

theorem r0Of_sub_zero (hW : s.cfg.W = s.cfg.V) (hB : f.B.toNat = 0) :
    r0Of (exec .sub (s.withInflight f)) = f.A.toNat := by
  rw [r0Of_sub hW, hB, Nat.cast_zero, sub_zero, residue_toNat]

theorem r0Of_mul_zero (hW : s.cfg.W = s.cfg.V) (hB : f.B.toNat = 0) :
    r0Of (exec .mul (s.withInflight f)) = 0 := by
  rw [r0Of_mul hW, hB, Nat.mul_zero, Nat.zero_mod]

theorem r0Of_mul_one (hW : s.cfg.W = s.cfg.V) (hB : f.B.toNat = 1) :
    r0Of (exec .mul (s.withInflight f)) = f.A.toNat := by
  rw [r0Of_mul hW, hB, Nat.mul_one, Nat.mod_eq_of_lt f.A.isLt]

/-- The greatest unsigned number and one wrap to 0 (R168). -/
theorem r0Of_add_one_of_max (hW : s.cfg.W = s.cfg.V) (hB : f.B.toNat = 1) (hA : f.A.toNat = 2 ^ s.cfg.W - 1) :
    r0Of (exec .add (s.withInflight f)) = 0 := by
  rw [r0Of_add hW, hA, hB, Nat.sub_add_cancel (Nat.two_pow_pos _), Nat.mod_self]

/-- The greatest signed number and one wrap to the least (R168). -/
theorem r0Of_add_one_of_signed_max (hW : s.cfg.W = s.cfg.V) (hB : f.B.toNat = 1)
    (hA : f.A.toNat = 2 ^ (s.cfg.W - 1) - 1) : r0Of (exec .add (s.withInflight f)) = 2 ^ (s.cfg.W - 1) := by
  have hlt : 2 ^ (s.cfg.W - 1) < 2 ^ s.cfg.W := Nat.pow_lt_pow_right (by decide) (by have := s.cfg.W_pos; omega)
  rw [r0Of_add hW, hA, hB, Nat.sub_add_cancel (Nat.two_pow_pos _), Nat.mod_eq_of_lt hlt]

/-- ADD is EADD.U without a carry, truncated (R168). -/
theorem r0Of_add_eq_eaddu_mod (hW : s.cfg.W = s.cfg.V) (hC : f.CIN = 0#1) :
    r0Of (exec .add (s.withInflight f)) = r0Of (exec .eaddu (s.withInflight f)) % 2 ^ s.cfg.W := by
  rw [r0Of_add hW, r0Of_eaddu, hC, BitVec.toNat_zero, Nat.add_zero]

/-- The low half of the signed product is that of the unsigned one (42_multiply.md R190, R196). -/
theorem r0Of_mul_eq_bmul_mod (hW : s.cfg.W = s.cfg.V) :
    r0Of (exec .mul (s.withInflight f)) = r0Of (exec .bmul (s.withInflight f)) % 2 ^ s.cfg.W := by
  have hB : f.B.toInt ≡ f.B.toNat [ZMOD 2 ^ s.cfg.W] := by
    rw [hW]; exact toInt_modEq_toNat f.B
  rw [r0Of_mul hW, r0Of_bmul, residue_add_mod, ← residue_natCast, Nat.cast_mul]
  exact residue_eq_of_modEq ((toInt_modEq_toNat f.A).mul hB).symm

theorem r0Of_mul_eq_smul_mod (hW : s.cfg.W = s.cfg.V) :
    r0Of (exec .mul (s.withInflight f)) = r0Of (exec .smul (s.withInflight f)) % 2 ^ s.cfg.W := by
  rw [r0Of_mul hW, r0Of_smul]

/-- BMUL's product, read as signed, is exact (42_multiply.md R196). -/
theorem signedOf_bmul :
    signedOf (s.cfg.W + s.cfg.V) (r0Of (exec .bmul (s.withInflight f))) = f.A.toInt * f.B.toInt := by
  obtain ⟨lo, hi⟩ := abs_lt.mp (abs_toInt_mul_lt s.cfg.W_pos s.cfg.V_pos f.A f.B)
  rw [r0Of_bmul, signedOf_residue s.cfg.W_add_V_pos lo.le hi]

theorem r0Of_smul_one (hB : f.B.toNat = 1) : r0Of (exec .smul (s.withInflight f)) = f.A.toNat := by
  rw [r0Of_smul, hB, Nat.mul_one]

theorem r0Of_bmul_one (hB : f.B.toInt = 1) :
    r0Of (exec .bmul (s.withInflight f)) = residue (s.cfg.W + s.cfg.V) f.A.toInt := by
  rw [r0Of_bmul, hB, Int.mul_one]

end

end Sys2Proof.Machine

open Sys2Proof Sys2Proof.Machine

/-- Settles O15: the sum and its carry out, or the illegal opcode. -/
theorem addResult : Obligations.AddResult :=
  ⟨rfl, fun _ _ hf => ⟨exec_add hf, fun h => State.complete_sameWidth_of_ne hf h _⟩⟩

/-- Settles O16: adding the negated operand is subtracting. -/
theorem subResult : Obligations.SubResult :=
  ⟨rfl, fun _ _ hf => ⟨exec_sub hf, fun h => State.complete_sameWidth_of_ne hf h _⟩⟩

/-- Settles O17: the complement plus one is the negation. -/
theorem negResult : Obligations.NegResult :=
  ⟨rfl, fun _ _ hf => exec_neg hf⟩

/-- Settles O18: at `M + 1` bits neither sum overflows. -/
theorem eaddResults : Obligations.EaddResults :=
  ⟨rfl, rfl, fun _ _ hf => ⟨exec_eaddu hf, exec_eadds hf⟩⟩

/-- Settles O19: the extended operands are congruent, modulo `2^M`, to the readings subtracted. -/
theorem esubResults : Obligations.EsubResults :=
  ⟨rfl, rfl, fun _ _ hf => ⟨exec_esubu hf, exec_esubs hf⟩⟩


/-- Settles O20: the loop's invariant at the last word. -/
theorem adderIsAddition : Obligations.AdderIsAddition :=
  fun ws _ x y c0 hn _ => adder_isAddition x y c0 ws.bits_pos hn

/-- Settles O26: each law from what the commands leave in R0. -/
theorem arithmeticLaws : Obligations.ArithmeticLaws := by
  refine ⟨fun s u f g hW hV hA hB hC => ?_, fun s f g h => ⟨fun hW => ⟨fun hB => ⟨?_, r0Of_mul_zero hW hB⟩,
    fun hB => ⟨r0Of_mul_one hW hB, r0Of_add_one_of_max hW hB, r0Of_add_one_of_signed_max hW hB⟩, fun hB => ?_,
    fun hA hA' hB => ?_, r0Of_add_eq_eaddu_mod hW, r0Of_kmul hW, ?_⟩,
    r0Of_smul, signedOf_bmul, r0Of_smul_one, r0Of_bmul_one⟩⟩
  case refine_1 =>
    have hs : f.Swapped g := ⟨hW, hV, hA, hB, hC⟩
    exact ⟨fun _ => hs.r0Of_eq, fun hsame _ => hs.r0Of_eq_of_sameWidth hsame⟩
  case refine_2 => simpa using ⟨r0Of_add_zero hW hB, r0Of_sub_zero hW hB⟩
  case refine_3 =>
    rw [r0Of_add_neg hW (hB.trans r0Of_neg), sub_self]
    rfl
  case refine_4 => rw [r0Of_add_neg hW (hB.trans r0Of_neg), r0Of_sub hW, hA, hA']
  case refine_5 => simpa using ⟨r0Of_mul_eq_smul_mod hW, r0Of_mul_eq_bmul_mod hW⟩

end

section
/-! The statements of spec/42_multiply.md: the results of the five commands and the agreement of their strategies. -/

namespace Sys2Proof.Machine

/-- Placing in flight the snapshot that already is there changes nothing. -/
theorem exec_withInflight {s : State} {f : Inflight s.cfg} (hf : s.block.inflight = some f) (i : Instr) :
    exec i (s.withInflight f) = exec i s := by
  rw [State.withInflight, ← hf]

section
variable {s : State} {f : Inflight s.cfg}

/-- SMUL and KMUL both leave the exact unsigned product (42_multiply.md R190 (b)). -/
theorem r0Of_smul_eq_kmul (hW : s.cfg.W = s.cfg.V) :
    r0Of (exec .smul (s.withInflight f)) = r0Of (exec .kmul (s.withInflight f)) := by
  rw [r0Of_smul, r0Of_kmul hW]

/-- Operands that are non-negative in both readings have one product (42_multiply.md R190 (d)). -/
theorem r0Of_smul_eq_bmul_of_msb (hA : f.A.msb = false) (hB : f.B.msb = false) :
    r0Of (exec .smul (s.withInflight f)) = r0Of (exec .bmul (s.withInflight f)) := by
  rw [r0Of_smul, r0Of_bmul, BitVec.toInt_eq_toNat_of_msb hA, BitVec.toInt_eq_toNat_of_msb hB, ← Nat.cast_mul,
    residue_natCast, Nat.mod_eq_of_lt f.unsigned_product_lt]

/-- Below `2^W` every full product is MUL's (42_multiply.md R190 (a)). -/
theorem r0Of_mod_eq_mul (hW : s.cfg.W = s.cfg.V) {i : Instr} (hi : i ∈ [Instr.smul, .kmul, .bmul, .bmuli]) :
    r0Of (exec i (s.withInflight f)) % 2 ^ s.cfg.W = r0Of (exec .mul (s.withInflight f)) := by
  simp only [List.mem_cons, List.not_mem_nil, or_false] at hi
  obtain rfl | rfl | rfl | rfl := hi
  case inl => exact (r0Of_mul_eq_smul_mod hW).symm
  case inr.inl => rw [← r0Of_smul_eq_kmul hW, r0Of_mul_eq_smul_mod hW]
  case inr.inr.inl => exact (r0Of_mul_eq_bmul_mod hW).symm
  case inr.inr.inr => rw [exec_bmuli, r0Of_mul_eq_bmul_mod hW]

end

end Sys2Proof.Machine

open Sys2Proof Sys2Proof.Machine

/-- Settles O21: the product cut to `W` bits, or the illegal opcode. -/
theorem mulResult : Obligations.MulResult :=
  ⟨rfl, fun _ _ hf => ⟨exec_mul hf, fun h => State.complete_sameWidth_of_ne hf h _⟩⟩

/-- Settles O22: the accumulator after the last bit of B is the product by the whole of B. -/
theorem smulResult : Obligations.SmulResult :=
  ⟨rfl, fun _ _ hf => exec_smul hf⟩

/-- Settles O23: the recursion is multiplication, by induction on its fuel. -/
theorem kmulResult : Obligations.KmulResult :=
  ⟨rfl, fun _ _ hf => ⟨exec_kmul hf, fun h => State.complete_sameWidth_of_ne hf h _⟩⟩

/-- Settles O24: the scan's invariant at the last bit of B; BMULI is BMUL. -/
theorem boothResult : Obligations.BoothResult := by
  refine ⟨rfl, rfl, fun s f hf i hi => ?_⟩
  have hbmul : exec i s = exec .bmul s := by
    simp only [List.mem_cons, List.not_mem_nil, or_false] at hi
    obtain rfl | rfl := hi
    · rfl
    · exact exec_bmuli s
  rw [hbmul, exec_bmul hf]

/-- Settles O25: each strategy's R0 is a closed form, and these agree. -/
theorem strategyAgreement : Obligations.StrategyAgreement := by
  intro s f hf
  simp only [← exec_withInflight hf]
  exact ⟨fun hW => ⟨fun _ => r0Of_mod_eq_mul hW, r0Of_smul_eq_kmul hW⟩, congrArg r0Of (exec_bmuli _).symm,
    r0Of_smul_eq_bmul_of_msb⟩

end

section
/-! The statements of spec/43_divide.md: the restoring loop and its fast paths, the results of DIVU and DIVS, and the
laws of R226. -/

namespace Sys2Proof.Machine

/-! ### The restoring loop -/

/-- One step of the loop, as numbers: doubling `x` doubles its quotient and remainder by `m`, with one subtraction of
`m` where the doubled remainder is not below it (R221). -/
theorem two_mul_div_mod {m : Nat} (x : Nat) (hm : 0 < m) :
    (m ≤ 2 * (x % m) → 2 * x / m = 2 * (x / m) + 1 ∧ 2 * x % m = 2 * (x % m) - m) ∧
      (2 * (x % m) < m → 2 * x / m = 2 * (x / m) ∧ 2 * x % m = 2 * (x % m)) := by
  have hx := Nat.div_add_mod x m
  have hlt := Nat.mod_lt x hm
  refine ⟨fun h => (Nat.div_mod_unique hm).mpr ⟨?_, by omega⟩, fun h => (Nat.div_mod_unique hm).mpr ⟨?_, h⟩⟩
  · have he : m * (2 * (x / m) + 1) = 2 * (m * (x / m)) + m := by ring
    omega
  · have he : m * (2 * (x / m)) = 2 * (m * (x / m)) := by ring
    omega

/-- Setting a bit below all the bits a number has adds its power of two. -/
theorem mul_two_pow_or_two_pow (q i : Nat) : q * 2 ^ (i + 1) ||| 2 ^ i = (2 * q + 1) * 2 ^ i := by
  rw [Nat.mul_comm q, ← Nat.two_pow_add_eq_or_of_lt (Nat.pow_lt_pow_right (by decide) i.lt_succ_self), pow_succ]
  ring

/-- The pattern of a number that fits it. -/
theorem toNat_bitsOf_of_eq {n x : Nat} {i : Int} (hi : i = x) (hx : x < 2 ^ n) : (bitsOf n i).toNat = x := by
  rw [hi, toNat_bitsOf_natCast, Nat.mod_eq_of_lt hx]

section
variable {w : Nat} {num den : BitVec w}

/-- The aligned denominator fits the remainder register (R221). -/
theorem toNat_aligned (den : BitVec w) : (bitsOf (2 * w) ((den.toNat : Int) * 2 ^ w)).toNat = den.toNat * 2 ^ w := by
  refine toNat_bitsOf_of_eq (by push_cast; rfl) ?_
  rw [Nat.two_mul, pow_add]
  exact Nat.mul_lt_mul_of_pos_right den.isLt (Nat.two_pow_pos w)

/-- One step of the loop, while doubling the remainder register loses no bit (R221). -/
theorem toNat_restore_succ {k : Nat} (hfit : 2 * (restore num den k).1.toNat < 2 ^ (2 * w)) :
    (den.toNat * 2 ^ w ≤ 2 * (restore num den k).1.toNat →
      (restore num den (k + 1)).1.toNat = 2 * (restore num den k).1.toNat - den.toNat * 2 ^ w ∧
        (restore num den (k + 1)).2 = (restore num den k).2 ||| BitVec.twoPow w (w - 1 - k)) ∧
      (2 * (restore num den k).1.toNat < den.toNat * 2 ^ w →
        (restore num den (k + 1)).1.toNat = 2 * (restore num den k).1.toNat ∧
          (restore num den (k + 1)).2 = (restore num den k).2) := by
  have hrg : (bitsOf (2 * w) (((restore num den k).1.toNat : Int) * 2)).toNat = 2 * (restore num den k).1.toNat :=
    toNat_bitsOf_of_eq (by push_cast; ring) hfit
  simp only [restore, uval_eq_toNat, toNat_aligned, hrg]
  refine ⟨fun h => ?_, fun h => ?_⟩
  · rw [if_pos h]
    exact ⟨toNat_bitsOf_of_eq (Nat.cast_sub h).symm (by omega), rfl⟩
  · rw [if_neg (by omega)]
    exact ⟨hrg, rfl⟩

/-- The loop's invariant: after `k` steps the remainder register and the leading `k` quotient bits are the remainder and
the quotient of `num * 2^k` by the aligned denominator (R221). -/
theorem toNat_restore (hd : den ≠ 0#w) {k : Nat} (hk : k ≤ w) :
    (restore num den k).1.toNat = num.toNat * 2 ^ k % (den.toNat * 2 ^ w) ∧
      (restore num den k).2.toNat = num.toNat * 2 ^ k / (den.toNat * 2 ^ w) * 2 ^ (w - k) := by
  have hpos : 0 < den.toNat := Nat.pos_of_ne_zero (BitVec.toNat_ne_iff_ne.mpr hd)
  induction k with
  | zero =>
    have hlt : num.toNat < den.toNat * 2 ^ w := num.isLt.trans_le (Nat.le_mul_of_pos_left _ hpos)
    simp [restore, toNat_zext_of_le, Nat.mod_eq_of_lt hlt, Nat.div_eq_of_lt hlt, Nat.two_mul]
  | succ k ih =>
    obtain ⟨hr, hq⟩ := ih (by omega)
    have hfit : 2 * (restore num den k).1.toNat < 2 ^ (2 * w) :=
      calc 2 * (restore num den k).1.toNat
          ≤ 2 * (num.toNat * 2 ^ k) := Nat.mul_le_mul_left _ (hr ▸ Nat.mod_le _ _)
        _ = num.toNat * 2 ^ (k + 1) := by ring
        _ < 2 ^ w * 2 ^ (k + 1) := Nat.mul_lt_mul_of_pos_right num.isLt (Nat.two_pow_pos _)
        _ ≤ 2 ^ w * 2 ^ w := Nat.mul_le_mul_left _ (Nat.pow_le_pow_right (by decide) hk)
        _ = 2 ^ (2 * w) := by rw [Nat.two_mul, pow_add]
    obtain ⟨hge, hlt⟩ := two_mul_div_mod (num.toNat * 2 ^ k) (Nat.mul_pos hpos (Nat.two_pow_pos w))
    obtain ⟨sub, keep⟩ := toNat_restore_succ hfit
    have hbit : w - k = w - 1 - k + 1 := by omega
    have hlast : w - (k + 1) = w - 1 - k := by omega
    rw [← hr] at hge hlt
    rw [pow_succ', Nat.mul_left_comm, hlast]
    rcases le_or_gt (den.toNat * 2 ^ w) (2 * (restore num den k).1.toNat) with h | h
    · obtain ⟨hdiv, hmod⟩ := hge h
      obtain ⟨hr', hq'⟩ := sub h
      rw [hr', hq', hmod, hdiv, BitVec.toNat_or, BitVec.toNat_twoPow_of_lt (by omega), hq, hbit,
        mul_two_pow_or_two_pow]
      exact ⟨rfl, rfl⟩
    · obtain ⟨hdiv, hmod⟩ := hlt h
      obtain ⟨hr', hq'⟩ := keep h
      rw [hr', hq', hmod, hdiv, hq, hbit]
      exact ⟨rfl, by ring⟩

/-- The loop alone divides (R220, R221). -/
theorem restoring_eq (hd : den ≠ 0#w) : restoring num den = (num / den, num % den) := by
  obtain ⟨hr, hq⟩ := toNat_restore (num := num) hd le_rfl
  refine Prod.ext (BitVec.eq_of_toNat_eq ?_) (BitVec.eq_of_toNat_eq ?_)
  · rw [restoring, hq, Nat.mul_div_mul_right _ _ (Nat.two_pow_pos w), Nat.sub_self, pow_zero, Nat.mul_one,
      BitVec.toNat_udiv]
  · rw [restoring, BitVec.extractLsb'_toNat, hr, Nat.shiftRight_eq_div_pow, Nat.mul_mod_mul_right,
      Nat.mul_div_cancel _ (Nat.two_pow_pos w), BitVec.toNat_umod]
    exact Nat.mod_eq_of_lt ((Nat.mod_le _ _).trans_lt num.isLt)

/-! ### The unsigned and the signed divider -/

theorem eq_one_of_toNat {v : BitVec w} (h : v.toNat = 1) : v = 1#w := by
  rw [← h, BitVec.ofNat_toNat, BitVec.setWidth_eq]

/-- The quotient and the remainder where R222 has a fast path. -/
theorem div_mod_fast_paths (hd : den ≠ 0#w) :
    (num = 0#w → (num / den, num % den) = (0#w, 0#w)) ∧ (num = den → (num / den, num % den) = (1#w, 0#w)) ∧
      (den.toNat = 1 → (num / den, num % den) = (num, 0#w)) := by
  refine ⟨fun hzero => ?_, fun hself => ?_, fun hone => ?_⟩
  · rw [hzero, BitVec.zero_udiv, BitVec.zero_umod]
  · rw [hself, BitVec.udiv_self, BitVec.umod_self, beq_eq_false_iff_ne.mpr hd]
    rfl
  · rw [eq_one_of_toNat hone, BitVec.udiv_one, BitVec.umod_one]

/-- The divider divides, whichever path it takes (R220, R222). -/
theorem udiv_eq (hd : den ≠ 0#w) : udiv num den = (num / den, num % den) := by
  obtain ⟨zero, self, one⟩ := div_mod_fast_paths (num := num) hd
  unfold udiv
  split_ifs with hzero hself hone
  · exact (zero (BitVec.eq_of_toNat_eq hzero)).symm
  · exact (self hself).symm
  · exact (one hone).symm
  · exact restoring_eq hd

theorem bitsOf_neg_uval (v : BitVec w) : bitsOf w (-uval v) = -v := by
  rw [bitsOf, BitVec.ofInt_neg, BitVec.ofInt_natCast, uval_eq_toNat, BitVec.ofNat_toNat, BitVec.setWidth_eq]

/-- The absolute value as a pattern (R224). -/
theorem magnitude_eq (v : BitVec w) : magnitude v = if v.msb then -v else v := by
  rw [magnitude, bitsOf_neg_uval]

theorem magnitude_ne_zero (hd : den ≠ 0#w) : magnitude den ≠ 0#w := by
  rw [magnitude_eq]
  split
  · exact mt BitVec.neg_eq_zero_iff.mp hd
  · exact hd

/-- The signed divider is division toward zero and its remainder, at the width (R224). -/
theorem sdiv_eq (hd : den ≠ 0#w) : sdiv num den = (num.sdiv den, num.srem den) := by
  rw [sdiv, udiv_eq (magnitude_ne_zero hd)]
  simp only [bitsOf_neg_uval, magnitude_eq, BitVec.sdiv_eq, BitVec.srem_eq]
  cases num.msb <;> cases den.msb <;> rfl

theorem residue_zero (n : Nat) : residue n 0 = 0 := by
  rw [residue, Int.zero_emod, Int.toNat_zero]

/-- A quotient out of range, that of the least number by -1, wraps (R224). -/
theorem toNat_sdiv_eq_residue (num den : BitVec w) :
    (num.sdiv den).toNat = residue w (num.toInt.tdiv den.toInt) := by
  rw [toNat_eq_residue_toInt, BitVec.toInt_sdiv]
  exact residue_eq_of_modEq (by exact_mod_cast Int.bmod_emod)

theorem toNat_srem_eq_residue (num den : BitVec w) :
    (num.srem den).toNat = residue w (num.toInt.tmod den.toInt) := by
  rw [toNat_eq_residue_toInt, BitVec.toInt_srem]

end

/-! ### The completion of a division -/

/-- The denominator in flight at the width of the divider. -/
def Inflight.den {c : Instance} (f : Inflight c) : BitVec c.W := zext c.W f.B

section
variable {c : Instance} {f : Inflight c}

theorem Inflight.den_toNat (hW : c.W = c.V) : f.den.toNat = f.B.toNat := toNat_zext_of_le f.B hW.ge

theorem Inflight.den_toInt (hW : c.W = c.V) : f.den.toInt = f.B.toInt :=
  toInt_eq_of_toNat_eq hW (Inflight.den_toNat hW)

theorem Inflight.den_ne_zero (hW : c.W = c.V) (hB : f.B.toNat ≠ 0) : f.den ≠ 0#c.W :=
  BitVec.toNat_ne_iff_ne.mp (by rwa [Inflight.den_toNat hW, BitVec.toNat_zero])

theorem divideBy_of_zero (hB : f.B.toNat = 0) (b : Block c)
    (div : BitVec c.W → BitVec c.W → BitVec c.W × BitVec c.W) : divideBy f b div = b.afterError .divisionByZero :=
  if_pos hB

theorem divideBy_of_ne_zero (hB : f.B.toNat ≠ 0) (b : Block c)
    {div : BitVec c.W → BitVec c.W → BitVec c.W × BitVec c.W} {q r : BitVec c.W} (h : div f.A f.den = (q, r)) :
    divideBy f b div = b.afterDivision q.toNat r.toNat := by
  rw [divideBy, uval_eq_toNat, if_neg hB, ← Inflight.den, h, Block.succeedWithRemainder_eq_afterDivision]

end

section
variable {s : State} {f : Inflight s.cfg} (hf : s.block.inflight = some f) (hW : s.cfg.W = s.cfg.V)
include hf hW

theorem exec_divu (hB : f.B.toNat ≠ 0) :
    exec .divu s =
      .next (s.withBlock (s.block.afterDivision (f.A.toNat / f.B.toNat) (f.A.toNat % f.B.toNat))) := by
  rw [exec, execDivu, sameWidth_eq hW, State.complete_of_inflight hf,
    divideBy_of_ne_zero hB _ (udiv_eq (Inflight.den_ne_zero hW hB)), BitVec.toNat_udiv, BitVec.toNat_umod,
    Inflight.den_toNat hW]

theorem exec_divs (hB : f.B.toNat ≠ 0) :
    exec .divs s = .next (s.withBlock (s.block.afterDivision
      (residue s.cfg.W (f.A.toInt.tdiv f.B.toInt)) (residue s.cfg.W (f.A.toInt.tmod f.B.toInt)))) := by
  rw [exec, execDivs, sameWidth_eq hW, State.complete_of_inflight hf,
    divideBy_of_ne_zero hB _ (sdiv_eq (Inflight.den_ne_zero hW hB)), toNat_sdiv_eq_residue, toNat_srem_eq_residue,
    Inflight.den_toInt hW]

theorem exec_division_by_zero (hB : f.B.toNat = 0) {i : Instr} (hi : i ∈ [Instr.divu, .divs]) :
    exec i s = .next (s.withBlock (s.block.afterError .divisionByZero)) := by
  simp only [List.mem_cons, List.not_mem_nil, or_false] at hi
  obtain rfl | rfl := hi
  · rw [exec, execDivu, sameWidth_eq hW, State.complete_of_inflight hf, divideBy_of_zero hB]
  · rw [exec, execDivs, sameWidth_eq hW, State.complete_of_inflight hf, divideBy_of_zero hB]

end

/-! ### R0 and R1 after a division -/

theorem results_of_afterDivision {s : State} {a : Answer} {q r : Nat}
    (h : a = .next (s.withBlock (s.block.afterDivision q r))) (hq : q < 2 ^ s.cfg.W) (hr : r < 2 ^ s.cfg.W) :
    r0Of a = q ∧ r1Of a = r := by
  rw [h]
  exact ⟨(BitVec.toNat_ofNat q _).trans (Nat.mod_eq_of_lt (hq.trans_le s.cfg.pow_W_le_R0)),
    (BitVec.toNat_ofNat r _).trans (Nat.mod_eq_of_lt hr)⟩

section
variable {s : State} {f : Inflight s.cfg} (hW : s.cfg.W = s.cfg.V) (hB : f.B.toNat ≠ 0)
include hW hB

theorem results_divu :
    r0Of (exec .divu (s.withInflight f)) = f.A.toNat / f.B.toNat ∧
      r1Of (exec .divu (s.withInflight f)) = f.A.toNat % f.B.toNat :=
  results_of_afterDivision (exec_divu (s.withInflight_inflight f) hW hB)
    ((Nat.div_le_self _ _).trans_lt f.A.isLt) ((Nat.mod_le _ _).trans_lt f.A.isLt)

theorem results_divs :
    r0Of (exec .divs (s.withInflight f)) = residue s.cfg.W (f.A.toInt.tdiv f.B.toInt) ∧
      r1Of (exec .divs (s.withInflight f)) = residue s.cfg.W (f.A.toInt.tmod f.B.toInt) :=
  results_of_afterDivision (exec_divs (s.withInflight_inflight f) hW hB) (residue_lt _ _) (residue_lt _ _)

/-- The unsigned division invariant (R226). -/
theorem divu_invariant :
    f.A.toNat = r0Of (exec .divu (s.withInflight f)) * f.B.toNat + r1Of (exec .divu (s.withInflight f)) ∧
      r1Of (exec .divu (s.withInflight f)) < f.B.toNat := by
  obtain ⟨hq, hr⟩ := results_divu hW hB
  rw [hq, hr]
  exact ⟨(Nat.div_add_mod' _ _).symm, Nat.mod_lt _ (Nat.pos_of_ne_zero hB)⟩

/-- The division invariant of the patterns, also where the quotient wraps (R226). -/
theorem add_mul_divs {g h : Inflight s.cfg} (hgA : g.A.toNat = r0Of (exec .divs (s.withInflight f))) (hgB : g.B = f.B)
    (hhA : h.A.toNat = r0Of (exec .mul (s.withInflight g)))
    (hhB : h.B.toNat = r1Of (exec .divs (s.withInflight f))) :
    r0Of (exec .add (s.withInflight h)) = f.A.toNat := by
  obtain ⟨hq, hr⟩ := results_divs hW hB
  have hBmod : (f.B.toNat : Int) ≡ f.B.toInt [ZMOD 2 ^ s.cfg.W] := by
    rw [hW]; exact (toInt_modEq_toNat f.B).symm
  rw [r0Of_add hW, hhA, hhB, r0Of_mul hW, hgA, hgB, hq, hr, Nat.mod_add_mod, ← residue_natCast,
    toNat_eq_residue_toInt f.A]
  apply residue_eq_of_modEq
  conv_rhs => rw [← Int.tdiv_mul_add_tmod f.A.toInt f.B.toInt]
  push_cast
  exact ((residue_modEq _ _).mul hBmod).add (residue_modEq _ _)

/-- The remainder, read as signed, is exact (R226). -/
theorem signedOf_divs_remainder :
    signedOf s.cfg.W (r1Of (exec .divs (s.withInflight f))) = f.A.toInt.tmod f.B.toInt := by
  rw [(results_divs hW hB).2, ← Inflight.den_toInt hW, ← toNat_srem_eq_residue, signedOf_toNat s.cfg.W_pos,
    BitVec.toInt_srem]

/-- The quotient, read as signed, is exact but for that of the least number by -1 (R226). -/
theorem signedOf_divs_quotient (h : ¬ (f.A.toNat = 2 ^ (s.cfg.W - 1) ∧ f.B.toNat = 2 ^ s.cfg.V - 1)) :
    signedOf s.cfg.W (r0Of (exec .divs (s.withInflight f))) = f.A.toInt.tdiv f.B.toInt := by
  rw [(results_divs hW hB).1, ← Inflight.den_toInt hW, ← toNat_sdiv_eq_residue, signedOf_toNat s.cfg.W_pos]
  refine BitVec.toInt_sdiv_of_ne_or_ne _ _ (not_and_or.mp fun hc => h ?_)
  obtain ⟨hA, hden⟩ := hc
  rw [hA, BitVec.toNat_intMin_of_pos s.cfg.W_pos, ← Inflight.den_toNat hW, hden, ← hW,
    BitVec.neg_one_eq_allOnes, BitVec.toNat_allOnes]
  exact ⟨rfl, rfl⟩

/-- The remainder's magnitude is below the denominator's (R226). -/
theorem natAbs_divs_remainder_lt :
    (signedOf s.cfg.W (r1Of (exec .divs (s.withInflight f)))).natAbs < f.B.toInt.natAbs := by
  have hne : f.B.toInt ≠ 0 := fun h0 => hB (by rw [toNat_eq_residue_toInt, h0, residue_zero])
  rw [signedOf_divs_remainder hW hB, Int.natAbs_tmod]
  exact Nat.mod_lt _ (Int.natAbs_pos.mpr hne)

/-- The remainder is 0 or has the numerator's sign (R226). -/
theorem divs_remainder_sign :
    r1Of (exec .divs (s.withInflight f)) = 0 ∨
      (signedOf s.cfg.W (r1Of (exec .divs (s.withInflight f))) < 0 ↔ f.A.toInt < 0) := by
  by_cases hdvd : f.B.toInt ∣ f.A.toInt
  · left
    rw [(results_divs hW hB).2, Int.tmod_eq_zero_of_dvd hdvd, residue_zero]
  · right
    rw [signedOf_divs_remainder hW hB, ← Int.sign_eq_neg_one_iff_neg, Int.sign_tmod, if_neg hdvd,
      Int.sign_eq_neg_one_iff_neg]

end

end Sys2Proof.Machine

open Sys2Proof Sys2Proof.Machine

/-- Settles O27: the divider divides, by the loop or by a fast path. -/
theorem divuResult : Obligations.DivuResult :=
  ⟨rfl, fun _ _ hf => ⟨fun hW => exec_divu hf hW, fun hW hB => exec_division_by_zero hf hW hB (by decide),
    fun h => State.complete_sameWidth_of_ne hf h _⟩⟩

/-- Settles O28: the signs put back on the quotient and remainder of the magnitudes truncate toward zero. -/
theorem divsResult : Obligations.DivsResult :=
  ⟨rfl, fun _ _ hf => ⟨fun hW => exec_divs hf hW, fun hW hB => exec_division_by_zero hf hW hB (by decide),
    fun h => State.complete_sameWidth_of_ne hf h _⟩⟩

/-- Settles O29: the loop's invariant at its last step; the fast paths give the pair of the loop. -/
theorem restoringDivides : Obligations.RestoringDivides := by
  refine ⟨fun w num den hd => ?_, fun s f hW hB hf i hi => exec_division_by_zero hf hW hB hi⟩
  have hloop := restoring_eq (num := num) hd
  refine ⟨?_, ?_, (udiv_eq hd).trans hloop.symm, udiv_eq hd ▸ div_mod_fast_paths hd⟩
  · rw [hloop, BitVec.toNat_udiv]
  · rw [hloop, BitVec.toNat_umod]

/-- Settles O30: each law from what the divisions leave in R0 and R1. -/
theorem divisionLaws : Obligations.DivisionLaws := by
  refine ⟨fun s f g h hW hB => ⟨divu_invariant hW hB, add_mul_divs hW hB, fun hne => ?_,
    natAbs_divs_remainder_lt hW hB, divs_remainder_sign hW hB⟩,
    fun s f hW hB i hi => exec_division_by_zero (s.withInflight_inflight f) hW hB hi⟩
  rw [signedOf_divs_quotient hW hB hne, signedOf_divs_remainder hW hB, Int.tdiv_mul_add_tmod]

end

section
/-! The statements of spec/44_shift_rotate.md: the closed forms of the shifts, the word-level barrel shifter, the
rotations of A and of the ring, and the laws of R259. -/

namespace Sys2Proof.Machine

/-! ### The shifts (R250) -/

theorem ofNat_uval_mul {n : Nat} (x : BitVec n) (r : Nat) : BitVec.ofNat n (uval x * 2 ^ r) = x <<< r := by
  apply BitVec.eq_of_toNat_eq
  rw [BitVec.toNat_ofNat, BitVec.toNat_shiftLeft, Nat.shiftLeft_eq, uval]

theorem ofNat_uval_div {n : Nat} (x : BitVec n) (r : Nat) : BitVec.ofNat n (uval x / 2 ^ r) = x >>> r := by
  rw [uval, ← Nat.shiftRight_eq_div_pow, ← BitVec.toNat_ushiftRight, BitVec.ofNat_toNat, BitVec.setWidth_eq]

section
variable {w : Nat} (a : BitVec w) (s : Nat)

theorem shl_eq_shiftLeft : shl a s = a <<< s := by
  unfold shl
  split
  · next h => exact (BitVec.shiftLeft_eq_zero h).symm
  · rw [← ofNat_uval_mul, bitsOf, ← BitVec.ofInt_natCast]
    push_cast
    rfl

theorem shr_eq_ushiftRight : shr a s = a >>> s := by
  unfold shr
  split
  · next h => exact (BitVec.ushiftRight_eq_zero h).symm
  · rw [← ofNat_uval_div, bitsOf, ← BitVec.ofInt_natCast]
    push_cast
    rfl

/-- The floor of the signed quotient is the signed reading of the arithmetic shift. -/
theorem bitsOf_toInt_div : bitsOf w (a.toInt / 2 ^ s) = a.sshiftRight s := by
  rw [← BitVec.ofInt_toInt (x := a.sshiftRight s), BitVec.toInt_sshiftRight, Int.shiftRight_eq_div_pow]
  push_cast
  rfl

theorem sar_eq_sshiftRight : sar a s = a.sshiftRight s := by
  unfold sar
  split
  · next h =>
    apply BitVec.eq_of_getLsbD_eq
    intro i hi
    rw [← BitVec.msb_eq_getLsbD_last, BitVec.getLsbD_sshiftRight, if_neg (show ¬ s + i < w by omega)]
    cases a.msb <;> simp [hi]
  · exact bitsOf_toInt_div a s

theorem toNat_shl : (shl a s).toNat = a.toNat * 2 ^ s % 2 ^ w := by
  rw [shl_eq_shiftLeft, BitVec.toNat_shiftLeft, Nat.shiftLeft_eq]

theorem toNat_shr : (shr a s).toNat = a.toNat / 2 ^ s := by
  rw [shr_eq_ushiftRight, BitVec.toNat_ushiftRight, Nat.shiftRight_eq_div_pow]

theorem toNat_sar : (sar a s).toNat = residue w (a.toInt / 2 ^ s) := by
  rw [sar_eq_sshiftRight, ← bitsOf_toInt_div, toNat_bitsOf]

@[simp] theorem shl_zero : shl a 0 = a := by rw [shl_eq_shiftLeft, BitVec.shiftLeft_zero]

@[simp] theorem shr_zero : shr a 0 = a := by rw [shr_eq_ushiftRight, BitVec.ushiftRight_zero]

@[simp] theorem sar_zero : sar a 0 = a := by rw [sar_eq_sshiftRight, BitVec.sshiftRight_zero]

/-- The arithmetic shift keeps the sign, whatever the amount (R259). -/
theorem toInt_sar_neg_iff : (sar a s).toInt < 0 ↔ a.toInt < 0 := by
  rw [sar_eq_sshiftRight, ← decide_eq_decide, ← BitVec.msb_eq_toInt, ← BitVec.msb_eq_toInt, BitVec.msb_sshiftRight]

end

/-! ### The word-level barrel shifter (R251) -/

/-- A word put at place `j` of a value. -/
theorem getLsbD_word_at {wb n : Nat} (hwb : 0 < wb) (x : BitVec wb) (j i : Nat) :
    (x.setWidth n <<< (j * wb)).getLsbD i = (decide (i < n) && decide (i / wb = j) && x.getLsbD (i % wb)) := by
  rw [BitVec.getLsbD_shiftLeft, BitVec.getLsbD_setWidth]
  by_cases hn : i < n
  · by_cases h : i / wb = j
    · have hmod : i - j * wb = i % wb := by rw [← h, Nat.mod_eq_sub_div_mul]
      have hge : j * wb ≤ i := h ▸ Nat.div_mul_le_self i wb
      simp [hn, h, hmod, hge, (Nat.mod_le i wb).trans_lt hn]
    · by_cases hlt : i < j * wb
      · simp [h, hlt]
      · have hge : wb ≤ i - j * wb := by
          have := mt (Nat.div_eq_iff hwb).mpr h
          omega
        simp [h, BitVec.getLsbD_of_ge x _ hge]
  · simp [hn]

theorem getLsbD_fromWords {wb n : Nat} (hwb : 0 < wb) (word : Nat → BitVec wb) (k i : Nat) :
    (fromWords n word k).getLsbD i =
      (decide (i < n) && decide (i / wb < k) && (word (i / wb)).getLsbD (i % wb)) := by
  induction k with
  | zero => simp [fromWords]
  | succ k ih =>
    rw [fromWords, BitVec.getLsbD_or, ih, getLsbD_word_at hwb]
    by_cases h : i / wb = k
    · simp [h]
    · simp [h, show i / wb < k + 1 ↔ i / wb < k by omega]

/-- The left shift of a word and its lower neighbour: the merge term that R251 leaves out at `r = 0` would be 0. -/
theorem merge_left_eq {wb : Nat} (x y : BitVec wb) (r : Nat) :
    (if r ≠ 0 then x <<< r ||| y >>> (wb - r) else x <<< r) = x <<< r ||| y >>> (wb - r) := by
  split
  · rfl
  · next h => rw [not_not.mp h, Nat.sub_zero, BitVec.ushiftRight_eq_zero le_rfl, BitVec.or_zero]

/-- The right shift of a word and its higher neighbour, likewise. -/
theorem merge_right_eq {wb : Nat} (x y : BitVec wb) (r : Nat) :
    (if r ≠ 0 then x >>> r ||| y <<< (wb - r) else x >>> r) = x >>> r ||| y <<< (wb - r) := by
  split
  · rfl
  · next h => rw [not_not.mp h, Nat.sub_zero, BitVec.shiftLeft_eq_zero le_rfl, BitVec.or_zero]

section
variable {wb w : Nat} (a : BitVec w) (s : Nat)

/-- The word `k` places below word `j`, 0 below word 0, holds the bits `k` words below. -/
theorem getLsbD_word_below (k : Nat) {j i : Nat} (hi : i < wb) :
    (if k ≤ j then wordOf wb a (j - k) else 0#wb).getLsbD i =
      (!decide (j * wb + i < k * wb) && a.getLsbD (j * wb + i - k * wb)) := by
  split
  · next h =>
    have hle : k * wb ≤ j * wb := Nat.mul_le_mul_right wb h
    rw [getLsbD_wordOf, Nat.sub_mul, ← Nat.sub_add_comm hle]
    simp [hi, show ¬ j * wb + i < k * wb by omega]
  · next h =>
    have hle : (j + 1) * wb ≤ k * wb := Nat.mul_le_mul_right wb (by omega)
    rw [Nat.succ_mul] at hle
    simp [show j * wb + i < k * wb by omega]

variable (hwb : 0 < wb)
include hwb

/-- Word `j` of the left shift holds the bits `s` places below. -/
theorem getLsbD_barrelLeftWord {j i : Nat} (hj : j < nw wb w) (hi : i < wb) :
    (barrelLeftWord wb a s j).getLsbD i =
      (decide (j * wb + i < w) && !decide (j * wb + i < s) && a.getLsbD (j * wb + i - s)) := by
  have hs := Nat.div_add_mod' s wb
  have hr := Nat.mod_lt s hwb
  simp only [barrelLeftWord, ofNat_uval_mul, ofNat_uval_div, merge_left_eq, Nat.sub_sub]
  rw [BitVec.getLsbD_and, getLsbD_wordMask hwb hj, BitVec.getLsbD_or, BitVec.getLsbD_shiftLeft,
    BitVec.getLsbD_ushiftRight]
  generalize s / wb = q at *
  generalize s % wb = r at *
  subst hs
  by_cases h : r ≤ i
  · rw [getLsbD_word_below a q (show i - r < wb by omega), BitVec.getLsbD_of_ge _ _ (show wb ≤ wb - r + i by omega),
      show j * wb + (i - r) - q * wb = j * wb + i - (q * wb + r) by omega,
      show decide (j * wb + (i - r) < q * wb) = decide (j * wb + i < q * wb + r) from
        decide_eq_decide.mpr (by omega)]
    simp [hi, show ¬ i < r by omega, Bool.and_comm, Bool.and_left_comm]
  · have hq : (q + 1) * wb = q * wb + wb := Nat.succ_mul q wb
    rw [getLsbD_word_below a (q + 1) (show wb - r + i < wb by omega),
      show j * wb + (wb - r + i) - (q + 1) * wb = j * wb + i - (q * wb + r) by omega,
      show decide (j * wb + (wb - r + i) < (q + 1) * wb) = decide (j * wb + i < q * wb + r) from
        decide_eq_decide.mpr (by omega)]
    simp [hi, show i < r by omega, Bool.and_comm, Bool.and_left_comm]

theorem barrelLeft_eq_shiftLeft : barrelLeft wb a s = a <<< s := by
  apply BitVec.eq_of_getLsbD_eq
  intro i hi
  have hj := div_lt_nw hwb hi
  rw [barrelLeft, getLsbD_fromWords hwb, getLsbD_barrelLeftWord a s hwb hj (Nat.mod_lt i hwb), Nat.div_add_mod',
    BitVec.getLsbD_shiftLeft]
  simp [hi, hj]

/-- The words of the operand of a right shift hold A's bits and above them the fill. -/
theorem getLsbD_barrelExt (arith : Bool) {j i : Nat} (hi : i < wb) :
    (barrelExt wb arith a j).getLsbD i = if j * wb + i < w then a.getLsbD (j * wb + i) else (arith && a.msb) := by
  have hfill : (barrelFill wb arith a).getLsbD i = (arith && a.msb) := by
    rw [barrelFill, ← BitVec.msb_eq_getLsbD_last]
    cases arith && a.msb <;> simp [hi]
  simp only [barrelExt]
  split
  · next hj =>
    have hmask := getLsbD_wordMask hwb hj i
    split
    · rw [BitVec.getLsbD_or, BitVec.getLsbD_and, BitVec.getLsbD_not, hmask, hfill, getLsbD_wordOf]
      split
      · next h => simp [hi, h]
      · next h => simp [hi, h, BitVec.getLsbD_of_ge a _ (Nat.le_of_not_lt h)]
    · have hle := succ_mul_le_of_lt (n := w) (j := j) hwb (by omega)
      rw [Nat.succ_mul] at hle
      rw [if_pos (by omega), getLsbD_wordOf, decide_eq_true hi, Bool.true_and]
  · next hj =>
    have hle : nw wb w * wb ≤ j * wb := Nat.mul_le_mul_right wb (Nat.le_of_not_lt hj)
    have := le_nw_mul (n := w) hwb
    rw [if_neg (by omega), hfill]

/-- Word `j` of the right shift holds the bits `s` places above. -/
theorem getLsbD_barrelRightWord (arith : Bool) {j i : Nat} (hj : j < nw wb w) (hi : i < wb) :
    (barrelRightWord wb arith a s j).getLsbD i = (decide (j * wb + i < w) &&
      if j * wb + i + s < w then a.getLsbD (j * wb + i + s) else (arith && a.msb)) := by
  have hs := Nat.div_add_mod' s wb
  have hr := Nat.mod_lt s hwb
  simp only [barrelRightWord, ofNat_uval_mul, ofNat_uval_div, merge_right_eq]
  rw [BitVec.getLsbD_and, getLsbD_wordMask hwb hj, BitVec.getLsbD_or, BitVec.getLsbD_shiftLeft,
    BitVec.getLsbD_ushiftRight]
  generalize s / wb = q at *
  generalize s % wb = r at *
  subst hs
  have hq : (j + q) * wb = j * wb + q * wb := Nat.add_mul j q wb
  by_cases h : r + i < wb
  · rw [getLsbD_barrelExt a hwb arith h, show (j + q) * wb + (r + i) = j * wb + i + (q * wb + r) by omega]
    simp [hi, show i < wb - r by omega, Bool.and_comm]
  · have hq1 : (j + q + 1) * wb = (j + q) * wb + wb := Nat.succ_mul (j + q) wb
    rw [getLsbD_barrelExt a hwb arith (show i - (wb - r) < wb by omega),
      show (j + q + 1) * wb + (i - (wb - r)) = j * wb + i + (q * wb + r) by omega,
      BitVec.getLsbD_of_ge _ _ (show wb ≤ r + i by omega)]
    simp [hi, show ¬ i < wb - r by omega, Bool.and_comm]

theorem getLsbD_barrelRight (arith : Bool) {i : Nat} (hi : i < w) :
    (barrelRight wb arith a s).getLsbD i = if s + i < w then a.getLsbD (s + i) else (arith && a.msb) := by
  have hj := div_lt_nw hwb hi
  rw [barrelRight, getLsbD_fromWords hwb, getLsbD_barrelRightWord a s hwb arith hj (Nat.mod_lt i hwb),
    Nat.div_add_mod', Nat.add_comm i s]
  simp [hi, hj]

theorem barrelRight_eq_ushiftRight : barrelRight wb false a s = a >>> s := by
  apply BitVec.eq_of_getLsbD_eq
  intro i hi
  rw [getLsbD_barrelRight a s hwb false hi, BitVec.getLsbD_ushiftRight]
  split
  · rfl
  · next h => rw [BitVec.getLsbD_of_ge a _ (Nat.le_of_not_lt h), Bool.false_and]

theorem barrelRight_eq_sshiftRight : barrelRight wb true a s = a.sshiftRight s := by
  apply BitVec.eq_of_getLsbD_eq
  intro i hi
  rw [getLsbD_barrelRight a s hwb true hi, BitVec.getLsbD_sshiftRight]
  simp [hi]

end

/-! ### Rotations (R255, R256) -/

/-- The number `x` of `p + q` bits with its low `p` bits put above its high `q` bits. -/
def swapParts (p q x : Nat) : Nat := x / 2 ^ p + x % 2 ^ p * 2 ^ q

section
variable {p q x : Nat}

theorem swapParts_eq_add : swapParts p q x = x * 2 ^ q % 2 ^ (p + q) + x / 2 ^ p := by
  rw [swapParts, pow_add, Nat.mul_mod_mul_right, Nat.add_comm]

/-- The two parts do not overlap, so a bitwise or puts them together. -/
theorem swapParts_eq_or (hx : x < 2 ^ (p + q)) : swapParts p q x = x * 2 ^ q % 2 ^ (p + q) ||| x / 2 ^ p := by
  rw [pow_add] at hx
  rw [swapParts_eq_add, pow_add, Nat.mul_mod_mul_right, Nat.mul_comm,
    Nat.two_pow_add_eq_or_of_lt (Nat.div_lt_of_lt_mul hx)]

theorem swapParts_swapParts (hx : x < 2 ^ (p + q)) : swapParts q p (swapParts p q x) = x := by
  have hdiv : x / 2 ^ p < 2 ^ q := Nat.div_lt_of_lt_mul (hx.trans_eq (pow_add 2 p q))
  have hhigh : swapParts p q x / 2 ^ q = x % 2 ^ p := by
    rw [swapParts, Nat.add_mul_div_right _ _ (Nat.two_pow_pos q), Nat.div_eq_of_lt hdiv, Nat.zero_add]
  have hlow : swapParts p q x % 2 ^ q = x / 2 ^ p := by
    rw [swapParts, Nat.add_mul_mod_self_right, Nat.mod_eq_of_lt hdiv]
  rw [swapParts, hhigh, hlow, Nat.mod_add_div']

end

section
variable {n : Nat} (x : BitVec n) (s : Nat)

@[simp] theorem rotateLeft_zero : rotateLeft x 0 = x := by simp [rotateLeft]

@[simp] theorem rotateRight_zero : rotateRight x 0 = x := by simp [rotateRight]

/-- The ring's rotations (R257, R258) are ROL and ROR of its `w + 1` bits. -/
theorem ringLeft_eq_rotateLeft {w : Nat} (x : BitVec (w + 1)) (s : Nat) : ringLeft x s = rotateLeft x s := by
  simp only [ringLeft, rotateLeft, BitVec.ofNat_or, ofNat_uval_mul, ofNat_uval_div, shl_eq_shiftLeft,
    shr_eq_ushiftRight]

theorem ringRight_eq_rotateRight {w : Nat} (x : BitVec (w + 1)) (s : Nat) : ringRight x s = rotateRight x s := by
  simp only [ringRight, rotateRight, BitVec.ofNat_or, ofNat_uval_mul, ofNat_uval_div, shl_eq_shiftLeft,
    shr_eq_ushiftRight]

variable (hn : 0 < n)
include hn

theorem toNat_rotateLeft : (rotateLeft x s).toNat = swapParts (n - s % n) (s % n) x.toNat := by
  have hsum : n - s % n + s % n = n := Nat.sub_add_cancel (Nat.mod_lt s hn).le
  simp only [rotateLeft]
  split
  · next h => simp [h, swapParts, Nat.div_eq_of_lt x.isLt, Nat.mod_eq_of_lt x.isLt]
  · rw [BitVec.toNat_or, toNat_shl, toNat_shr, swapParts_eq_or (x.isLt.trans_eq (congrArg _ hsum.symm)), hsum]

/-- The bits pushed out on the left come back on the right. -/
theorem toNat_rotateLeft_eq_add :
    (rotateLeft x s).toNat = x.toNat * 2 ^ (s % n) % 2 ^ n + x.toNat / 2 ^ (n - s % n) := by
  rw [toNat_rotateLeft x s hn, swapParts_eq_add, Nat.sub_add_cancel (Nat.mod_lt s hn).le]

theorem toNat_rotateRight : (rotateRight x s).toNat = swapParts (s % n) (n - s % n) x.toNat := by
  have hsum : s % n + (n - s % n) = n := Nat.add_sub_cancel' (Nat.mod_lt s hn).le
  simp only [rotateRight]
  split
  · next h => simp [h, swapParts, Nat.mod_one]
  · rw [BitVec.toNat_or, toNat_shl, toNat_shr, swapParts_eq_or (x.isLt.trans_eq (congrArg _ hsum.symm)), hsum,
      Nat.or_comm]

theorem rotateLeft_rotateRight : rotateLeft (rotateRight x s) s = x := by
  have hx : x.toNat < 2 ^ (s % n + (n - s % n)) :=
    x.isLt.trans_eq (congrArg _ (Nat.add_sub_cancel' (Nat.mod_lt s hn).le).symm)
  apply BitVec.eq_of_toNat_eq
  rw [toNat_rotateLeft _ s hn, toNat_rotateRight x s hn, swapParts_swapParts hx]

theorem rotateRight_rotateLeft : rotateRight (rotateLeft x s) s = x := by
  have hx : x.toNat < 2 ^ (n - s % n + s % n) :=
    x.isLt.trans_eq (congrArg _ (Nat.sub_add_cancel (Nat.mod_lt s hn).le).symm)
  apply BitVec.eq_of_toNat_eq
  rw [toNat_rotateRight _ s hn, toNat_rotateLeft x s hn, swapParts_swapParts hx]

end

/-! ### The ring of CIN and A (R257) -/

section
variable {w : Nat} (cin : BitVec 1) (a : BitVec w)

theorem toNat_ring : (ring cin a).toNat = cin.toNat * 2 ^ w + a.toNat := by
  have hlt : cin.toNat * 2 ^ w + a.toNat < 2 ^ (w + 1) := by
    have := Nat.mul_le_mul_right (2 ^ w) (show cin.toNat ≤ 1 by omega)
    rw [pow_succ]
    omega
  rw [ring, ← Nat.mod_eq_of_lt hlt]
  exact_mod_cast toNat_bitsOf_natCast (w + 1) (cin.toNat * 2 ^ w + a.toNat)

theorem ring_eq_cons : ring cin a = BitVec.cons (decide (cin = 1#1)) a := by
  apply BitVec.eq_of_toNat_eq
  rw [toNat_ring, BitVec.toNat_cons', Nat.shiftLeft_eq]
  congr 2
  revert cin
  decide

theorem extraBit_eq_msb (y : BitVec (w + 1)) : extraBit w y = y.msb :=
  (BitVec.msb_eq_getLsbD_last y).symm

@[simp] theorem zext_ring : zext w (ring cin a) = a := by
  rw [ring_eq_cons, zext, BitVec.setWidth_cons]

@[simp] theorem extraBit_ring : extraBit w (ring cin a) = decide (cin = 1#1) := by
  rw [ring_eq_cons, extraBit_eq_msb, BitVec.msb_cons]

/-- The carry out fed back above the result is the ring again. -/
theorem ring_eq_of_toNat {y : BitVec (w + 1)} (ha : a.toNat = (zext w y).toNat)
    (hc : cin.toNat = (extraBit w y).toNat) : ring cin a = y := by
  have hcin : decide (cin = 1#1) = y.msb := by
    rw [extraBit_eq_msb] at hc
    revert hc
    cases y.msb <;> revert cin <;> decide
  rw [ring_eq_cons, hcin, BitVec.eq_of_toNat_eq ha, zext, BitVec.cons_msb_setWidth]

end

/-! ### The commands' completions -/

/-- The commands whose result is a function of A and the amount (R252 to R256). -/
inductive ShiftCommand {w : Nat} : Instr → (BitVec w → Nat → BitVec w) → Prop where
  | sll : ShiftCommand .sll shl
  | srl : ShiftCommand .srl shr
  | sra : ShiftCommand .sra sar
  | rol : ShiftCommand .rol rotateLeft
  | ror : ShiftCommand .ror rotateRight

/-- The commands that rotate the ring of CIN and A (R257, R258). -/
inductive RingCommand {n : Nat} : Instr → (BitVec n → Nat → BitVec n) → Prop where
  | rcl : RingCommand .rcl rotateLeft
  | rcr : RingCommand .rcr rotateRight

/-- Amount 0 is the identity (R259). -/
theorem ShiftCommand.apply_zero {w : Nat} {i : Instr} {op : BitVec w → Nat → BitVec w} (hi : ShiftCommand i op)
    (a : BitVec w) : op a 0 = a := by
  cases hi
  case sll => exact shl_zero a
  case srl => exact shr_zero a
  case sra => exact sar_zero a
  case rol => exact rotateLeft_zero a
  case ror => exact rotateRight_zero a

theorem RingCommand.apply_zero {n : Nat} {i : Instr} {op : BitVec n → Nat → BitVec n} (hi : RingCommand i op)
    (x : BitVec n) : op x 0 = x := by
  cases hi
  case rcl => exact rotateLeft_zero x
  case rcr => exact rotateRight_zero x

section
variable {s : State} {f : Inflight s.cfg} {i : Instr}

theorem exec_shift (hf : s.block.inflight = some f) {op : BitVec s.cfg.W → Nat → BitVec s.cfg.W}
    (hi : ShiftCommand i op) :
    exec i s = .next (s.withBlock (s.block.afterResult s.cfg.W (op f.A f.S.toNat).toNat false)) := by
  have hrule : exec i s = s.complete fun f b => b.succeed (op f.A (uval f.S)) false := by cases hi <;> rfl
  rw [hrule]
  exact State.complete_succeed hf (fun f => op f.A (uval f.S)) (fun _ => false) rfl rfl

/-- The ring's top bit goes to C, the others to R0. -/
theorem exec_ring (hf : s.block.inflight = some f) {op : BitVec (s.cfg.W + 1) → Nat → BitVec (s.cfg.W + 1)}
    (hi : RingCommand i op) :
    exec i s = .next (s.withBlock (s.block.afterResult s.cfg.W (zext s.cfg.W (op (ring f.CIN f.A) f.S.toNat)).toNat
      (extraBit s.cfg.W (op (ring f.CIN f.A) f.S.toNat)))) := by
  have hrule : exec i s = s.complete fun f b => b.succeed (zext s.cfg.W (op (ring f.CIN f.A) (uval f.S)))
      (extraBit s.cfg.W (op (ring f.CIN f.A) (uval f.S))) := by
    cases hi
    case rcl => simp only [exec, execRcl, ringLeft_eq_rotateLeft]
    case rcr => simp only [exec, execRcr, ringRight_eq_rotateRight]
  rw [hrule]
  exact State.complete_succeed hf (fun f => zext s.cfg.W (op (ring f.CIN f.A) (uval f.S)))
    (fun f => extraBit s.cfg.W (op (ring f.CIN f.A) (uval f.S))) rfl rfl

end

/-! ### R0 and C after a command, and the laws (R259) -/

theorem results_of_afterPattern {s : State} {a : Answer} {x : BitVec s.cfg.W} {carry : Bool}
    (h : a = .next (s.withBlock (s.block.afterResult s.cfg.W x.toNat carry))) :
    r0Of a = x.toNat ∧ carryOf a = carry :=
  ⟨r0Of_eq_of_afterResult h (x.isLt.trans_le s.cfg.pow_W_le_R0), h ▸ rfl⟩

section
variable {s : State} {f g : Inflight s.cfg} {i : Instr}

theorem r0Of_shift {op : BitVec s.cfg.W → Nat → BitVec s.cfg.W} (hi : ShiftCommand i op) :
    r0Of (exec i (s.withInflight f)) = (op f.A f.S.toNat).toNat :=
  (results_of_afterPattern (exec_shift (s.withInflight_inflight f) hi)).1

theorem results_ring {op : BitVec (s.cfg.W + 1) → Nat → BitVec (s.cfg.W + 1)} (hi : RingCommand i op) :
    r0Of (exec i (s.withInflight f)) = (zext s.cfg.W (op (ring f.CIN f.A) f.S.toNat)).toNat ∧
      carryOf (exec i (s.withInflight f)) = extraBit s.cfg.W (op (ring f.CIN f.A) f.S.toNat) :=
  results_of_afterPattern (exec_ring (s.withInflight_inflight f) hi)

theorem signedOf_sra_neg_iff : signedOf s.cfg.W (r0Of (exec .sra (s.withInflight f))) < 0 ↔ f.A.toInt < 0 := by
  rw [r0Of_shift .sra, signedOf_toNat s.cfg.W_pos, toInt_sar_neg_iff]

theorem r0Of_shift_by_zero (hS : f.S.toNat = 0) {op : BitVec s.cfg.W → Nat → BitVec s.cfg.W}
    (hi : ShiftCommand i op) : r0Of (exec i (s.withInflight f)) = f.A.toNat := by
  rw [r0Of_shift hi, hS, hi.apply_zero]

/-- The ring not rotated is A in R0 and CIN in C. -/
theorem results_ring_by_zero (hS : f.S.toNat = 0) {op : BitVec (s.cfg.W + 1) → Nat → BitVec (s.cfg.W + 1)}
    (hi : RingCommand i op) :
    r0Of (exec i (s.withInflight f)) = f.A.toNat ∧ carryOf (exec i (s.withInflight f)) = decide (f.CIN = 1#1) := by
  obtain ⟨hR0, hC⟩ := results_ring (f := f) hi
  rw [hR0, hC, hS, hi.apply_zero, zext_ring, extraBit_ring]
  exact ⟨rfl, rfl⟩

variable (hS : g.S = f.S)
include hS

theorem r0Of_srl_of_sll (hfit : f.A.toNat * 2 ^ f.S.toNat < 2 ^ s.cfg.W)
    (hA : g.A.toNat = r0Of (exec .sll (s.withInflight f))) :
    r0Of (exec .srl (s.withInflight g)) = f.A.toNat := by
  rw [r0Of_shift .srl, toNat_shr, hA, r0Of_shift .sll, toNat_shl, Nat.mod_eq_of_lt hfit, hS,
    Nat.mul_div_cancel _ (Nat.two_pow_pos _)]

theorem r0Of_rol_of_ror (hA : g.A.toNat = r0Of (exec .ror (s.withInflight f))) :
    r0Of (exec .rol (s.withInflight g)) = f.A.toNat := by
  rw [r0Of_shift .ror] at hA
  rw [r0Of_shift .rol, hS, BitVec.eq_of_toNat_eq hA, rotateLeft_rotateRight _ _ s.cfg.W_pos]

/-- The carry out fed back as CIN makes the rotated ring again, which RCR rotates back. -/
theorem results_rcr_of_rcl (hA : g.A.toNat = r0Of (exec .rcl (s.withInflight f)))
    (hC : g.CIN.toNat = (carryOf (exec .rcl (s.withInflight f))).toNat) :
    r0Of (exec .rcr (s.withInflight g)) = f.A.toNat ∧
      carryOf (exec .rcr (s.withInflight g)) = decide (f.CIN = 1#1) := by
  obtain ⟨hleft, hout⟩ := results_ring (f := f) .rcl
  obtain ⟨hright, hback⟩ := results_ring (f := g) .rcr
  have hring : ring g.CIN g.A = rotateLeft (ring f.CIN f.A) f.S.toNat :=
    ring_eq_of_toNat _ _ (hA.trans hleft) (hC.trans (congrArg _ hout))
  rw [hright, hback, hring, hS, rotateRight_rotateLeft _ _ (Nat.succ_pos _), zext_ring, extraBit_ring]
  exact ⟨rfl, rfl⟩

end

end Sys2Proof.Machine

open Sys2Proof Sys2Proof.Machine

/-- Settles O31: each shift is the library's, whose number is the closed form. -/
theorem shiftResults : Obligations.ShiftResults := by
  refine ⟨rfl, rfl, rfl, fun s f hf => ⟨?_, ?_, ?_⟩⟩
  · rw [exec_shift hf .sll, toNat_shl]
  · rw [exec_shift hf .srl, toNat_shr]
  · rw [exec_shift hf .sra, toNat_sar]

/-- Settles O32: the two parts put together do not overlap, so their bitwise or is their sum. -/
theorem rotateResult : Obligations.RotateResult := by
  refine ⟨rfl, rfl, fun s f hf => ⟨?_, ?_⟩⟩
  · rw [exec_shift hf .rol, toNat_rotateLeft_eq_add _ _ s.cfg.W_pos]
  · rw [exec_shift hf .ror, toNat_rotateRight _ _ s.cfg.W_pos, swapParts]

/-- Settles O33: the ring rotates as A does, at `W + 1` bits. -/
theorem rotateThroughCarryResult : Obligations.RotateThroughCarryResult := by
  refine ⟨rfl, rfl, fun s f hf => ⟨?_, ?_⟩⟩
  · rw [exec_ring hf .rcl, toNat_zext, extraBit_eq, toNat_rotateLeft_eq_add _ _ (Nat.succ_pos _), toNat_ring]
  · rw [exec_ring hf .rcr, toNat_zext, extraBit_eq, toNat_rotateRight _ _ (Nat.succ_pos _), toNat_ring, swapParts]

/-- Settles O34: each word the shifter writes holds the bits of the whole value `n` places away. -/
theorem barrelShifterIsClosedForm : Obligations.BarrelShifterIsClosedForm := by
  intro ws w a n _
  refine ⟨?_, ?_, ?_⟩
  · rw [barrelLeft_eq_shiftLeft a n ws.bits_pos, ← shl_eq_shiftLeft, toNat_shl]
  · rw [barrelRight_eq_ushiftRight a n ws.bits_pos, ← shr_eq_ushiftRight, toNat_shr]
  · rw [barrelRight_eq_sshiftRight a n ws.bits_pos, ← sar_eq_sshiftRight, toNat_sar]

/-- Settles O35: each law from the patterns that the commands leave in R0 and C. -/
theorem shiftLaws : Obligations.ShiftLaws := by
  intro s f g hS
  refine ⟨fun hfit _ => r0Of_srl_of_sll hS hfit, signedOf_sra_neg_iff, fun h0 => ⟨?_, ?_⟩, r0Of_rol_of_ror hS,
    results_rcr_of_rcl hS⟩
  · simp only [List.forall_mem_cons, List.not_mem_nil, false_imp_iff, implies_true, and_true]
    exact ⟨r0Of_shift_by_zero h0 .sll, r0Of_shift_by_zero h0 .srl, r0Of_shift_by_zero h0 .sra,
      r0Of_shift_by_zero h0 .rol, r0Of_shift_by_zero h0 .ror, (results_ring_by_zero h0 .rcl).1,
      (results_ring_by_zero h0 .rcr).1⟩
  · simp only [List.forall_mem_cons, List.not_mem_nil, false_imp_iff, implies_true, and_true]
    exact ⟨(results_ring_by_zero h0 .rcl).2, (results_ring_by_zero h0 .rcr).2⟩

end

section
/-! The statements of spec/60_exceptions.md: how long a sticky bit stays, and what stops a run or ends it. -/

namespace Sys2Proof.Machine

/-! ### The sticky bits -/

/-- No sticky bit has fallen from the first status to the second (60_exceptions.md R284, R285, R286). -/
structure Status.StickyStays (t t' : Status) : Prop where
  oor : t.oor = true → t'.oor = true
  acc : t.acc = true → t'.acc = true
  bsy : t.bsy = true → t'.bsy = true

/-- Only CLRERR lets a sticky bit fall (40_command_cycle.md R141). -/
theorem CompletedAs.stickyStays {c : Instance} {b b' : Block c} {i : Instr} (h : CompletedAs b i b')
    (hi : i ≠ .clrerr) : b.status.StickyStays b'.status := by
  obtain ⟨hoor, hacc, hbsy⟩ := h.keeps_sticky hi
  exact ⟨hoor.trans, hacc.trans, hbsy.trans⟩

/-- A read at most raises OOR or ACC (20_memory.md R77, R78). -/
theorem State.memRead_stickyStays (s : State) (sel : Sel) (idx : BitVec 24) :
    s.block.status.StickyStays (s.memRead sel idx).block.status := by
  obtain ⟨x, y, _, _, _, he, hx, hy, -⟩ := s.memRead_as sel idx
  rw [he]
  exact ⟨fun h => hx.mpr (.inl h), fun h => hy.mpr (.inl h), id⟩

/-- A write at most raises sticky bits (20_memory.md R77, R78; 40_command_cycle.md R132). -/
theorem WrittenAs.stickyStays {s t : State} {sel : Sel} {idx : BitVec 24} {d : BitVec s.cfg.WB}
    (h : WrittenAs s sel idx d t) : s.block.status.StickyStays t.block.status := by
  obtain ⟨hoor, hacc, hbsy⟩ := h.sticky
  exact ⟨fun h => hoor.mpr (.inl h), fun h => hacc.mpr (.inl h), fun h => hbsy.mpr (.inl h)⟩

/-- Without reset, a sticky bit falls only in a step that completes a CLRERR in flight. -/
theorem step_stickyStays {s t : State} (h : step s = .next t) (hr : s.env.resetLine = false)
    (hclr : ∀ f, s.block.inflight = some f → f.op = opcode .clrerr → t.block.inflight.isSome = true) :
    s.block.status.StickyStays t.block.status := by
  cases step_next h with
  | reset hr' => rw [hr] at hr'; cases hr'
  | completed f i b _ hf hi hb =>
    refine hb.stickyStays fun hclrerr => ?_
    have hsome := hclr f hf (by rw [← opcode_of_decodeOpcode hi, hclrerr])
    obtain ⟨hnone, -, -⟩ := hb.idle
    simp [hnone] at hsome
  | read sel idx => exact (s.retire headerBytes).memRead_stickyStays sel idx
  | polled => exact (s.retire headerBytes).memRead_stickyStays .status 0#24
  | written _ _ _ _ _ hw => exact hw.stickyStays
  | unassigned | waits | rests => exact ⟨id, id, id⟩

/-! ### Refusal and rest -/

/-- With nothing in flight the program left decides the turn (40_command_cycle.md R139). -/
theorem State.turn_of_none {s : State} (hr : s.env.resetLine = false) (hf : s.block.inflight = none) :
    s.turn = turnIdle s.programLeft := by
  simp only [State.turn, hr, Bool.false_eq_true, if_false, hf, State.programLeft]

theorem State.over_iff {s : State} : s.over = true ↔ s.host.program = [] ∧ s.block.inflight = none := by
  simp [State.over]

/-- A host with no bytes left has no transaction left. -/
theorem State.programLeft_of_nil {s : State} (h : s.host.program = []) : s.programLeft = .ok [] := by
  rw [State.programLeft, h, decodeProgram_nil]

end Sys2Proof.Machine

open Sys2Proof Sys2Proof.Machine

/-- Settles O57: every way a step can answer leaves a sticky bit or raises it, but for reset and CLRERR. -/
theorem stickyBitsStay : Obligations.StickyBitsStay := by
  intro s t h hr hclr
  obtain ⟨hoor, hacc, hbsy⟩ := step_stickyStays h hr hclr
  exact ⟨hoor, hacc, hbsy⟩

/-- Settles O13: with nothing in flight the turn is what the program left makes it. -/
theorem badProgramRefusedAndFinishedRunRests : Obligations.BadProgramRefusedAndFinishedRunRests := by
  refine ⟨fun s pos why hr hf hbad => ?_, fun s hr hover => ?_⟩
  · have hleft : s.programLeft = .bad pos why := hbad
    simp only [step, State.turn_of_none hr hf, hleft, turnIdle]
  · obtain ⟨hprogram, hf⟩ := State.over_iff.mp hover
    simp only [step, State.turn_of_none hr hf, State.programLeft_of_nil hprogram, turnIdle]

end

section
/-! The statement of spec/70_reset_and_hazards.md: a host read of R0 or R1 while a command is in flight (R320). -/

namespace Sys2Proof.Machine

/-- While BUSY = 1 a read of a word of R0 or R1 returns one free value, whether or not the word is written; of an
unwritten word it is recorded too (70_reset_and_hazards.md R320). -/
theorem State.accessResult_of_busy {n : Nat} {s : State} (hb : s.block.status.busy = true) (r : Reg s.cfg.WB n)
    (sel : Sel) (idx : BitVec 24) :
    ∃ d : BitVec s.cfg.WB,
      (r.isWritten idx.toNat = true → s.accessResult r sel idx = (s.returned d).useFresh 1) ∧
      (r.isWritten idx.toNat = false →
        s.accessResult r sel idx = ((s.returned d).useFresh 1).noted (.unwrittenWord sel idx)) := by
  refine ⟨(Config.freeBusyWord s.env.fresh).setWidth s.cfg.WB, fun hw => ?_, fun hw => ?_⟩
  · rw [State.accessResult, if_pos hb]
    exact if_pos hw
  · rw [State.accessResult, if_pos hb]
    exact if_neg (by simp [hw])

/-- The same of the access at a valid address of R0 or R1 (20_memory.md R74). -/
theorem State.memRead_result_of_busy {s : State} {sel : Sel} {idx : BitVec 24} (hsel : sel ∈ [Sel.r0, .r1])
    (hj : idx.toNat < selWords s.cfg sel) (hb : s.block.status.busy = true) :
    ∃ d : BitVec s.cfg.WB,
      (s.block.writtenAt sel idx.toNat = true → s.memRead sel idx = (s.returned d).useFresh 1) ∧
      (s.block.writtenAt sel idx.toNat = false →
        s.memRead sel idx = ((s.returned d).useFresh 1).noted (.unwrittenWord sel idx)) := by
  simp only [State.memRead, validAddr_eq_true_iff.mpr hj, if_true]
  cases sel with
  | r0 | r1 => exact State.accessResult_of_busy hb _ _ idx
  | _ => simp at hsel

end Sys2Proof.Machine

open Sys2Proof Sys2Proof.Machine

/-- Settles O44: the access is the return of a free value, which does not depend on the word. -/
theorem readResultWhileBusy : Obligations.ReadResultWhileBusy := by
  intro s sel idx hsel hj hb
  obtain ⟨d, hwritten, hunwritten⟩ := State.memRead_result_of_busy (s := s.retire headerBytes) hsel hj hb
  exact ⟨d, fun hw => exec_rd (hwritten hw), fun hw => exec_rd (hunwritten hw)⟩

end
